-- ==== Sys2Proof/Word.lean ====
section
/-! DEFINITION. The two units of data of the engine (10_state.md R28, 00_scope.md R15). -/

namespace Sys2Proof

/-- One byte of a word; byte 0 is the first in memory layout (R15, R54). -/
abbrev Byte := BitVec 8

/-- One 32-bit word of a bank array (R28). -/
abbrev Word := BitVec 32

end Sys2Proof
end

