-- ==== Sys2Proof/Syntax.lean ====
section
/-! DEFINITION. The operations of the engine: one constructor of `Instr` per row of spec/opcode_table.json, the values
they carry (bursts, transactions, admission values, constraint names), and the port words they arrive as (30_encoding.md). -/

namespace Sys2Proof

/-- One slot of a burst: a word and its 4-bit write mask, mask bit `j` governing byte `j` (30_encoding.md R78). -/
structure Slot where
  word : Word
  mask : BitVec 4
deriving DecidableEq, Repr

/-- BURST (R78, R170): the 6-bit length field and the slots that are not ignored. -/
structure Burst where
  len : BitVec 6
  slots : List Slot
deriving DecidableEq, Repr

/-- The command kinds of R72; codes 5 to 7 are `reserved`. -/
inductive CmdKind where
  | active | read | write | precharge | dummy | reserved
deriving DecidableEq, Repr

/-- The results of a constraint evaluation, in the order of their codes (R77). -/
inductive Constraint where
  | none
  | actToAct | actToRead | actToWrite | actToPre
  | readToWrite | readToPre
  | writeToRead | writeToPre
  | preToAct
  | dataBusConflict
  | noActWithRead | noActWithWrite | actWithOpenRow
  | autoprechargeRead | autoprechargeWrite
  | unknown
deriving DecidableEq, Repr

/-- The admission values of R84, in the order of their codes. -/
inductive Admit where
  | acceptBoth | acceptRead | acceptWrite | acceptNone
deriving DecidableEq, Repr

/-- A decoded command word (R72, R90): what a CMD word stands for, its BURST included. -/
inductive Command where
  | active (bank : BitVec 16) (row : BitVec 32)
  | read (bank : BitVec 16) (col : BitVec 32) (ap : Bool)
  | write (bank : BitVec 16) (col : BitVec 32) (burst : Burst) (ap : Bool)
  | precharge (bank : BitVec 16)
  | prechargeAll
  | dummy (cons : BitVec 5)
  | illegal (kind : BitVec 3)
deriving DecidableEq, Repr

/-- The header of a channel transaction, less its two flag bits (R81). -/
structure TxnHeader where
  bank : BitVec 16
  row : BitVec 32
  col : BitVec 32
  bytes : BitVec 32
  requester : BitVec 16
deriving DecidableEq, Repr

/-- TXN (R81): a channel transaction, or a completion. -/
structure Txn where
  isWrite : Bool
  hasMask : Bool
  header : TxnHeader
  data : List Byte
  bmask : List Bool
deriving DecidableEq, Repr

/-- One constructor per row of spec/opcode_table.json (R93). -/
inductive Instr where
  | active (bank : BitVec 16) (row : BitVec 32)
  | read (bank : BitVec 16) (col : BitVec 32) (ap : Bool)
  | write (bank : BitVec 16) (col : BitVec 32) (burst : Burst) (ap : Bool)
  | precharge (bank : BitVec 16)
  | prechargeAll
  | dummy (cons : BitVec 5)
  | illegalKind5
  | illegalKind6
  | illegalKind7
  | constraintFor (kind : BitVec 3) (bank : BitVec 16)
  | readRaw (bank : BitVec 16) (row col nbytes : BitVec 32)
  | writeRaw (bank : BitVec 16) (row col nbytes : BitVec 32) (data : List Byte)
  | preload (bank : BitVec 16) (row col nbytes : BitVec 32) (data : List Byte)
  | rawIllegalOp
  | txnRead (header : TxnHeader)
  | txnWrite (header : TxnHeader) (hasMask : Bool) (data : List Byte) (bmask : List Bool)
  | publishState (state : List Admit)
deriving DecidableEq, Repr

/-- A word on one of the input ports, with the signals that stand beside it (R70). The ports are dedicated signals
(60_exceptions.md R247), so the format is known from the port a word is on. -/
inductive PortWord where
  /-- CMD: 64 bits, and the BURST bus beside it (R73, R78). -/
  | cmd (w : BitVec 64) (burst : BitVec 1158)
  /-- QRY: 32 bits (R82). -/
  | qry (w : BitVec 32)
  /-- RAW: 128-bit header and the byte array (R83). -/
  | raw (w : BitVec 128) (data : List Byte)
  /-- TXN: 160-bit header, the byte array and the byte mask array (R81). -/
  | txn (w : BitVec 160) (data : List Byte) (bmask : List Bool)
  /-- SST: `elems` values of 2 bits, element `b` in bits `2b+1 : 2b` of `w` (R84). -/
  | sst (elems : Nat) (w : Nat)
deriving DecidableEq, Repr

/-- Why a port word is no instruction. Only words that cannot be on the wires are rejected: every header decodes (R90). -/
inductive DecodeError where
  /-- A RAW write or a write TXN whose byte array has another length than its header says (R81, R83). -/
  | dataLength
  /-- A write TXN whose byte mask array has another length than its header says (R81). -/
  | maskLength
  /-- An SST value with no element (R84). -/
  | emptyState
deriving DecidableEq, Repr

end Sys2Proof
end

