-- ==== Sys2Proof/Config.lean ====
section
/-! DEFINITION. What an implementation of the engine fixes: the configuration record (00_scope.md R8), the parameter
bundle it is made from (R8, R10), and the parameters the spec leaves open, as constants with no body. -/

namespace Sys2Proof

/-- The eight latencies of R8, in cycles. -/
structure Latencies where
  tRRD : Nat
  tRCD : Nat
  tWTR : Nat
  tRTW : Nat
  tWR : Nat
  tRP : Nat
  CAS : Nat
  WL : Nat
deriving DecidableEq, Repr

/-- QUEUE_TOPOLOGY (R8): the shape of the admission state (30_encoding.md R84). -/
inductive Topology where
  | shared | perBank
deriving DecidableEq, Repr

/-- PAGE_POLICY (R8): handed to POLICY, read by no rule (R11). -/
inductive PagePolicy where
  | closePage | openPage
deriving DecidableEq, Repr

/-- FAMILY (R8): the one supported memory family, or any other value (60_exceptions.md R234). -/
inductive Family where
  | supported
  | other (code : Nat)
deriving DecidableEq, Repr

/-- PROFILE (R8, R10): where the eight latencies come from. -/
inductive Profile where
  | named (name : String)
  | perfect
  | custom (latencies : Latencies)
deriving DecidableEq, Repr

/-- SCHED_KIND (R8), an opaque selector: whether it selects a POLICY is all the engine asks of it (60_exceptions.md R236).
Which selectors do is open, as the policies are (D30). -/
inductive SchedKind where
  | selects (code : Nat)
  | selectsNone (code : Nat)
deriving DecidableEq, Repr

/-- MEM_INIT (R8, 10_state.md R40): left open, or given as a finite table over all-zero bytes. Over a finite memory
every function has such a table, so a statement about every `MemInit` is one about every MEM_INIT. -/
inductive MemInit where
  | unspecified
  | table (cells : List Host.Cell)
deriving DecidableEq, Repr

/-- The parameter bundle of the factory (44_command_sequencer_scheduler.md R207). `profileTable` is PROFILE_TABLE (R10,
D29), an open parameter: it stands here so that every statement is one about every table. -/
structure Bundle where
  family : Family
  NB : Nat
  NR : Nat
  NC : Nat
  BL : Nat
  BPC : Nat
  profile : Profile
  profileTable : List (String × Latencies)
  topology : Topology
  pagePolicy : PagePolicy
  schedKind : SchedKind
  debugString : List Byte
  memInit : MemInit
deriving DecidableEq, Repr

/-- The configuration `cfg` (R8). -/
structure Cfg where
  /-- banks -/
  NB : Nat
  /-- rows per bank -/
  NR : Nat
  /-- words per row -/
  NC : Nat
  /-- words per burst -/
  BL : Nat
  /-- bytes moved per cycle on the data bus -/
  BPC : Nat
  lat : Latencies
  topology : Topology
  pagePolicy : PagePolicy
  schedKind : SchedKind
  debugString : List Byte
  memInit : MemInit
deriving DecidableEq, Repr

/-- `policyState` (10_state.md R37): its type is a parameter of the engine; any state a policy can hold is coded as a
byte string, the empty string being its initial state: any policy has such a coding. DESIGN CHOICE (log entry 5). -/
abbrev PolicyState := List Byte

/-- RPL without its valid bit (30_encoding.md R85): what the module hands back. -/
structure Reply where
  isWrite : Bool
  burst : Burst
deriving DecidableEq, Repr

/-- What runPolicy is given and may read besides its own state (44_command_sequencer_scheduler.md R194). -/
structure PolicyView where
  cycle : Nat
  cfg : Cfg
  /-- the constraint codes its queries of this tick were answered with -/
  answers : List (BitVec 5)
  openRow : List (Option (BitVec 32))
  rowHits : BitVec 64
  rowMisses : BitVec 64
deriving DecidableEq, Repr

/-- MEM_INIT (R40, D9): an open parameter, a word for each (bank, row, column). -/
opaque Config.memInit : Nat → Nat → Nat → Word

/-- POLICY's transaction hook (44 R191, R200): an open parameter. `cfg` selects the POLICY and is handed to it (R11). -/
opaque Config.onRequestReceived : Cfg → PolicyState → Txn → PolicyState

/-- POLICY's reply hook (44 R191, R200): an open parameter; the completion is its second component. -/
opaque Config.onReplyReceived : Cfg → PolicyState → Reply → PolicyState × Option Txn

/-- The policy state runPolicy returns (44 R193, R200): an open parameter. -/
opaque Config.runPolicy : PolicyState → PolicyView → PolicyState

/-- The test configuration `TC` of 95_test_vectors.md section 1, with MEM_INIT open. What `TC` does not name
(PAGE_POLICY, SCHED_KIND, DEBUG_STRING) no rule reads. DESIGN CHOICE (log entry 1). -/
def Config.tc : Cfg where
  NB := 4
  NR := 16
  NC := 64
  BL := 4
  BPC := 8
  lat := { tRRD := 9, tRCD := 13, tWTR := 5, tRTW := 2, tWR := 10, tRP := 14, CAS := 10, WL := 5 }
  topology := .shared
  pagePolicy := .openPage
  schedKind := .selects 0
  debugString := []
  memInit := .unspecified

end Sys2Proof
end

