-- ==== Sys2Proof/WellFormed.lean ====
section
/-! DEFINITION. Which terms of the syntax are operations: the arrays that stand beside a word have the length its
header gives (30_encoding.md R78, R81, R83, R84). -/

namespace Sys2Proof

/-- A burst carries exactly the slots below its length field, at most 32 of them (R78). -/
def Burst.wellFormed (b : Burst) : Bool :=
  b.slots.length == min b.len.toNat 32

/-- The byte mask array is there exactly when `hasMask` is set, one bit a byte (R81). -/
def maskWellFormed (bytes : BitVec 32) (hasMask : Bool) (bmask : List Bool) : Bool :=
  bmask.length == if hasMask then bytes.toNat else 0

/-- The operands fit the encoding of the operation. Bit fields fit by their type. -/
def Instr.wellFormed (i : Instr) : Bool :=
  match i with
  | .active _ _ => true
  | .read _ _ _ => true
  | .write _ _ burst _ => burst.wellFormed
  | .precharge _ => true
  | .prechargeAll => true
  | .dummy _ => true
  | .illegalKind5 => true
  | .illegalKind6 => true
  | .illegalKind7 => true
  | .constraintFor _ _ => true
  | .readRaw _ _ _ _ => true
  | .writeRaw _ _ _ nbytes data => data.length == nbytes.toNat
  | .preload _ _ _ nbytes data => data.length == nbytes.toNat
  | .rawIllegalOp => true
  | .txnRead _ => true
  | .txnWrite header hasMask data bmask =>
    data.length == header.bytes.toNat && maskWellFormed header.bytes hasMask bmask
  | .publishState state => !state.isEmpty

end Sys2Proof
end

