-- ==== Sys2Proof/Decode.lean ====
section
/-! DEFINITION. The formats of 30_encoding.md: the numeric codes (R71), the decoder of every input format, and after it
the encoder of every operation and of the output formats. -/

namespace Sys2Proof

/-! ### Codes -/

/-- The kind field of a CMD or QRY word (R72); 5, 6 and 7 are reserved. -/
def CmdKind.ofCode (k : BitVec 3) : CmdKind :=
  match k.toNat with
  | 0 => .active
  | 1 => .read
  | 2 => .write
  | 3 => .precharge
  | 4 => .dummy
  | _ => .reserved

/-- The 5-bit code of a constraint (R77). -/
def Constraint.code (k : Constraint) : BitVec 5 :=
  match k with
  | .none => 0
  | .actToAct => 1
  | .actToRead => 2
  | .actToWrite => 3
  | .actToPre => 4
  | .readToWrite => 5
  | .readToPre => 6
  | .writeToRead => 7
  | .writeToPre => 8
  | .preToAct => 9
  | .dataBusConflict => 10
  | .noActWithRead => 11
  | .noActWithWrite => 12
  | .actWithOpenRow => 13
  | .autoprechargeRead => 14
  | .autoprechargeWrite => 15
  | .unknown => 16

/-- The 2-bit code of an admission value (R84). -/
def Admit.code (a : Admit) : BitVec 2 :=
  match a with
  | .acceptBoth => 0
  | .acceptRead => 1
  | .acceptWrite => 2
  | .acceptNone => 3

/-- All four codes are legal (R84). -/
def Admit.ofCode (c : BitVec 2) : Admit :=
  match c.toNat with
  | 0 => .acceptBoth
  | 1 => .acceptRead
  | 2 => .acceptWrite
  | _ => .acceptNone

/-! ### Decoding -/

/-- The first `n` slots of the BURST bus, 36 bits each, the word below its mask (R78). -/
def decodeSlots (n w : Nat) : List Slot :=
  match n with
  | 0 => []
  | n + 1 => { word := BitVec.ofNat 32 w, mask := BitVec.ofNat 4 (w / 2 ^ 32) } :: decodeSlots n (w / 2 ^ 36)

/-- BURST (R78): six length bits, then the slots; slots at or above the length are ignored, and there are 32. -/
def decodeBurst (w : BitVec 1158) : Burst :=
  let len := BitVec.ofNat 6 w.toNat
  { len := len, slots := decodeSlots (min len.toNat 32) (w.toNat / 2 ^ 6) }

/-- The CMD word (R73, R90): `kind`, then for kind 3 the `all` bit, and nothing else selects; fields a kind lacks are
ignored (R74), and so is a BURST beside a command that is not a Write. -/
def decodeCmd (w : BitVec 64) (burst : BitVec 1158) : Instr :=
  let ap := w.extractLsb' 3 1 == 1#1
  let all := w.extractLsb' 4 1 == 1#1
  let bank := w.extractLsb' 16 16
  let addr := w.extractLsb' 32 32
  match (w.extractLsb' 0 3).toNat with
  | 0 => .active bank addr
  | 1 => .read bank addr ap
  | 2 => .write bank addr (decodeBurst burst) ap
  | 3 => if all then .prechargeAll else .precharge bank
  | 4 => .dummy (w.extractLsb' 5 5)
  | 5 => .illegalKind5
  | 6 => .illegalKind6
  | _ => .illegalKind7

/-- The QRY word (R82). -/
def decodeQry (w : BitVec 32) : Instr :=
  .constraintFor (w.extractLsb' 0 3) (w.extractLsb' 16 16)

/-- The RAW word (R83); data bytes stand beside a write only. -/
def decodeRaw (w : BitVec 128) (data : List Byte) : Except DecodeError Instr :=
  let bank := w.extractLsb' 16 16
  let row := w.extractLsb' 32 32
  let col := w.extractLsb' 64 32
  let nbytes := w.extractLsb' 96 32
  match (w.extractLsb' 0 2).toNat with
  | 0 => .ok (.readRaw bank row col nbytes)
  | 1 => if data.length = nbytes.toNat then .ok (.writeRaw bank row col nbytes data) else .error .dataLength
  | 2 => if data.length = nbytes.toNat then .ok (.preload bank row col nbytes data) else .error .dataLength
  | _ => .ok .rawIllegalOp

/-- The TXN header fields (R81). -/
def decodeTxnHeader (w : BitVec 160) : TxnHeader where
  bank := w.extractLsb' 16 16
  row := w.extractLsb' 32 32
  col := w.extractLsb' 64 32
  bytes := w.extractLsb' 96 32
  requester := w.extractLsb' 128 16

/-- The TXN word (R81); the byte and mask arrays stand beside a write only. -/
def decodeTxn (w : BitVec 160) (data : List Byte) (bmask : List Bool) : Except DecodeError Instr :=
  let header := decodeTxnHeader w
  let hasMask := w.extractLsb' 1 1 == 1#1
  if w.extractLsb' 0 1 = 0#1 then .ok (.txnRead header)
  else if data.length ≠ header.bytes.toNat then .error .dataLength
  else if maskWellFormed header.bytes hasMask bmask then .ok (.txnWrite header hasMask data bmask)
  else .error .maskLength

/-- The SST value (R84): element `b` in bits `2b+1 : 2b`. -/
def decodeSst (elems w : Nat) : List Admit :=
  match elems with
  | 0 => []
  | n + 1 => Admit.ofCode (BitVec.ofNat 2 w) :: decodeSst n (w / 4)

/-- The decoder: total on port words; what it rejects cannot be on the wires. -/
def decode (p : PortWord) : Except DecodeError Instr :=
  match p with
  | .cmd w burst => .ok (decodeCmd w burst)
  | .qry w => .ok (decodeQry w)
  | .raw w data => decodeRaw w data
  | .txn w data bmask => decodeTxn w data bmask
  | .sst 0 _ => .error .emptyState
  | .sst (n + 1) w => .ok (.publishState (decodeSst (n + 1) w))

/-- The port word of an opcode-table word of `nbits` bits, every signal beside it at zero: the width tells the format
(R70), and a byte array of zeros has the length the header gives. -/
def tablePortWord (nbits w : Nat) : Option PortWord :=
  match nbits with
  | 64 => some (.cmd (BitVec.ofNat 64 w) 0)
  | 32 => some (.qry (BitVec.ofNat 32 w))
  | 128 =>
    let word := BitVec.ofNat 128 w
    some (.raw word (List.replicate (word.extractLsb' 96 32).toNat 0))
  | 160 =>
    let word := BitVec.ofNat 160 w
    let n := (word.extractLsb' 96 32).toNat
    some (.txn word (List.replicate n 0) (List.replicate (if word.extractLsb' 1 1 = 1#1 then n else 0) false))
  | 8 => some (.sst 1 w)
  | _ => none

/-- The instruction the decoder reads from an opcode-table word. -/
def decodeTableWord (nbits w : Nat) : Option Instr :=
  match tablePortWord nbits w with
  | none => none
  | some p =>
    match decode p with
    | .ok i => some i
    | .error _ => none

/-! ### Encoding -/

/-- The CMD word of R73 from its fields, unused bits 0. -/
def cmdWord (kind : BitVec 3) (ap all : Bool) (cons : BitVec 5) (bank : BitVec 16) (addr : BitVec 32) : BitVec 64 :=
  addr ++ bank ++ 0#6 ++ cons ++ BitVec.ofBool all ++ BitVec.ofBool ap ++ kind

/-- The slots of a burst as one number, 36 bits each (R78). -/
def encodeSlots (slots : List Slot) : Nat :=
  match slots with
  | [] => 0
  | s :: rest => s.word.toNat + 2 ^ 32 * s.mask.toNat + 2 ^ 36 * encodeSlots rest

/-- BURST (R78). -/
def encodeBurst (b : Burst) : BitVec 1158 :=
  BitVec.ofNat 1158 (b.len.toNat + 2 ^ 6 * encodeSlots b.slots)

/-- The RAW header of R83. -/
def rawWord (op : BitVec 2) (bank : BitVec 16) (row col nbytes : BitVec 32) : BitVec 128 :=
  nbytes ++ col ++ row ++ bank ++ 0#14 ++ op

/-- The TXN header of R81. -/
def txnWord (isWrite hasMask : Bool) (h : TxnHeader) : BitVec 160 :=
  0#16 ++ h.requester ++ h.bytes ++ h.col ++ h.row ++ h.bank ++ 0#14 ++ BitVec.ofBool hasMask ++ BitVec.ofBool isWrite

/-- The SST value of R84. -/
def encodeSst (state : List Admit) : Nat :=
  match state with
  | [] => 0
  | a :: rest => a.code.toNat + 4 * encodeSst rest

/-- The port word of an operation, in the canonical encoding (R74): fields a kind lacks are 0. -/
def encode (i : Instr) : PortWord :=
  match i with
  | .active bank row => .cmd (cmdWord 0 false false 0 bank row) 0
  | .read bank col ap => .cmd (cmdWord 1 ap false 0 bank col) 0
  | .write bank col burst ap => .cmd (cmdWord 2 ap false 0 bank col) (encodeBurst burst)
  | .precharge bank => .cmd (cmdWord 3 false false 0 bank 0) 0
  | .prechargeAll => .cmd (cmdWord 3 false true 0 0 0) 0
  | .dummy cons => .cmd (cmdWord 4 false false cons 0 0) 0
  | .illegalKind5 => .cmd (cmdWord 5 false false 0 0 0) 0
  | .illegalKind6 => .cmd (cmdWord 6 false false 0 0 0) 0
  | .illegalKind7 => .cmd (cmdWord 7 false false 0 0 0) 0
  | .constraintFor kind bank => .qry (bank ++ 0#13 ++ kind)
  | .readRaw bank row col nbytes => .raw (rawWord 0 bank row col nbytes) []
  | .writeRaw bank row col nbytes data => .raw (rawWord 1 bank row col nbytes) data
  | .preload bank row col nbytes data => .raw (rawWord 2 bank row col nbytes) data
  | .rawIllegalOp => .raw (rawWord 3 0 0 0 0) []
  | .txnRead header => .txn (txnWord false false header) [] []
  | .txnWrite header hasMask data bmask => .txn (txnWord true hasMask header) data bmask
  | .publishState state => .sst state.length (encodeSst state)

/-- The CMD word an issue helper builds for a command, and its BURST (44 R195, R73). -/
def Command.encode (c : Command) : BitVec 64 × BitVec 1158 :=
  match c with
  | .active bank row => (cmdWord 0 false false 0 bank row, 0)
  | .read bank col ap => (cmdWord 1 ap false 0 bank col, 0)
  | .write bank col burst ap => (cmdWord 2 ap false 0 bank col, encodeBurst burst)
  | .precharge bank => (cmdWord 3 false false 0 bank 0, 0)
  | .prechargeAll => (cmdWord 3 false true 0 0 0, 0)
  | .dummy cons => (cmdWord 4 false false cons 0 0, 0)
  | .illegal kind => (cmdWord kind false false 0 0 0, 0)

/-- RPL (R85): the valid bit, the isWrite bit, and the BURST above them; 0 where not valid. The order of the bits is log
entry 11 (DEDUCED), the 0 where not valid log entry 26 (DESIGN CHOICE). -/
def encodeRpl (r : Option Reply) : BitVec 1160 :=
  match r with
  | none => 0
  | some r => encodeBurst r.burst ++ BitVec.ofBool r.isWrite ++ 1#1

/-- A completion on `completionOut` (R81, R87): the header word of a TXN. -/
def encodeTxn (t : Txn) : BitVec 160 :=
  txnWord t.isWrite t.hasMask t.header

end Sys2Proof
end

