-- ==== Sys2Proof/Machine/State.lean ====
section
/-! DEFINITION. The state of the engine (10_state.md), as plain data, and its value right after reset (R40, R250). -/

namespace Sys2Proof.Machine

/-- The six bank states of 10_state.md R22, in the order of their codes. -/
inductive BankStatus where
  | idle | activating | active | reading | writing | precharging
deriving DecidableEq, Repr

/-- BankState (R21 to R24). Cycle numbers are 64-bit registers whose sums the rules take over the integers (R14); that
they never pass 64 bits is an invariant, not an assumption. -/
structure BankRec where
  status : BankStatus
  endCycle : Nat
  lastWriteEnd : Nat
  autoprecharge : Bool
deriving DecidableEq, Repr

/-- One of the three groups of per-channel scalars of R25: `last<Kind>{Bank,Start,End}`. -/
structure Stamp where
  bank : BitVec 16
  start : Nat
  finish : Nat
deriving DecidableEq, Repr

/-- A timing state `T` (R21, R25): the predictive copy `P` and the physical copy `M` are one each (R26). -/
structure Timing where
  banks : List BankRec
  lastActive : Stamp
  lastRead : Stamp
  lastWrite : Stamp
deriving DecidableEq, Repr

/-- The pin tags of 30_encoding.md R86, in the order of their codes; the last two are produced by no rule. -/
inductive PinTag where
  | read | write | protocolConstraint | casLatency | writeLatency
deriving DecidableEq, Repr

/-- DPI (R86): what leaves on a pin output; `kind` has a meaning with the tag `protocolConstraint` only. What it holds with
another tag the spec leaves open: see `pinItems` (DESIGN CHOICE, log entry 26). -/
structure Dpi where
  tag : PinTag
  kind : BitVec 5
deriving DecidableEq, Repr

/-- An entry of the bus-occupancy queue `dataPins` (10_state.md R29). -/
structure PinItem where
  ts : Nat
  dpi : Dpi
deriving DecidableEq, Repr

/-- An entry of `readout` or `readin` (R30, R31). -/
structure BurstItem where
  ts : Nat
  burst : Burst
deriving DecidableEq, Repr

/-- The bank arrays `mem[b][r][c]` (R28) as (byte address, byte) pairs in one canonical form: see `Memory.wf`. -/
abbrev Memory := List Host.Cell

/-- The physical module's state besides `M` (R27 to R32). -/
structure PhysState where
  /-- `M.openRow[b]`: `none` is NoActiveRow (R27). -/
  openRow : List (Option (BitVec 32))
  mem : Memory
  dataPins : List PinItem
  readout : List BurstItem
  readin : List BurstItem
  /-- The annotation of this tick (R32). -/
  annot : Option (BitVec 5)
deriving DecidableEq, Repr

/-- `lastCmdKind` (R35). -/
inductive LastCmd where
  | noCmd | active | read | write | precharge
deriving DecidableEq, Repr

/-- The scheduler's state besides `P` (R33 to R37), and the three values that live inside one tick: the published
state on its way to S4 (44 R201), the issued command on its way to the module (42 R141), and the completion on its way
to S4 (44 R191). `answers` is the model's own: what the policy was told in this tick. -/
structure SchedState where
  published : Bool
  issued : Bool
  pendingState : List Admit
  schedStateOut : List Admit
  lastCmdKind : List LastCmd
  rowHits : BitVec 64
  rowMisses : BitVec 64
  policyState : PolicyState
  cmdBus : Option Command
  pendingCompletion : Option Txn
  answers : List (BitVec 5)
deriving DecidableEq, Repr

/-- The components of 60_exceptions.md R222, in the order of their codes. -/
inductive Component where
  | predictive | physical | scheduler | bank | engine
deriving DecidableEq, Repr

/-- The operations of R222, in the order of their codes. -/
inductive Operation where
  | postActive | postRead | postWrite | postPrecharge | constraintFor
  | accept | drain | issue | split | publish | endOfTick | raw | access
deriving DecidableEq, Repr

/-- The invariants of R222, in the order of their codes; `none` stands only while the flag is 0. -/
inductive Invariant where
  | none
  | constraintViolated | queueLate | publishMissing | publishTwice | secondCommandInTick
  | outOfRange | prechargeAllUnsupported | burstLength | unknownCommand
  | rawLength | rawOp | cycleOverflow | noActiveRow
deriving DecidableEq, Repr

/-- The fatal record (10_state.md R38): where the engine's one exception saves what it has to say (60 R220). -/
structure FatalRecord where
  flag : Bool
  component : Component
  operation : Operation
  violated : Invariant
  detail : BitVec 64
deriving DecidableEq, Repr

/-- The output registers (R39); `none` is `valid = 0`. -/
structure OutRegs where
  replyOut : Option Reply
  pinsOut : Option Dpi
  annotOut : Option Dpi
  completionOut : Option Txn
deriving DecidableEq, Repr

/-- The configuration errors of 60_exceptions.md R223, in the order of their codes. -/
inductive ConfigError where
  | unsupportedFamily | unknownProfile | zeroBankCount | badParameter
deriving DecidableEq, Repr

/-- Where the engine is between two steps of the model: between ticks, or in S3 of a tick with the policy running. -/
inductive Phase where
  | betweenTicks | policyRunning
deriving DecidableEq, Repr

/-- What the agents outside present, in order: an operation, the return of runPolicy (with it the end of the tick), or
reset with a parameter bundle (70 R250, R251). -/
inductive PortItem where
  | op (word : PortWord)
  | endTick
  | reset (bundle : Bundle)
deriving DecidableEq, Repr

/-- The ports. All of it is the model's own: the inputs not yet consumed, and the answers of the operation just
performed (`none` is not valid). -/
structure PortState where
  port : List PortItem
  /-- What the upstream controller presents, one entry per tick (44 R191). -/
  txnPort : List (Option Txn)
  /-- The 5-bit answer of a query (30 R82). -/
  qryOut : Option (BitVec 5)
  /-- The bytes a readRaw returns (43 R181). -/
  rawOut : Option (List Byte)
  /-- The list splitIntoCommands returns (44 R199). -/
  splitOut : Option (List Command)
deriving DecidableEq, Repr

/-- The state of the engine. -/
structure State where
  /-- The configuration taken at reset (R8, 70 R251). -/
  cfg : Cfg
  /-- The error indication of a configuration that could not be taken (60 R223). -/
  configError : Option ConfigError
  /-- The number of the tick (R20). -/
  cycle : Nat
  phase : Phase
  /-- The predictive timing state. -/
  P : Timing
  /-- The physical timing state. -/
  M : Timing
  phys : PhysState
  sched : SchedState
  fatal : FatalRecord
  out : OutRegs
  env : PortState
deriving DecidableEq, Repr

/-- No step faults: every way the spec has the engine stop is its fatal record (60 R220), which is taken as a next
state, so there is no constructor. Safe: nothing hides behind a fault. -/
inductive Fault where
deriving DecidableEq, Repr

/-- Why a step is refused. -/
inductive Refusal where
  /-- Raised by `exec` for an operation that has no meaning yet. Safe. -/
  | notModelled (mnemonic : String)
  /-- Raised by `step` where the word on the port is none that can be on its wires (30 R81, R83, R84). Safe. -/
  | portWord (error : DecodeError)
  /-- Raised by PUBLISH_STATE for a value with another number of elements than QUEUE_TOPOLOGY fixes (30 R84): the port
  has no such word. Safe. -/
  | stateShape
deriving DecidableEq, Repr

/-- The reset value of a BankState (R40). -/
def BankRec.reset : BankRec where
  status := .idle
  endCycle := 0
  lastWriteEnd := 0
  autoprecharge := false

/-- The reset value of a group of scalars (R40). -/
def Stamp.reset : Stamp where
  bank := 0
  start := 0
  finish := 0

/-- The reset value of a timing state of `n` banks (R40). -/
def Timing.reset (n : Nat) : Timing where
  banks := List.replicate n BankRec.reset
  lastActive := Stamp.reset
  lastRead := Stamp.reset
  lastWrite := Stamp.reset

/-- The number of elements of the admission state (R34, 30 R84). -/
def sstElems (cfg : Cfg) : Nat :=
  match cfg.topology with
  | .shared => 1
  | .perBank => cfg.NB

/-- The fatal record while no fatal has been raised: the flag is 0 (R40), the other fields are unspecified there
(70 R253) and hold code 0. DESIGN CHOICE (log entry 3). -/
def FatalRecord.reset : FatalRecord where
  flag := false
  component := .predictive
  operation := .postActive
  violated := .none
  detail := 0

/-- All four output registers with `valid = 0` (R39). -/
def OutRegs.invalid : OutRegs where
  replyOut := none
  pinsOut := none
  annotOut := none
  completionOut := none

/-- The state after reset with the configuration `cfg` and nothing on the ports (R40, R250). -/
def State.boot (cfg : Cfg) : State where
  cfg := cfg
  configError := none
  cycle := 0
  phase := .betweenTicks
  P := Timing.reset cfg.NB
  M := Timing.reset cfg.NB
  phys :=
    { openRow := List.replicate cfg.NB none, mem := [], dataPins := [], readout := [], readin := [], annot := none }
  sched :=
    { published := false, issued := false, pendingState := []
      schedStateOut := List.replicate (sstElems cfg) .acceptNone
      lastCmdKind := List.replicate cfg.NB .noCmd
      rowHits := 0, rowMisses := 0, policyState := []
      cmdBus := none, pendingCompletion := none, answers := [] }
  fatal := FatalRecord.reset
  out := OutRegs.invalid
  env := { port := [], txnPort := [], qryOut := none, rawOut := none, splitOut := none }

/-- The machine right after reset, with the configuration `TC` (log entry 1). -/
def State.reset : State := State.boot Config.tc

end Sys2Proof.Machine
end

