-- ==== Sys2Proof/Machine/Ops.lean ====
section
/-! DEFINITION. The named operations over the state: bytes and words of the bank arrays (20_memory.md), the bank records
and the row markers, and the one exception of the engine, raising a fatal (60_exceptions.md R220), with the way out of
it, reset. -/

namespace Sys2Proof.Machine

/-! ### Parts of the state -/

/-- `s` with another predictive timing state. -/
def State.setP (s : State) (T : Timing) : State := { s with P := T }

/-- `s` with another physical timing state. -/
def State.setM (s : State) (T : Timing) : State := { s with M := T }

/-- `s` with another module state. -/
def State.setPhys (s : State) (p : PhysState) : State := { s with phys := p }

/-- `s` with another scheduler state. -/
def State.setSched (s : State) (x : SchedState) : State := { s with sched := x }

/-- `s` with other output registers. -/
def State.setOut (s : State) (o : OutRegs) : State := { s with out := o }

/-- `s` with other ports. -/
def State.setEnv (s : State) (e : PortState) : State := { s with env := e }

/-- `s` in another phase. -/
def State.setPhase (s : State) (p : Phase) : State := { s with phase := p }

/-- `s` with another cycle number. -/
def State.setCycle (s : State) (c : Nat) : State := { s with cycle := c }

/-- `s` with a fatal record, its output registers invalid (60 R220). -/
def State.setFatal (s : State) (f : FatalRecord) : State := { s with fatal := f, out := OutRegs.invalid }

/-- `s` with other bank arrays. -/
def State.setMem (s : State) (m : Memory) : State := { s with phys := { s.phys with mem := m } }

/-! ### The fatal error -/

/-- The codes of 60_exceptions.md R222: position in the list. -/
def componentCode (c : Component) : Nat :=
  match c with
  | .predictive => 0
  | .physical => 1
  | .scheduler => 2
  | .bank => 3
  | .engine => 4

/-- The operation codes of R222. -/
def operationCode (o : Operation) : Nat :=
  match o with
  | .postActive => 0
  | .postRead => 1
  | .postWrite => 2
  | .postPrecharge => 3
  | .constraintFor => 4
  | .accept => 5
  | .drain => 6
  | .issue => 7
  | .split => 8
  | .publish => 9
  | .endOfTick => 10
  | .raw => 11
  | .access => 12

/-- The invariant codes of R222; code 0 is "none". -/
def invariantCode (v : Invariant) : Nat :=
  match v with
  | .none => 0
  | .constraintViolated => 1
  | .queueLate => 2
  | .publishMissing => 3
  | .publishTwice => 4
  | .secondCommandInTick => 5
  | .outOfRange => 6
  | .prechargeAllUnsupported => 7
  | .burstLength => 8
  | .unknownCommand => 9
  | .rawLength => 10
  | .rawOp => 11
  | .cycleOverflow => 12
  | .noActiveRow => 13

/-- The fatal record as numbers: `(flag, component, operation, invariant, detail)` (R38, R222). -/
def fatalCodes (f : FatalRecord) : Nat × Nat × Nat × Nat × Nat :=
  (if f.flag then 1 else 0, componentCode f.component, operationCode f.operation, invariantCode f.violated,
    f.detail.toNat)

/-- The configuration error codes of R223. -/
def configErrorCode (e : ConfigError) : Nat :=
  match e with
  | .unsupportedFamily => 0
  | .unknownProfile => 1
  | .zeroBankCount => 2
  | .badParameter => 3

/-- `raise Fatal(component, operation, invariant, detail)` (60 R220), the exception every operation shares: the record is
written, the output registers read invalid from then on, and nothing else changes; a record already there stays, the
first raised being the one recorded (R224). -/
def raiseFatal (component : Component) (operation : Operation) (violated : Invariant) (detail : Nat) (s : State) :
    State :=
  if s.fatal.flag then s
  else
    s.setFatal
      { flag := true, component := component, operation := operation, violated := violated
        detail := BitVec.ofNat 64 detail }

/-- "Nothing after the raise in the same tick happens" (00 R16): `f`, unless a fatal has been raised. -/
def whileLive (f : State → State) (s : State) : State :=
  if s.fatal.flag then s else f s

/-- The engine performs ticks: no fatal (R220), and a configuration was taken (R223). -/
def running (s : State) : Bool :=
  !s.fatal.flag && s.configError.isNone

/-- An operation of the policy or of a tick phase: performed while the engine runs, without effect afterwards: "no phase
runs, no state changes, the query port is not served" (R220, R223). -/
def whileRunning (f : State → State) (s : State) : State :=
  if running s then f s else s

/-- What was waiting on the input ports stays there over a reset: it is not the engine's state. -/
def keepInputs (old new : State) : State :=
  new.setEnv { new.env with port := old.env.port, txnPort := old.env.txnPort }

/-- Reset with the configuration `cfg` (70 R250, R252), the only way out of a fatal stop (R220). -/
def resetWith (cfg : Cfg) (s : State) : State :=
  keepInputs s (State.boot cfg)

/-- Reset with a bundle that cannot be mapped: the engine stays in reset with the error indication and `cycle` 0 (R223). -/
def resetInError (e : ConfigError) (s : State) : State :=
  { resetWith s.cfg s with configError := some e }

/-! ### Bytes -/

/-- Byte `j` of a word: bits `8j+7 : 8j` (00 R15). -/
def byteOf (w : Word) (j : Nat) : Byte :=
  w.extractLsb' (8 * j) 8

/-- The word of four bytes, the first in memory layout lowest (20 R54). -/
def wordOfBytes (b0 b1 b2 b3 : Byte) : Word :=
  b3 ++ b2 ++ b1 ++ b0

/-! ### The bank arrays -/

/-- The byte address of byte 0 of `mem[b][r][c]` in the model's list: rows and columns fill 32 bits each (00 R8). -/
def wordAddr (b r c : Nat) : Nat :=
  ((b * 2 ^ 32 + r) * 2 ^ 32 + c) * 4

/-- The value listed at an address, if one is. -/
def memFind (m : Memory) (a : Nat) : Option Byte :=
  match m with
  | [] => none
  | cell :: rest => if cell.1 = a then some cell.2 else memFind rest a

/-- What an unlisted address reads as: MEM_INIT of its word (10 R40, 70 R253), or the byte of the given table. -/
def initByte (mi : MemInit) (a : Nat) : Byte :=
  match mi with
  | .unspecified =>
    byteOf (Config.memInit (a / 4 / 2 ^ 32 / 2 ^ 32) (a / 4 / 2 ^ 32 % 2 ^ 32) (a / 4 % 2 ^ 32)) (a % 4)
  | .table cells => (memFind cells a).getD 0

/-- One byte of memory. -/
def readByte (mi : MemInit) (m : Memory) (a : Nat) : Byte :=
  (memFind m a).getD (initByte mi a)

/-- The list with the address `a` unlisted. -/
def memErase (m : Memory) (a : Nat) : Memory :=
  match m with
  | [] => []
  | cell :: rest => if cell.1 = a then rest else cell :: memErase rest a

/-- The list with `v` at the address `a`, addresses rising. -/
def memInsert (m : Memory) (a : Nat) (v : Byte) : Memory :=
  match m with
  | [] => [(a, v)]
  | cell :: rest =>
    if a < cell.1 then (a, v) :: cell :: rest
    else if a = cell.1 then (a, v) :: rest
    else cell :: memInsert rest a v

/-- Write one byte, keeping the canonical form: a byte equal to what the address reads as unlisted is not listed. -/
def writeByte (mi : MemInit) (m : Memory) (a : Nat) (v : Byte) : Memory :=
  if v = initByte mi a then memErase m a else memInsert m a v

/-- The canonical form: addresses strictly rising, no entry equal to what an unlisted address reads as. -/
abbrev Memory.wf (mi : MemInit) (m : Memory) : Prop :=
  m.Pairwise (fun x y => x.1 < y.1) ∧ ∀ cell ∈ m, cell.2 ≠ initByte mi cell.1

/-- The word whose byte 0 is at `a` (20 R54). -/
def readWord (mi : MemInit) (m : Memory) (a : Nat) : Word :=
  wordOfBytes (readByte mi m a) (readByte mi m (a + 1)) (readByte mi m (a + 2)) (readByte mi m (a + 3))

/-- Store a word with its byte 0 at `a` (20 R54). -/
def writeWord (mi : MemInit) (m : Memory) (a : Nat) (w : Word) : Memory :=
  writeByte mi (writeByte mi (writeByte mi (writeByte mi m a (byteOf w 0)) (a + 1) (byteOf w 1)) (a + 2) (byteOf w 2))
    (a + 3) (byteOf w 3)

/-- `MemRead((b, r, c), n)` (20 R52). -/
def memRead (mi : MemInit) (m : Memory) (b r c n : Nat) : List Word :=
  match n with
  | 0 => []
  | n + 1 => readWord mi m (wordAddr b r c) :: memRead mi m b r (c + 1) n

/-- One byte of memory as the engine holds it, for statements about what changed. -/
def State.byteAt (s : State) (a : Nat) : Byte :=
  readByte s.cfg.memInit s.phys.mem a

/-- One word of the bank arrays, `mem[b][r][c]` (R28). -/
def State.wordAt (s : State) (b r c : Nat) : Word :=
  readWord s.cfg.memInit s.phys.mem (wordAddr b r c)

/-! ### Bank records and row markers -/

/-- `T.bank[b]` (00 R16). -/
def bankAt (T : Timing) (b : Nat) : BankRec :=
  T.banks.getD b BankRec.reset

/-- `T` with `T.bank[b]` updated. -/
def updateBank (T : Timing) (b : Nat) (f : BankRec → BankRec) : Timing :=
  { T with banks := T.banks.modify b f }

/-- `M.openRow[b]` (10 R27). -/
def openRowAt (s : State) (b : Nat) : Option (BitVec 32) :=
  s.phys.openRow.getD b none

/-- `lastCmdKind[b]` (10 R35). -/
def lastCmdAt (s : State) (b : Nat) : LastCmd :=
  s.sched.lastCmdKind.getD b .noCmd

/-- `M.openRow[b]` in 33 bits, bit 32 set for NoActiveRow (10 R27). -/
def openRowCode (r : Option (BitVec 32)) : BitVec 33 :=
  match r with
  | none => 1#1 ++ 0#32
  | some row => 0#1 ++ row

/-- The 3-bit code of a bank state (10 R22). -/
def bankStatusCode (x : BankStatus) : BitVec 3 :=
  match x with
  | .idle => 0
  | .activating => 1
  | .active => 2
  | .reading => 3
  | .writing => 4
  | .precharging => 5

/-- The 3-bit code of a pin tag (30 R86). -/
def pinTagCode (t : PinTag) : BitVec 3 :=
  match t with
  | .read => 0
  | .write => 1
  | .protocolConstraint => 2
  | .casLatency => 3
  | .writeLatency => 4

/-- DPI with its valid bit (30 R86): valid lowest, then the tag, then the kind; 0 where not valid. The order of the bits is
log entry 11 (DEDUCED), the 0 where not valid and the kind beside a Read or Write tag are log entry 26 (DESIGN CHOICE). -/
def encodeDpi (d : Option Dpi) : BitVec 9 :=
  match d with
  | none => 0
  | some d => d.kind ++ pinTagCode d.tag ++ 1#1

end Sys2Proof.Machine
end

