-- ==== Sys2Proof/Machine/Operands.lean ====
section
/-! DEFINITION. Operands: what a command names (30_encoding.md R72, R75), the range checks of 60_exceptions.md R227 and
R229, the masked merge (43_burst_buffer.md R171), and the bytes and bursts of raw accesses and transactions. -/

namespace Sys2Proof.Machine

/-- `BTT`, the cycles one burst occupies the data bus (00 R9). -/
def btt (cfg : Cfg) : Nat :=
  4 * cfg.BL / cfg.BPC

/-! ### Commands -/

/-- The kind of a command (30 R72). -/
def kindOf (c : Command) : CmdKind :=
  match c with
  | .active _ _ => .active
  | .read _ _ _ => .read
  | .write _ _ _ _ => .write
  | .precharge _ => .precharge
  | .prechargeAll => .precharge
  | .dummy _ => .dummy
  | .illegal _ => .reserved

/-- The bank a command names; the last three name none (30 R74). -/
def bankOf (c : Command) : BitVec 16 :=
  match c with
  | .active bank _ => bank
  | .read bank _ _ => bank
  | .write bank _ _ _ => bank
  | .precharge bank => bank
  | .prechargeAll => 0
  | .dummy _ => 0
  | .illegal _ => 0

/-- A violated invariant with the detail that goes into the fatal record. -/
abbrev Violation := Invariant × Nat

/-- `bank >= NB` (60 R227). -/
def bankFault (cfg : Cfg) (bank : BitVec 16) : Option Violation :=
  if cfg.NB ≤ bank.toNat then some (.outOfRange, bank.toNat) else none

/-- The bank, then the column of a burst access: `col + BL > NC` (60 R227, 20 R55). -/
def accessFault (cfg : Cfg) (bank : BitVec 16) (col : BitVec 32) : Option Violation :=
  match bankFault cfg bank with
  | some v => some v
  | none => if cfg.NC < col.toNat + cfg.BL then some (.outOfRange, col.toNat) else none

/-- Step 2 of the issue helpers (44 R195), and steps 5 to 7 of acceptance (42 R141): the first operand of a command that
does not fit, in the order bank, row or column, burst length. -/
def operandFault (cfg : Cfg) (c : Command) : Option Violation :=
  match c with
  | .active bank row =>
    match bankFault cfg bank with
    | some v => some v
    | none => if cfg.NR ≤ row.toNat then some (.outOfRange, row.toNat) else none
  | .read bank col _ => accessFault cfg bank col
  | .write bank col burst _ =>
    match accessFault cfg bank col with
    | some v => some v
    | none => if burst.len.toNat ≠ cfg.BL then some (.burstLength, burst.len.toNat) else none
  | .precharge bank => bankFault cfg bank
  | .prechargeAll => none
  | .dummy _ => none
  | .illegal _ => none

/-! ### Bursts -/

/-- `merge(old, new, m)` (43 R171). -/
def merge (old new : Word) (m : BitVec 4) : Word :=
  let pick (j : Nat) : Byte := if m.getLsbD j then byteOf new j else byteOf old j
  wordOfBytes (pick 0) (pick 1) (pick 2) (pick 3)

/-- `MemWrite((b, r, c), n, words, masks)` (20 R53), one slot a word. -/
def memWrite (mi : MemInit) (m : Memory) (b r c : Nat) (slots : List Slot) : Memory :=
  match slots with
  | [] => m
  | s :: rest =>
    let a := wordAddr b r c
    memWrite mi (writeWord mi m a (merge (readWord mi m a) s.word s.mask)) b r (c + 1) rest

/-- The burst of `BL` words a Read samples, all masks `0xF` (43 R175, 30 R78). -/
def readBurst (s : State) (bank : BitVec 16) (row : BitVec 32) (col : Nat) : Burst where
  len := BitVec.ofNat 6 s.cfg.BL
  slots :=
    (memRead s.cfg.memInit s.phys.mem bank.toNat row.toNat col s.cfg.BL).map fun w => { word := w, mask := 0xF#4 }

/-! ### Raw accesses -/

/-- The checks of 43 R184 after that of `op`, in their order; the offending value in the order bank, row, column
(60 R227). -/
def rawFault (cfg : Cfg) (bank : BitVec 16) (row col nbytes : BitVec 32) : Option Violation :=
  if cfg.NB ≤ bank.toNat then some (.outOfRange, bank.toNat)
  else if cfg.NR ≤ row.toNat then some (.outOfRange, row.toNat)
  else if nbytes.toNat % 4 ≠ 0 then some (.rawLength, nbytes.toNat)
  else if cfg.NC < col.toNat + nbytes.toNat / 4 then some (.outOfRange, col.toNat)
  else none

/-- The bytes of words, byte 0 of each first (43 R181). -/
def bytesOfWords (ws : List Word) : List Byte :=
  match ws with
  | [] => []
  | w :: rest => byteOf w 0 :: byteOf w 1 :: byteOf w 2 :: byteOf w 3 :: bytesOfWords rest

/-- `n` words of a byte array, first byte lowest (43 R182). -/
def wordsOfBytes (n : Nat) (data : List Byte) : List Word :=
  match n with
  | 0 => []
  | n + 1 =>
    wordOfBytes (data.getD 0 0) (data.getD 1 0) (data.getD 2 0) (data.getD 3 0) :: wordsOfBytes n (data.drop 4)

/-- The words of a raw write: whole words, no masks (43 R182). -/
def memStore (mi : MemInit) (m : Memory) (b r c : Nat) (ws : List Word) : Memory :=
  match ws with
  | [] => m
  | w :: rest => memStore mi (writeWord mi m (wordAddr b r c) w) b r (c + 1) rest

/-! ### Transactions -/

/-- The number of commands `⌈N / (4·BL)⌉` a transaction splits into (44 R199). -/
def splitCount (cfg : Cfg) (h : TxnHeader) : Nat :=
  (h.bytes.toNat + (4 * cfg.BL - 1)) / (4 * cfg.BL)

/-- The range check of splitIntoCommands (44 R199), the offending value in the order bank, row, column (60 R227). -/
def splitFault (cfg : Cfg) (h : TxnHeader) : Option Violation :=
  if cfg.NB ≤ h.bank.toNat then some (.outOfRange, h.bank.toNat)
  else if cfg.NR ≤ h.row.toNat then some (.outOfRange, h.row.toNat)
  else if cfg.NC < h.col.toNat + splitCount cfg h * cfg.BL then some (.outOfRange, h.col.toNat)
  else none

/-- The column of the `k`-th command of a split (44 R199). -/
def splitCol (cfg : Cfg) (h : TxnHeader) (k : Nat) : BitVec 32 :=
  BitVec.ofNat 32 (h.col.toNat + k * cfg.BL)

/-- Whether byte `p` of a write transaction is to be written: covered, and not masked off (44 R199). -/
def byteEnabled (h : TxnHeader) (hasMask : Bool) (bmask : List Bool) (p : Nat) : Bool :=
  decide (p < h.bytes.toNat) && (!hasMask || bmask.getD p false)

/-- Byte `p` of a write transaction, 0 where it is not covered (44 R199). -/
def byteCarried (h : TxnHeader) (data : List Byte) (p : Nat) : Byte :=
  if p < h.bytes.toNat then data.getD p 0 else 0

/-- The slot that carries bytes `p` to `p + 3` of a write transaction (44 R199). -/
def splitSlot (h : TxnHeader) (hasMask : Bool) (data : List Byte) (bmask : List Bool) (p : Nat) : Slot where
  word :=
    wordOfBytes (byteCarried h data p) (byteCarried h data (p + 1)) (byteCarried h data (p + 2))
      (byteCarried h data (p + 3))
  mask :=
    BitVec.ofBool (byteEnabled h hasMask bmask (p + 3)) ++ BitVec.ofBool (byteEnabled h hasMask bmask (p + 2)) ++
      BitVec.ofBool (byteEnabled h hasMask bmask (p + 1)) ++ BitVec.ofBool (byteEnabled h hasMask bmask p)

/-- The burst of the `k`-th Write of a split: `BL` words, the uncovered tail masked off (44 R199). -/
def splitBurst (cfg : Cfg) (h : TxnHeader) (hasMask : Bool) (data : List Byte) (bmask : List Bool) (k : Nat) : Burst where
  len := BitVec.ofNat 6 cfg.BL
  slots := (List.range cfg.BL).map fun i => splitSlot h hasMask data bmask (k * (4 * cfg.BL) + 4 * i)

end Sys2Proof.Machine
end

