-- ==== Sys2Proof/Machine/Flags.lean ====
section
/-! DEFINITION. The decisions of the engine: constraint evaluation (40_timing_constraint_checker.md), the busy test of
the data bus (42 R149), and the row-hit classification (44 R197). -/

namespace Sys2Proof.Machine

/-- "Any bank is Writing" (40 R103). -/
def anyWriting (T : Timing) : Bool :=
  T.banks.any fun r => r.status = .writing

/-- `constraint(T, c, b, Active)` (40 R101). -/
def constraintActive (cfg : Cfg) (T : Timing) (c b : Nat) : Constraint :=
  if (bankAt T b).status = .precharging then .preToAct
  else if T.lastActive.start + cfg.lat.tRRD > c then .actToAct
  else if (bankAt T b).status ≠ .idle then .actWithOpenRow
  else .none

/-- `constraint(T, c, b, Read)` (40 R103). -/
def constraintRead (cfg : Cfg) (T : Timing) (c b : Nat) : Constraint :=
  if T.lastRead.finish > c + cfg.lat.CAS ∨ anyWriting T then .dataBusConflict
  else if (bankAt T b).status = .activating then .actToRead
  else if (bankAt T b).status = .idle ∨ (bankAt T b).status = .precharging then .noActWithRead
  else if (bankAt T b).autoprecharge then .autoprechargeRead
  else if T.lastWrite.finish + cfg.lat.tWTR > c then .writeToRead
  else .none

/-- `constraint(T, c, b, Write)` (40 R105). -/
def constraintWrite (cfg : Cfg) (T : Timing) (c b : Nat) : Constraint :=
  if T.lastWrite.finish > c + cfg.lat.WL ∨ c + cfg.lat.WL < T.lastRead.finish then .dataBusConflict
  else if c + cfg.lat.WL < T.lastRead.finish + cfg.lat.tRTW then .readToWrite
  else if (bankAt T b).status = .activating then .actToWrite
  else if (bankAt T b).status = .idle ∨ (bankAt T b).status = .precharging then .noActWithWrite
  else if (bankAt T b).autoprecharge then .autoprechargeWrite
  else .none

/-- `constraint(T, c, b, Precharge)` (40 R107). -/
def constraintPrecharge (cfg : Cfg) (T : Timing) (c b : Nat) : Constraint :=
  if (bankAt T b).lastWriteEnd + cfg.lat.tWR > c then .writeToPre
  else if (bankAt T b).status = .activating then .actToPre
  else if (bankAt T b).status = .reading ∧ (bankAt T b).endCycle > c + cfg.lat.tRP then .readToPre
  else .none

/-- `constraint(T, c, b, kind)` (40 R100, R111): one function, over `P` for queries and commits (R112, R123) and over `M`
for acceptance (R114). Dummy has no constraint (R109), a reserved kind answers `Unknown` (R110). -/
def constraint (cfg : Cfg) (T : Timing) (c b : Nat) (kind : CmdKind) : Constraint :=
  match kind with
  | .active => constraintActive cfg T c b
  | .read => constraintRead cfg T c b
  | .write => constraintWrite cfg T c b
  | .precharge => constraintPrecharge cfg T c b
  | .dummy => .none
  | .reserved => .unknown

/-- `canIssue(bank, kind)` (40 R113), the derived bit of the query port (30 R82). -/
def canIssue (cfg : Cfg) (T : Timing) (c b : Nat) (kind : CmdKind) : Bool :=
  (constraint cfg T c b kind).code = 0

/-- `busBusy(c)` (42 R149): the pins carry a beat in this tick. -/
def busBusy (s : State) : Bool :=
  match s.phys.dataPins with
  | [] => false
  | e :: _ => e.ts = s.cycle

/-- A Read or Write is a row hit when the last command issued to its bank was one (44 R197). -/
def isRowHit (last : LastCmd) : Bool :=
  match last with
  | .read => true
  | .write => true
  | .noCmd => false
  | .active => false
  | .precharge => false

end Sys2Proof.Machine
end

