-- ==== Sys2Proof/Machine/Banks.lean ====
section
/-! DEFINITION. The bank state machine (41_bank_state_machine.md): the passive transitions of S1 and the four commits,
defined once over a timing state and run on `P` and on `M` (00 R3). -/

namespace Sys2Proof.Machine

/-! ### Passive transitions -/

/-- From `Activating` (41 R129). -/
def passiveActivating (r : BankRec) : BankRec :=
  { r with status := .active }

/-- From `Reading` (41 R130). -/
def passiveReading (cfg : Cfg) (r : BankRec) : BankRec :=
  if r.autoprecharge then
    if cfg.lat.tRP + 1 ≤ cfg.lat.CAS + btt cfg then { r with status := .idle, autoprecharge := false }
    else
      { r with
        status := .precharging
        endCycle := r.endCycle + (cfg.lat.tRP + 1 - cfg.lat.CAS - btt cfg)
        autoprecharge := false }
  else { r with status := .active }

/-- From `Writing` (41 R131). -/
def passiveWriting (cfg : Cfg) (r : BankRec) : BankRec :=
  if r.autoprecharge then
    if cfg.lat.tWR + cfg.lat.tRP = 0 then { r with status := .idle, autoprecharge := false }
    else
      { r with
        status := .precharging
        endCycle := r.endCycle + cfg.lat.tWR + cfg.lat.tRP
        autoprecharge := false }
  else { r with status := .active }

/-- From `Precharging` (41 R132). -/
def passivePrecharging (r : BankRec) : BankRec :=
  { r with status := .idle }

/-- The passive transition of one bank in the tick `c` (41 R121, R122): at most one, when `c >= endCycle`; `Idle` and
`Active` have none (R133). -/
def passiveBank (cfg : Cfg) (c : Nat) (r : BankRec) : BankRec :=
  match r.status with
  | .idle => r
  | .active => r
  | .activating => if r.endCycle ≤ c then passiveActivating r else r
  | .reading => if r.endCycle ≤ c then passiveReading cfg r else r
  | .writing => if r.endCycle ≤ c then passiveWriting cfg r else r
  | .precharging => if r.endCycle ≤ c then passivePrecharging r else r

/-- `passive(T, c)` (41 R121), the document's advanceCycle. -/
def passive (cfg : Cfg) (c : Nat) (T : Timing) : Timing :=
  { T with banks := T.banks.map (passiveBank cfg c) }

/-- The transition closes the row: it enters `Idle` (41 R130 to R132, 43 R174). -/
def entersIdle (cfg : Cfg) (c : Nat) (r : BankRec) : Bool :=
  r.status ≠ .idle ∧ (passiveBank cfg c r).status = .idle

/-- The row markers after the passive transitions of `M` (10 R27). -/
def passiveRows (cfg : Cfg) (c : Nat) (T : Timing) (rows : List (Option (BitVec 32))) : List (Option (BitVec 32)) :=
  rows.mapIdx fun b row => if entersIdle cfg c (bankAt T b) then none else row

/-! ### Commits -/

/-- Commit Active (41 R124). -/
def commitActive (cfg : Cfg) (c : Nat) (b : BitVec 16) (T : Timing) : Timing :=
  { updateBank T b.toNat fun r =>
      { r with status := .activating, endCycle := c + cfg.lat.tRCD, autoprecharge := false } with
    lastActive := { bank := b, start := c, finish := c + cfg.lat.tRCD } }

/-- Commit Read (41 R125). -/
def commitRead (cfg : Cfg) (c : Nat) (b : BitVec 16) (ap : Bool) (T : Timing) : Timing :=
  { updateBank T b.toNat fun r =>
      { r with status := .reading, endCycle := c + cfg.lat.CAS + btt cfg, autoprecharge := ap } with
    lastRead := { bank := b, start := c, finish := c + cfg.lat.CAS + btt cfg } }

/-- Commit Write (41 R126). -/
def commitWrite (cfg : Cfg) (c : Nat) (b : BitVec 16) (ap : Bool) (T : Timing) : Timing :=
  { updateBank T b.toNat fun r =>
      { r with
        status := .writing
        endCycle := c + cfg.lat.WL + btt cfg
        lastWriteEnd := c + cfg.lat.WL + btt cfg
        autoprecharge := ap } with
    lastWrite := { bank := b, start := c, finish := c + cfg.lat.WL + btt cfg } }

/-- Commit Precharge (41 R127): a silent no-op on an `Idle` or `Precharging` bank. -/
def commitPrecharge (cfg : Cfg) (c : Nat) (b : BitVec 16) (T : Timing) : Timing :=
  if (bankAt T b.toNat).status = .idle ∨ (bankAt T b.toNat).status = .precharging then T
  else
    updateBank T b.toNat fun r =>
      { r with status := .precharging, endCycle := c + cfg.lat.tRP, autoprecharge := false }

/-- The commit of a command (41 R123); Dummy, Precharge(ALL) and the reserved kinds have none (R128). -/
def commit (cfg : Cfg) (c : Nat) (cmd : Command) (T : Timing) : Timing :=
  match cmd with
  | .active bank _ => commitActive cfg c bank T
  | .read bank _ ap => commitRead cfg c bank ap T
  | .write bank _ _ ap => commitWrite cfg c bank ap T
  | .precharge bank => commitPrecharge cfg c bank T
  | .prechargeAll => T
  | .dummy _ => T
  | .illegal _ => T

/-- What every commit checks first (41 R123): the bank, then the constraint. -/
def commitFault (cfg : Cfg) (T : Timing) (c : Nat) (cmd : Command) : Option Violation :=
  match bankFault cfg (bankOf cmd) with
  | some v => some v
  | none =>
    let k := constraint cfg T c (bankOf cmd).toNat (kindOf cmd)
    if k = .none then none else some (.constraintViolated, k.code.toNat)

end Sys2Proof.Machine
end

