-- ==== Sys2Proof/Machine/Issue.lean ====
section
/-! DEFINITION. The issue helpers of dram_command_scheduler (44_command_sequencer_scheduler.md R195 to R198), and the
meanings of the CMD rows: what POLICY does when it issues the command. The module's acceptance of the same command
follows in the same S3 (`acceptBus`). -/

namespace Sys2Proof.Machine

/-- The post operation whose commit the fatal record names (44 R195, 60 R225). -/
def postOperation (kind : CmdKind) : Operation :=
  match kind with
  | .active => .postActive
  | .read => .postRead
  | .write => .postWrite
  | .precharge => .postPrecharge
  | .dummy => .issue
  | .reserved => .issue

/-- The value of `lastCmdKind` after a command of a kind (10 R35); the last two never get there. -/
def lastCmdOf (kind : CmdKind) : LastCmd :=
  match kind with
  | .active => .active
  | .read => .read
  | .write => .write
  | .precharge => .precharge
  | .dummy => .noCmd
  | .reserved => .noCmd

/-- Step 4 of the issue helpers (44 R197): a Read or Write counts as a hit or a miss, nothing else counts. -/
def countRow (kind : CmdKind) (last : LastCmd) (x : SchedState) : SchedState :=
  match kind with
  | .read => if isRowHit last then { x with rowHits := x.rowHits + 1 } else { x with rowMisses := x.rowMisses + 1 }
  | .write => if isRowHit last then { x with rowHits := x.rowHits + 1 } else { x with rowMisses := x.rowMisses + 1 }
  | .active => x
  | .precharge => x
  | .dummy => x
  | .reserved => x

/-- Step 6 of the issue helpers: the tick's one command slot is used, the command goes to the module (44 R195). -/
def sendCommand (cmd : Command) (s : State) : State :=
  s.setSched { s.sched with issued := true, cmdBus := some cmd }

/-- Steps 4 and 5 of the issue helpers (44 R195, R197). -/
def noteCommand (cmd : Command) (s : State) : State :=
  let x := countRow (kindOf cmd) (lastCmdAt s (bankOf cmd).toNat) s.sched
  s.setSched { x with lastCmdKind := x.lastCmdKind.set (bankOf cmd).toNat (lastCmdOf (kindOf cmd)) }

/-- Step 1 of every issue helper: one command a tick (44 R196, 60 R238). -/
def useSlot (f : State → State) (s : State) : State :=
  if s.sched.issued then raiseFatal .scheduler .issue .secondCommandInTick 0 s else f s

/-- Step 3 of the issue helpers, the commit on `P` (41 R123), and the steps after it. -/
def postAndSend (cmd : Command) (s : State) : State :=
  match commitFault s.cfg s.P s.cycle cmd with
  | some v => raiseFatal .predictive (postOperation (kindOf cmd)) v.1 v.2 s
  | none => sendCommand cmd (noteCommand cmd (s.setP (commit s.cfg s.cycle cmd s.P)))

/-- Step 2 of the issue helpers, and the steps after it. -/
def checkAndPost (cmd : Command) (s : State) : State :=
  match operandFault s.cfg cmd with
  | some v => raiseFatal .scheduler .issue v.1 v.2 s
  | none => postAndSend cmd s

/-- issueActive, issueRead, issueWrite and issuePrecharge (44 R195). -/
def issue (cmd : Command) (s : State) : State :=
  useSlot (checkAndPost cmd) s

/-- issueDummy (44 R198), and the issue of Precharge(ALL) or a reserved kind, which skips steps 2 to 5 (44 R195). -/
def issueUnchecked (cmd : Command) (s : State) : State :=
  useSlot (sendCommand cmd) s

/-! ### The meanings -/

/-- ACTIVE (44 R195; the commit is 41 R124, the acceptance 42 R143). -/
def execActive (bank : BitVec 16) (row : BitVec 32) (s : State) : Host.Outcome State Fault Refusal :=
  .next (whileRunning (issue (.active bank row)) s)

/-- READ (44 R195; 41 R125, 42 R144). -/
def execRead (bank : BitVec 16) (col : BitVec 32) (ap : Bool) (s : State) : Host.Outcome State Fault Refusal :=
  .next (whileRunning (issue (.read bank col ap)) s)

/-- WRITE (44 R195; 41 R126, 42 R145). -/
def execWrite (bank : BitVec 16) (col : BitVec 32) (burst : Burst) (ap : Bool) (s : State) :
    Host.Outcome State Fault Refusal :=
  .next (whileRunning (issue (.write bank col burst ap)) s)

/-- PRECHARGE of one bank (44 R195; 41 R127, 42 R146). -/
def execPrecharge (bank : BitVec 16) (s : State) : Host.Outcome State Fault Refusal :=
  .next (whileRunning (issue (.precharge bank)) s)

/-- PRECHARGE_ALL: goes to the module, which raises PrechargeAllUnsupported (44 R195, 42 R146, 60 R228). -/
def execPrechargeAll (s : State) : Host.Outcome State Fault Refusal :=
  .next (whileRunning (issueUnchecked .prechargeAll) s)

/-- DUMMY (44 R198, 42 R147). -/
def execDummy (cons : BitVec 5) (s : State) : Host.Outcome State Fault Refusal :=
  .next (whileRunning (issueUnchecked (.dummy cons)) s)

/-- ILLEGAL_KIND_5: goes to the module, which raises UnknownCommand (44 R195, 42 R141, 60 R230). -/
def execIllegalKind5 (s : State) : Host.Outcome State Fault Refusal :=
  .next (whileRunning (issueUnchecked (.illegal 5)) s)

/-- ILLEGAL_KIND_6: goes to the module, which raises UnknownCommand (44 R195, 42 R141, 60 R230). -/
def execIllegalKind6 (s : State) : Host.Outcome State Fault Refusal :=
  .next (whileRunning (issueUnchecked (.illegal 6)) s)

/-- ILLEGAL_KIND_7: goes to the module, which raises UnknownCommand (44 R195, 42 R141, 60 R230). -/
def execIllegalKind7 (s : State) : Host.Outcome State Fault Refusal :=
  .next (whileRunning (issueUnchecked (.illegal 7)) s)

end Sys2Proof.Machine
end

