-- ==== Sys2Proof/Machine/Raw.lean ====
section
/-! DEFINITION. The direct-memory interface of burst_buffer (43_burst_buffer.md R180 to R185): host actions between
ticks that read or write the bank arrays and nothing else. -/

namespace Sys2Proof.Machine

/-- No raw operation is served by an engine that never left reset (60 R223). -/
def whileConfigured (f : State → State) (s : State) : State :=
  if s.configError.isNone then f s else s

/-- readRaw (43 R181): the bytes of the words, on the raw port; still answered after a fatal (R185). -/
def rawRead (bank : BitVec 16) (row col nbytes : BitVec 32) (s : State) : State :=
  match rawFault s.cfg bank row col nbytes with
  | some v => raiseFatal .bank .raw v.1 v.2 s
  | none =>
    s.setEnv
      { s.env with
        rawOut :=
          some
            (bytesOfWords
              (memRead s.cfg.memInit s.phys.mem bank.toNat row.toNat col.toNat (nbytes.toNat / 4))) }

/-- writeRaw (43 R182): whole words replaced; after a fatal nothing changes (R185). -/
def rawWrite (bank : BitVec 16) (row col nbytes : BitVec 32) (data : List Byte) (s : State) : State :=
  match rawFault s.cfg bank row col nbytes with
  | some v => raiseFatal .bank .raw v.1 v.2 s
  | none =>
    s.setMem
      (memStore s.cfg.memInit s.phys.mem bank.toNat row.toNat col.toNat (wordsOfBytes (nbytes.toNat / 4) data))

/-- READ_RAW (43 R181). -/
def execReadRaw (bank : BitVec 16) (row col nbytes : BitVec 32) (s : State) : Host.Outcome State Fault Refusal :=
  .next (whileConfigured (rawRead bank row col nbytes) s)

/-- WRITE_RAW (43 R182). -/
def execWriteRaw (bank : BitVec 16) (row col nbytes : BitVec 32) (data : List Byte) (s : State) :
    Host.Outcome State Fault Refusal :=
  .next (whileRunning (rawWrite bank row col nbytes data) s)

/-- PRELOAD (43 R183): exactly what writeRaw does. -/
def execPreload (bank : BitVec 16) (row col nbytes : BitVec 32) (data : List Byte) (s : State) :
    Host.Outcome State Fault Refusal :=
  .next (whileRunning (rawWrite bank row col nbytes data) s)

/-- RAW_ILLEGAL_OP (43 R184, 60 R231). -/
def execRawIllegalOp (s : State) : Host.Outcome State Fault Refusal :=
  .next (whileRunning (raiseFatal .bank .raw .rawOp 3) s)

end Sys2Proof.Machine
end

