-- ==== Sys2Proof/Machine/Scheduler.lean ====
section
/-! DEFINITION. The other actions of POLICY: the query port (40_timing_constraint_checker.md R112), the transaction
splitter of command_sequencer (44_command_sequencer_scheduler.md R199), and publishState (44 R201). -/

namespace Sys2Proof.Machine

/-! ### Queries -/

/-- `constraintFor(bank, kind)` on `P` (40 R112): the answer on the query port; the bank is checked whatever the kind
(60 R227). -/
def query (kind : BitVec 3) (bank : BitVec 16) (s : State) : State :=
  match bankFault s.cfg bank with
  | some v => raiseFatal .predictive .constraintFor v.1 v.2 s
  | none =>
    let code := (constraint s.cfg s.P s.cycle bank.toNat (CmdKind.ofCode kind)).code
    (s.setSched { s.sched with answers := s.sched.answers ++ [code] }).setEnv { s.env with qryOut := some code }

/-- CONSTRAINT_FOR (40 R112). -/
def execConstraintFor (kind : BitVec 3) (bank : BitVec 16) (s : State) : Host.Outcome State Fault Refusal :=
  .next (whileRunning (query kind bank) s)

/-! ### Transactions -/

/-- The Reads of a read transaction, in order (44 R199). -/
def splitReads (cfg : Cfg) (h : TxnHeader) : List Command :=
  (List.range (splitCount cfg h)).map fun k => .read h.bank (splitCol cfg h k) false

/-- The Writes of a write transaction, in order (44 R199). -/
def splitWrites (cfg : Cfg) (h : TxnHeader) (hasMask : Bool) (data : List Byte) (bmask : List Bool) : List Command :=
  (List.range (splitCount cfg h)).map fun k =>
    .write h.bank (splitCol cfg h k) (splitBurst cfg h hasMask data bmask k) false

/-- splitIntoCommands (44 R199): the range check, then the list; no other state changes. -/
def answerSplit (h : TxnHeader) (commands : List Command) (s : State) : State :=
  match splitFault s.cfg h with
  | some v => raiseFatal .scheduler .split v.1 v.2 s
  | none => s.setEnv { s.env with splitOut := some commands }

/-- TXN_READ (44 R199). -/
def execTxnRead (header : TxnHeader) (s : State) : Host.Outcome State Fault Refusal :=
  .next (whileRunning (answerSplit header (splitReads s.cfg header)) s)

/-- TXN_WRITE (44 R199). -/
def execTxnWrite (header : TxnHeader) (hasMask : Bool) (data : List Byte) (bmask : List Bool) (s : State) :
    Host.Outcome State Fault Refusal :=
  .next (whileRunning (answerSplit header (splitWrites s.cfg header hasMask data bmask)) s)

/-! ### Publishing -/

/-- publishState (44 R201): a second call in a tick is fatal (60 R239). -/
def publish (state : List Admit) (s : State) : State :=
  if s.sched.published then raiseFatal .scheduler .publish .publishTwice 0 s
  else s.setSched { s.sched with published := true, pendingState := state }

/-- PUBLISH_STATE (44 R201); a value of another shape than QUEUE_TOPOLOGY fixes is not on the port (30 R84). -/
def execPublishState (state : List Admit) (s : State) : Host.Outcome State Fault Refusal :=
  if state.length = sstElems s.cfg then .next (whileRunning (publish state) s) else .refused .stateShape

end Sys2Proof.Machine
end

