-- ==== Sys2Proof/Machine/Dispatch.lean ====
section
/-! DEFINITION. The meaning of every operation, one arm a row of spec/opcode_table.json. -/

namespace Sys2Proof.Machine

def exec (i : Instr) (s : State) : Host.Outcome State Fault Refusal :=
  match i with
  | .active bank row => Sys2Proof.Machine.execActive bank row s
  | .read bank col ap => Sys2Proof.Machine.execRead bank col ap s
  | .write bank col burst ap => Sys2Proof.Machine.execWrite bank col burst ap s
  | .precharge bank => Sys2Proof.Machine.execPrecharge bank s
  | .prechargeAll => Sys2Proof.Machine.execPrechargeAll s
  | .dummy cons => Sys2Proof.Machine.execDummy cons s
  | .illegalKind5 => Sys2Proof.Machine.execIllegalKind5 s
  | .illegalKind6 => Sys2Proof.Machine.execIllegalKind6 s
  | .illegalKind7 => Sys2Proof.Machine.execIllegalKind7 s
  | .constraintFor kind bank => Sys2Proof.Machine.execConstraintFor kind bank s
  | .readRaw bank row col nbytes => Sys2Proof.Machine.execReadRaw bank row col nbytes s
  | .writeRaw bank row col nbytes data => Sys2Proof.Machine.execWriteRaw bank row col nbytes data s
  | .preload bank row col nbytes data => Sys2Proof.Machine.execPreload bank row col nbytes data s
  | .rawIllegalOp => Sys2Proof.Machine.execRawIllegalOp s
  | .txnRead header => Sys2Proof.Machine.execTxnRead header s
  | .txnWrite header hasMask data bmask => Sys2Proof.Machine.execTxnWrite header hasMask data bmask s
  | .publishState state => Sys2Proof.Machine.execPublishState state s

end Sys2Proof.Machine
end

