-- ==== Sys2Proof/Machine/Configure.lean ====
section
/-! DEFINITION. The factory (44_command_sequencer_scheduler.md R207): a parameter bundle becomes a configuration, or one
of the configuration errors of 60_exceptions.md R223, R234 to R236. -/

namespace Sys2Proof.Machine

/-- The eight latencies of the `perfect` profile (00 R10). -/
def perfectLatencies : Latencies where
  tRRD := 0
  tRCD := 0
  tWTR := 0
  tRTW := 0
  tWR := 0
  tRP := 0
  CAS := 0
  WL := 0

/-- The latencies a bundle's profile selects (00 R10); `none` for a name not in PROFILE_TABLE (60 R235). -/
def profileLatencies (b : Bundle) : Option Latencies :=
  match b.profile with
  | .named name => b.profileTable.lookup name
  | .perfect => some perfectLatencies
  | .custom latencies => some latencies

/-- The scheduler kind selects a POLICY (60 R236). -/
def selectsPolicy (k : SchedKind) : Bool :=
  match k with
  | .selects _ => true
  | .selectsNone _ => false

/-- Each latency is an unsigned 32-bit number (00 R8). -/
def latenciesFit (l : Latencies) : Bool :=
  decide (l.tRRD < 2 ^ 32) && decide (l.tRCD < 2 ^ 32) && decide (l.tWTR < 2 ^ 32) && decide (l.tRTW < 2 ^ 32) &&
    decide (l.tWR < 2 ^ 32) && decide (l.tRP < 2 ^ 32) && decide (l.CAS < 2 ^ 32) && decide (l.WL < 2 ^ 32)

/-- The ranges of 00 R8, R9 and 60 R236. -/
def cfgValid (c : Cfg) : Bool :=
  decide (1 ≤ c.NB) && decide (c.NB ≤ 65536) && decide (1 ≤ c.NR) && decide (c.NR ≤ 2 ^ 32) && decide (1 ≤ c.NC) &&
    decide (c.NC ≤ 2 ^ 32) && decide (1 ≤ c.BL) && decide (c.BL ≤ 32) && decide (c.BL ≤ c.NC) && decide (1 ≤ c.BPC) &&
    decide (c.BPC ≤ 128) && decide (4 * c.BL % c.BPC = 0) && latenciesFit c.lat

/-- The configuration of a bundle with its latencies looked up: the rest is copied (44 R207). -/
def cfgOf (b : Bundle) (l : Latencies) : Cfg where
  NB := b.NB
  NR := b.NR
  NC := b.NC
  BL := b.BL
  BPC := b.BPC
  lat := l
  topology := b.topology
  pagePolicy := b.pagePolicy
  schedKind := b.schedKind
  debugString := b.debugString
  memInit := b.memInit

/-- The factory; of several errors the first in the order family, profile, bank count, the rest (60 R223). -/
def configure (b : Bundle) : Except ConfigError Cfg :=
  if b.family ≠ .supported then .error .unsupportedFamily
  else
    match profileLatencies b with
    | none => .error .unknownProfile
    | some l =>
      if b.NB = 0 then .error .zeroBankCount
      else if cfgValid (cfgOf b l) && selectsPolicy b.schedKind then .ok (cfgOf b l)
      else .error .badParameter

/-- Reset, which takes and checks a configuration (70 R250, R251). -/
def resetBundle (b : Bundle) (s : State) : State :=
  match configure b with
  | .ok cfg => resetWith cfg s
  | .error e => resetInError e s

/-- The telemetry string of a bank (60 R246): any function of the state; no rule reads it. -/
opaque telemetry : State → Nat → String

end Sys2Proof.Machine
end

