-- ==== Sys2Proof/Machine/Module.lean ====
section
/-! DEFINITION. The physical module (42_physical_module.md): acceptance of the issued command, the bus queues, and the
drain of S4. -/

namespace Sys2Proof.Machine

/-! ### Acceptance, S3 -/

/-- One pin item a transmitted burst-cycle, from the cycle `first` on (42 R144, R145). The rules give a Read or Write item
no `kind`, and 30_encoding.md R86 gives the field a meaning with tag 2 only: that it holds 0 in the queue (10 R29) and on
`pinsOut` is the model's choice. DESIGN CHOICE (log entry 26), unsafe. -/
def pinItems (first n : Nat) (tag : PinTag) : List PinItem :=
  (List.range n).map fun i => { ts := first + i, dpi := { tag := tag, kind := 0 } }

/-- Accept Active (42 R143): the commit on `M`, and the row marker with it (41 R124, 43 R174). -/
def acceptActive (bank : BitVec 16) (row : BitVec 32) (s : State) : State :=
  (s.setM (commitActive s.cfg s.cycle bank s.M)).setPhys
    { s.phys with openRow := s.phys.openRow.set bank.toNat (some row) }

/-- Accept Read (42 R144): the words are sampled now; pin items at `c + CAS + i`, the burst at `c + CAS + BTT`. -/
def acceptRead (bank : BitVec 16) (col : BitVec 32) (ap : Bool) (s : State) : State :=
  match openRowAt s bank.toNat with
  | none => raiseFatal .bank .access .noActiveRow bank.toNat s
  | some row =>
    (s.setM (commitRead s.cfg s.cycle bank ap s.M)).setPhys
      { s.phys with
        dataPins := s.phys.dataPins ++ pinItems (s.cycle + s.cfg.lat.CAS) (btt s.cfg) .read
        readout :=
          s.phys.readout ++
            [{ ts := s.cycle + s.cfg.lat.CAS + btt s.cfg, burst := readBurst s bank row col.toNat }] }

/-- Accept Write (42 R145): the words are merged now; pin items at `c + WL + i`, the hand-back at `c + WL + BTT`. -/
def acceptWrite (bank : BitVec 16) (col : BitVec 32) (burst : Burst) (ap : Bool) (s : State) : State :=
  match openRowAt s bank.toNat with
  | none => raiseFatal .bank .access .noActiveRow bank.toNat s
  | some row =>
    (s.setM (commitWrite s.cfg s.cycle bank ap s.M)).setPhys
      { s.phys with
        mem := memWrite s.cfg.memInit s.phys.mem bank.toNat row.toNat col.toNat (burst.slots.take s.cfg.BL)
        dataPins := s.phys.dataPins ++ pinItems (s.cycle + s.cfg.lat.WL) (btt s.cfg) .write
        readin := s.phys.readin ++ [{ ts := s.cycle + s.cfg.lat.WL + btt s.cfg, burst := burst }] }

/-- Accept Precharge of one bank (42 R146). -/
def acceptPrecharge (bank : BitVec 16) (s : State) : State :=
  s.setM (commitPrecharge s.cfg s.cycle bank s.M)

/-- Accept Dummy (42 R147): an annotation if the bus is busy, else nothing at all. -/
def acceptDummy (cons : BitVec 5) (s : State) : State :=
  if busBusy s then s.setPhys { s.phys with annot := some cons } else s

/-- Steps 5 to 8 of acceptance (42 R141), and then the effect. -/
def acceptChecked (cmd : Command) (effect : State → State) (s : State) : State :=
  match operandFault s.cfg cmd with
  | some v => raiseFatal .physical .accept v.1 v.2 s
  | none =>
    let k := constraint s.cfg s.M s.cycle (bankOf cmd).toNat (kindOf cmd)
    if k = .none then effect s else raiseFatal .physical .accept .constraintViolated k.code.toNat s

/-- Command acceptance (42 R141). -/
def accept (cmd : Command) (s : State) : State :=
  match cmd with
  | .illegal kind => raiseFatal .physical .accept .unknownCommand kind.toNat s
  | .prechargeAll => raiseFatal .physical .accept .prechargeAllUnsupported 0 s
  | .dummy cons => acceptDummy cons s
  | .active bank row => acceptChecked cmd (acceptActive bank row) s
  | .read bank col ap => acceptChecked cmd (acceptRead bank col ap) s
  | .write bank col burst ap => acceptChecked cmd (acceptWrite bank col burst ap) s
  | .precharge bank => acceptChecked cmd (acceptPrecharge bank) s

/-- The command issued in this tick, if any, is accepted in the same S3 (42 R141, 44 R193). -/
def acceptBus (s : State) : State :=
  match s.sched.cmdBus with
  | none => s
  | some cmd => accept cmd s

/-! ### Drain and outputs, S4 -/

/-- Drain of `dataPins`, and the two pin outputs (42 R150, R151). -/
def drainPins (s : State) : State :=
  let annotOut := s.phys.annot.map fun k => { tag := .protocolConstraint, kind := k }
  match s.phys.dataPins with
  | [] => s.setOut { s.out with pinsOut := none, annotOut := annotOut }
  | e :: rest =>
    if e.ts < s.cycle then raiseFatal .physical .drain .queueLate e.ts s
    else if e.ts = s.cycle then
      (s.setPhys { s.phys with dataPins := rest }).setOut { s.out with pinsOut := some e.dpi, annotOut := annotOut }
    else s.setOut { s.out with pinsOut := none, annotOut := annotOut }

/-- Drain of `readout`: a read burst goes out as a reply (42 R150, R152). -/
def drainReadout (s : State) : State :=
  match s.phys.readout with
  | [] => s.setOut { s.out with replyOut := none }
  | e :: rest =>
    if e.ts < s.cycle then raiseFatal .physical .drain .queueLate e.ts s
    else if e.ts = s.cycle then
      (s.setPhys { s.phys with readout := rest }).setOut
        { s.out with replyOut := some { isWrite := false, burst := e.burst } }
    else s.setOut { s.out with replyOut := none }

/-- Drain of `readin`: a write burst is handed back as a reply (42 R150, R152). -/
def drainReadin (s : State) : State :=
  match s.phys.readin with
  | [] => s
  | e :: rest =>
    if e.ts < s.cycle then raiseFatal .physical .drain .queueLate e.ts s
    else if e.ts = s.cycle then
      (s.setPhys { s.phys with readin := rest }).setOut
        { s.out with replyOut := some { isWrite := true, burst := e.burst } }
    else s

end Sys2Proof.Machine
end

