-- ==== Sys2Proof/Machine/Tick.lean ====
section
/-! DEFINITION. One tick of the engine (00_scope.md R12): S1 and S2 open it, POLICY's actions are the operations between,
and the rest of S3 and S4 close it. -/

namespace Sys2Proof.Machine

/-! ### S1 and S2 -/

/-- The in-tick values are cleared before S1 (10 R32, R33). -/
def clearTick (s : State) : State :=
  (s.setSched
    { s.sched with
      published := false, issued := false, pendingState := [], cmdBus := none, pendingCompletion := none
      answers := [] }).setPhys
    { s.phys with annot := none }

/-- S1: the passive transitions on `P` and on `M` (41 R121). -/
def phaseS1 (s : State) : State :=
  ((s.setP (passive s.cfg s.cycle s.P)).setM (passive s.cfg s.cycle s.M)).setPhys
    { s.phys with openRow := passiveRows s.cfg s.cycle s.M s.phys.openRow }

/-- S2, the transaction presented in this tick, if any (44 R191). -/
def takeTxn (s : State) : State :=
  match s.env.txnPort with
  | [] => s
  | entry :: rest =>
    let s := s.setEnv { s.env with txnPort := rest }
    match entry with
    | none => s
    | some txn => s.setSched { s.sched with policyState := Config.onRequestReceived s.cfg s.sched.policyState txn }

/-- S2, the reply drained in the tick before, if any (44 R191). -/
def takeReply (s : State) : State :=
  match s.out.replyOut with
  | none => s
  | some reply =>
    let answer := Config.onReplyReceived s.cfg s.sched.policyState reply
    s.setSched { s.sched with policyState := answer.1, pendingCompletion := answer.2 }

/-- S2: the transaction hook runs before the reply hook (44 R191). -/
def phaseS2 (s : State) : State :=
  takeReply (takeTxn s)

/-- A tick up to the point where POLICY runs (00 R12). -/
def startTick (s : State) : State :=
  (phaseS2 (phaseS1 (clearTick s))).setPhase .policyRunning

/-- S1 and S2 of a tick; nothing if a tick is already under way. -/
def openTick (s : State) : State :=
  match s.phase with
  | .policyRunning => s
  | .betweenTicks => whileRunning startTick s

/-! ### The rest of S3, and S4 -/

/-- What runPolicy may read when it returns (44 R194). -/
def policyView (s : State) : PolicyView where
  cycle := s.cycle
  cfg := s.cfg
  answers := s.sched.answers
  openRow := s.phys.openRow
  rowHits := s.sched.rowHits
  rowMisses := s.sched.rowMisses

/-- runPolicy returns its new state (44 R193, R200). -/
def policyReturns (s : State) : State :=
  s.setSched { s.sched with policyState := Config.runPolicy s.sched.policyState (policyView s) }

/-- The scheduler's outputs of S4 (44 R203, R205). -/
def schedulerOutputs (s : State) : State :=
  (s.setSched
    { s.sched with
      schedStateOut := if s.sched.published then s.sched.pendingState else s.sched.schedStateOut }).setOut
    { s.out with completionOut := s.sched.pendingCompletion }

/-- The end-of-tick check of 44 R206. -/
def checkPublished (s : State) : State :=
  if s.sched.published then s else raiseFatal .scheduler .endOfTick .publishMissing 0 s

/-- The last cycle number (10 R20, 60 R232). -/
def maxCycle : Nat :=
  2 ^ 64 - 2 ^ 34

/-- `cycle <- cycle + 1`, or the fatal of 60 R232; the tick is over, and with it its annotation (10 R32). -/
def advanceCycle (s : State) : State :=
  if s.cycle = maxCycle then raiseFatal .engine .endOfTick .cycleOverflow 0 s
  else ((s.setCycle (s.cycle + 1)).setPhase .betweenTicks).setPhys { s.phys with annot := none }

/-- S4 (00 R12): the module's drain in the order of 42 R150, the scheduler's outputs, the end-of-tick checks. -/
def phaseS4 (s : State) : State :=
  whileLive advanceCycle
    (whileLive checkPublished
      (whileLive schedulerOutputs (whileLive drainReadin (whileLive drainReadout (whileLive drainPins s)))))

/-- The rest of a tick once POLICY has no more actions: acceptance of the issued command, then S4 (00 R12). -/
def completeTick (s : State) : State :=
  phaseS4 (acceptBus (policyReturns s))

/-- The tick under way runs to its end; nothing if none is. -/
def closeTick (s : State) : State :=
  match s.phase with
  | .betweenTicks => s
  | .policyRunning => whileRunning completeTick s

/-- The clock runs to the end of a tick: the one under way, or, between ticks, one in which POLICY performs no action. -/
def finishTick (s : State) : State :=
  closeTick (openTick s)

end Sys2Proof.Machine
end

