-- ==== Sys2Proof/Machine/Fetch.lean ====
section
/-! DEFINITION. What a step does before it runs an operation: it takes the next item of the port, decodes it, and brings
the engine to the phase in which that operation is performed (00_scope.md R12, 43_burst_buffer.md R180). -/

namespace Sys2Proof.Machine

/-- What the port has for the next step. -/
inductive Fetched where
  /-- An operation, and the state in which it is to be performed. -/
  | run (i : Instr) (s : State)
  /-- A tick boundary or a reset, and the state after it. -/
  | done (s : State)
  /-- A word that is none of its port. -/
  | reject (r : Refusal)
deriving DecidableEq, Repr

/-- Raw operations are the host's, between ticks (43 R180); every other operation is the policy's, in S3 (44 R200). -/
def isRaw (i : Instr) : Bool :=
  match i with
  | .readRaw _ _ _ _ => true
  | .writeRaw _ _ _ _ _ => true
  | .preload _ _ _ _ _ => true
  | .rawIllegalOp => true
  | .active _ _ => false
  | .read _ _ _ => false
  | .write _ _ _ _ => false
  | .precharge _ => false
  | .prechargeAll => false
  | .dummy _ => false
  | .illegalKind5 => false
  | .illegalKind6 => false
  | .illegalKind7 => false
  | .constraintFor _ _ => false
  | .txnRead _ => false
  | .txnWrite _ _ _ _ => false
  | .publishState _ => false

/-- The engine in the phase in which the operation is performed: a tick under way is completed for the host, a tick is
opened for the policy. -/
def prepare (i : Instr) (s : State) : State :=
  if isRaw i then closeTick s else openTick s

/-- The item at the head of the port is consumed, and the answers of the operation before it are gone. -/
def consume (rest : List PortItem) (s : State) : State :=
  s.setEnv { s.env with port := rest, qryOut := none, rawOut := none, splitOut := none }

/-- The next item of the port. With nothing there the clock goes on (00 R12). -/
def fetch (s : State) : Fetched :=
  match s.env.port with
  | [] => .done (finishTick (consume [] s))
  | .endTick :: rest => .done (finishTick (consume rest s))
  | .reset b :: rest => .done (resetBundle b (consume rest s))
  | .op word :: rest =>
    match decode word with
    | .error e => .reject (.portWord e)
    | .ok i => .run i (prepare i (consume rest s))

/-- `s` with an opcode-table word as the next item of the port; nothing changes for a width no row has. -/
def placeTableWord (s : State) (nbits w : Nat) : State :=
  match tablePortWord nbits w with
  | none => s
  | some word => s.setEnv { s.env with port := .op word :: s.env.port }

end Sys2Proof.Machine
end

