-- ==== Sys2Proof/Machine/Step.lean ====
section
/-! DEFINITION. One step of the model: one operation presented on a port, one tick boundary, or one reset. -/

namespace Sys2Proof.Machine

/-- One step: the port's next item. Everything but the choice of outcome is in `fetch` and `exec`. -/
def step (s : State) : Host.Outcome State Fault Refusal :=
  match fetch s with
  | .run i s' => exec i s'
  | .done s' => .next s'
  | .reject r => .refused r

/-- `s` with an opcode-table word as the operation the next step runs. -/
def State.withFetchWord (s : State) (nbits w : Nat) : State :=
  placeTableWord s nbits w

end Sys2Proof.Machine
end

