-- ==== Sys2Proof/Safety.lean ====
section
/-! DEFINITION. What a safe state of the engine is, in the terms statements use: the invariants the spec derives from its
rules, each as a predicate on states, and the frames of the operations. -/

namespace Sys2Proof.Machine

/-! ### Invariants -/

/-- The configuration is legal, and every array indexed by banks has one element a bank (10_state.md R21, R27, R34, R35). -/
def shapeInv (s : State) : Prop :=
  cfgValid s.cfg = true ∧ s.P.banks.length = s.cfg.NB ∧ s.M.banks.length = s.cfg.NB ∧
    s.phys.openRow.length = s.cfg.NB ∧ s.sched.lastCmdKind.length = s.cfg.NB ∧
    s.sched.schedStateOut.length = sstElems s.cfg ∧
    (s.sched.published = true → s.sched.pendingState.length = sstElems s.cfg)

/-- The bank arrays are in their canonical form. -/
def memoryInv (s : State) : Prop :=
  Memory.wf s.cfg.memInit s.phys.mem

/-- The commands that have a commit (41_bank_state_machine.md R128). -/
def hasCommit (c : Command) : Bool :=
  match c with
  | .active _ _ => true
  | .read _ _ _ => true
  | .write _ _ _ _ => true
  | .precharge _ => true
  | .prechargeAll => false
  | .dummy _ => false
  | .illegal _ => false

/-- The issued command, not yet accepted, is one that `M` takes as `P` did. -/
def busInv (s : State) (cmd : Command) : Prop :=
  s.sched.issued = true ∧ s.P = commit s.cfg s.cycle cmd s.M ∧
    (hasCommit cmd = true →
      operandFault s.cfg cmd = none ∧ constraint s.cfg s.M s.cycle (bankOf cmd).toNat (kindOf cmd) = .none)

/-- `P` mirrors `M` (10_state.md R26): equal between ticks, and inside a tick equal up to the commit of the command that
the module has yet to accept. -/
def mirrorInv (s : State) : Prop :=
  running s = true →
    match s.phase with
    | .betweenTicks => s.P = s.M
    | .policyRunning =>
      match s.sched.cmdBus with
      | none => s.P = s.M
      | some cmd => busInv s cmd

/-- A row is open exactly in the banks that are not `Idle` (42_physical_module.md R155). -/
def rowInv (s : State) : Prop :=
  ∀ b < s.cfg.NB, openRowAt s b = none ↔ (bankAt s.M b).status = .idle

/-- The autoprecharge flag is set in `Reading` and `Writing` banks only (41_bank_state_machine.md R135). -/
def flagInv (T : Timing) : Prop :=
  ∀ r ∈ T.banks, r.autoprecharge = true → r.status = .reading ∨ r.status = .writing

/-- While the last write's data is still to come, the bank of the last Write is `Writing` until it ends (42 R153). -/
def lastWriteInv (s : State) : Prop :=
  (∀ r ∈ s.M.banks, r.status = .writing → r.lastWriteEnd = r.endCycle) ∧
    (s.cycle < s.M.lastWrite.finish → ∃ r ∈ s.M.banks, r.status = .writing ∧ r.endCycle = s.M.lastWrite.finish)

/-- The queues are sorted with no two entries of one timestamp, none is late, none lies past the end of the last access
that could have made it, and no read burst is due in the tick of a write burst (42 R148, R150, R152). -/
def queueInv (s : State) : Prop :=
  s.phys.dataPins.Pairwise (fun x y => x.ts < y.ts) ∧ s.phys.readout.Pairwise (fun x y => x.ts < y.ts) ∧
    s.phys.readin.Pairwise (fun x y => x.ts < y.ts) ∧
    (∀ e ∈ s.phys.dataPins, s.cycle ≤ e.ts ∧ (e.ts < s.M.lastRead.finish ∨ e.ts < s.M.lastWrite.finish)) ∧
    (∀ e ∈ s.phys.readout, s.cycle ≤ e.ts ∧ e.ts ≤ s.M.lastRead.finish) ∧
    (∀ e ∈ s.phys.readin, s.cycle ≤ e.ts ∧ e.ts ≤ s.M.lastWrite.finish) ∧
    ∀ x ∈ s.phys.readout, ∀ y ∈ s.phys.readin, x.ts ≠ y.ts

/-- The bus keeps its order while the engine runs: the two invariants above, with a legal configuration. -/
def busOrderInv (s : State) : Prop :=
  cfgValid s.cfg = true ∧ (running s = true → lastWriteInv s ∧ queueInv s)

/-- A cycle number stored by a rule lies at most `2^33` past the present one (60_exceptions.md R232). -/
def nearCycle (c v : Nat) : Prop :=
  v ≤ c + 2 ^ 33

/-- Every cycle number of a timing state is near. -/
def timingNear (c : Nat) (T : Timing) : Prop :=
  (∀ r ∈ T.banks, nearCycle c r.endCycle ∧ nearCycle c r.lastWriteEnd) ∧
    nearCycle c T.lastActive.start ∧ nearCycle c T.lastActive.finish ∧ nearCycle c T.lastRead.start ∧
    nearCycle c T.lastRead.finish ∧ nearCycle c T.lastWrite.start ∧ nearCycle c T.lastWrite.finish

/-- No stored cycle number leaves its 64-bit register: `cycle` stops at `2^64 - 2^34`, and every other lies near it
(10_state.md R20, 60_exceptions.md R232). -/
def widthInv (s : State) : Prop :=
  cfgValid s.cfg = true ∧ s.cycle ≤ maxCycle ∧ timingNear s.cycle s.P ∧ timingNear s.cycle s.M ∧
    (∀ e ∈ s.phys.dataPins, nearCycle s.cycle e.ts) ∧ (∀ e ∈ s.phys.readout, nearCycle s.cycle e.ts) ∧
    ∀ e ∈ s.phys.readin, nearCycle s.cycle e.ts

/-- Annotations live inside one tick, and leave only beside a pin item (10_state.md R32, 42 R151). -/
def annotInv (s : State) : Prop :=
  (running s = true → s.phys.annot = none) ∧ (s.out.annotOut.isSome = true → s.out.pinsOut.isSome = true)

/-- Once a fatal is recorded the output registers read `valid = 0` (60_exceptions.md R220). -/
def haltedInv (s : State) : Prop :=
  s.fatal.flag = true → s.out = OutRegs.invalid

/-! ### What a step may do -/

/-- The next item of the port is a reset. -/
def resetNext (s : State) : Bool :=
  match s.env.port with
  | [] => false
  | .endTick :: _ => false
  | .op _ :: _ => false
  | .reset _ :: _ => true

/-- The edges of the bank state diagram (41 R120), "no change" among them. -/
def edge (x y : BankStatus) : Bool :=
  match x with
  | .idle => y = .idle ∨ y = .activating
  | .activating => y = .activating ∨ y = .active
  | .active => y = .active ∨ y = .reading ∨ y = .writing ∨ y = .precharging
  | .reading => y = .reading ∨ y = .writing ∨ y = .active ∨ y = .idle ∨ y = .precharging
  | .writing => y = .writing ∨ y = .active ∨ y = .precharging ∨ y = .idle
  | .precharging => y = .precharging ∨ y = .idle

/-! ### Frames -/

/-- Every bank record but that of bank `b`, and the number of banks, are as before. -/
def otherBanksKept (b : Nat) (T T' : Timing) : Prop :=
  T'.banks.length = T.banks.length ∧ ∀ b', b' ≠ b → bankAt T' b' = bankAt T b'

/-- Every byte of the bank arrays reads as before. -/
def memoryKept (s t : State) : Prop :=
  ∀ a, t.byteAt a = s.byteAt a

/-- Every byte outside the `n` words from column `c` of row `r` of bank `b` reads as before. -/
def memoryKeptOutside (s t : State) (b r c n : Nat) : Prop :=
  ∀ a, a < wordAddr b r c ∨ wordAddr b r c + 4 * n ≤ a → t.byteAt a = s.byteAt a

/-- What issuing a command leaves alone: everything but `P`, the statistics, the last command of its bank, and the
command slot of the tick. -/
def issueFrame (cmd : Command) (s t : State) : Prop :=
  t =
      { s with
        P := t.P
        sched :=
          { s.sched with
            issued := true, cmdBus := some cmd, lastCmdKind := t.sched.lastCmdKind, rowHits := t.sched.rowHits
            rowMisses := t.sched.rowMisses } } ∧
    (∀ b', b' ≠ (bankOf cmd).toNat → lastCmdAt t b' = lastCmdAt s b') ∧ memoryKept s t

/-- The state with a command in the slot of the tick and nothing else changed. -/
def withCommand (cmd : Command) (s : State) : State :=
  { s with sched := { s.sched with issued := true, cmdBus := some cmd } }

/-- The state with a fatal record written and the outputs invalid, nothing else changed (60_exceptions.md R220). -/
def withFatal (component : Component) (operation : Operation) (violated : Invariant) (detail : Nat) (s : State) :
    State :=
  { s with
    fatal :=
      { flag := true, component := component, operation := operation, violated := violated
        detail := BitVec.ofNat 64 detail }
    out := OutRegs.invalid }

/-- A tick with the policy running in which nothing stands in the way of its end: a state was published, no queue has a
late head, and the cycle number is not the last (44 R206, 42 R150, 60 R232). -/
def tickReady (s : State) : Prop :=
  running s = true ∧ s.phase = .policyRunning ∧ s.sched.published = true ∧ s.cycle ≠ maxCycle ∧
    (∀ e ∈ s.phys.dataPins, s.cycle ≤ e.ts) ∧ (∀ e ∈ s.phys.readout, s.cycle ≤ e.ts) ∧
    ∀ e ∈ s.phys.readin, s.cycle ≤ e.ts

end Sys2Proof.Machine
end

