-- ==== Sys2Proof/Certificates/Slice0/Obligations.lean ====
section
/-! DEFINITION. The statements for the provers. Each docstring names the rules of spec/ it rests on. -/

open Sys2Proof Sys2Proof.Machine

/-! ### Formats (30_encoding.md) -/

/-- Decoding the canonical encoding of a well-formed operation gives it back, every operand at every value. -/
def Obligations.DecodeOfEncode : Prop :=
  ∀ i : Instr, i.wellFormed = true → decode (encode i) = .ok i

/-- What the decoder gives is well formed. -/
def Obligations.DecodedIsWellFormed : Prop :=
  ∀ (p : PortWord) (i : Instr), decode p = .ok i → i.wellFormed = true

/-- Words written out in 95_test_vectors.md section 3 decode to the operations they stand for. -/
def Obligations.SpecWordsDecode : Prop :=
  decode (.cmd 0x0000000500000000 0) = .ok (.active 0 5) ∧
    decode (.cmd 0x0000000800000009 0) = .ok (.read 0 8 true) ∧
    decode (.cmd 0x0000000000020003 0) = .ok (.precharge 2) ∧
    decode (.cmd 0x0000000000000013 0) = .ok .prechargeAll ∧
    decode (.cmd 0x00000000000000E4 0) = .ok (.dummy 7) ∧
    decode (.cmd 0x0000000000000006 0) = .ok .illegalKind6 ∧
    decode (.qry 0x00010001) = .ok (.constraintFor 1 1) ∧
    decode (.sst 4 0xB4) = .ok (.publishState [.acceptBoth, .acceptRead, .acceptNone, .acceptWrite])

/-- R74, R90: a CMD word always decodes, and the fields its kind does not have do not matter. -/
def Obligations.FieldsAKindLacksAreIgnored : Prop :=
  ∀ (w w' : BitVec 64) (burst burst' : BitVec 1158),
    let kind := (w.extractLsb' 0 3).toNat
    w.extractLsb' 0 3 = w'.extractLsb' 0 3 →
    ((kind = 1 ∨ kind = 2) → w.extractLsb' 3 1 = w'.extractLsb' 3 1) →
    (kind = 3 → w.extractLsb' 4 1 = w'.extractLsb' 4 1) →
    (kind = 4 → w.extractLsb' 5 5 = w'.extractLsb' 5 5) →
    (kind ≤ 2 ∨ kind = 3 ∧ w.extractLsb' 4 1 = 0#1 → w.extractLsb' 16 16 = w'.extractLsb' 16 16) →
    (kind ≤ 2 → w.extractLsb' 32 32 = w'.extractLsb' 32 32) →
    (kind = 2 → burst = burst') →
    decode (.cmd w burst) = decode (.cmd w' burst') ∧ ∃ i, decode (.cmd w burst) = .ok i

/-! ### Steps -/

/-- A step runs the decoded operation: the item is consumed, the engine is brought to the phase of the operation, and
`exec` performs it: a raw operation between ticks (43 R180), every other one as the policy's, in a tick that S1 and S2
have opened (00 R12). The model's own in this: the port and its items (log entry 6, DESIGN CHOICE), that the answers of
the operation before are gone from their ports (log entry 7, DESIGN CHOICE), that a raw word first completes the tick
under way (log entry 9, DEDUCED), and that a word which does not decode is refused (log entry 12, DESIGN CHOICE). -/
def Obligations.StepRunsDecoded : Prop :=
  ∀ (s : State) (w : PortWord) (rest : List PortItem), s.env.port = .op w :: rest →
    let s' : State := { s with env := { s.env with port := rest, qryOut := none, rawOut := none, splitOut := none } }
    (∀ i, decode w = .ok i → isRaw i = true → step s = exec i (closeTick s')) ∧
      (∀ i, decode w = .ok i → isRaw i = false → step s = exec i (openTick s')) ∧
      (∀ e, decode w = .error e → step s = .refused (.portWord e)) ∧
      (s.phase = .policyRunning → openTick s' = s') ∧
      (s.phase = .betweenTicks → closeTick s' = s') ∧
      (s.phase = .betweenTicks → running s = true → openTick s' = startTick s') ∧
      (s.phase = .policyRunning → running s = true → closeTick s' = completeTick s')

/-- At a tick boundary, and with nothing on the port, the clock runs on to the end of a tick (00 R12). The port and the
answers that go from theirs are the model's own (log entries 6 and 7, DESIGN CHOICE). -/
def Obligations.StepAtTickBoundary : Prop :=
  ∀ (s : State) (rest : List PortItem), (s.env.port = .endTick :: rest ∨ s.env.port = [] ∧ rest = []) →
    step s =
      .next
        (closeTick
          (openTick { s with env := { s.env with port := rest, qryOut := none, rawOut := none, splitOut := none } }))

/-! ### Constraints (40_timing_constraint_checker.md) -/

/-- R101, R103, R105, R107, R111: the tests of each kind in their order, the first that holds giving the answer. -/
def Obligations.ConstraintTables : Prop :=
  ∀ (cfg : Cfg) (T : Timing) (c b : Nat),
    let r := bankAt T b
    let early := c < T.lastActive.start + cfg.lat.tRRD;
    ((r.status = .precharging → constraint cfg T c b .active = .preToAct) ∧
      (r.status ≠ .precharging → early → constraint cfg T c b .active = .actToAct) ∧
      (r.status ≠ .precharging → ¬ early → r.status ≠ .idle → constraint cfg T c b .active = .actWithOpenRow) ∧
      (¬ early → r.status = .idle → constraint cfg T c b .active = .none)) ∧
    (let busy := c + cfg.lat.CAS < T.lastRead.finish ∨ ∃ b' < T.banks.length, (bankAt T b').status = .writing;
      (busy → constraint cfg T c b .read = .dataBusConflict) ∧
      (¬ busy → r.status = .activating → constraint cfg T c b .read = .actToRead) ∧
      (¬ busy → r.status = .idle ∨ r.status = .precharging → constraint cfg T c b .read = .noActWithRead) ∧
      (¬ busy → r.status = .active ∨ r.status = .reading →
        (r.autoprecharge = true → constraint cfg T c b .read = .autoprechargeRead) ∧
        (r.autoprecharge = false → c < T.lastWrite.finish + cfg.lat.tWTR →
          constraint cfg T c b .read = .writeToRead) ∧
        (r.autoprecharge = false → T.lastWrite.finish + cfg.lat.tWTR ≤ c → constraint cfg T c b .read = .none))) ∧
    (let busy := c + cfg.lat.WL < T.lastWrite.finish ∨ c + cfg.lat.WL < T.lastRead.finish
      let turning := c + cfg.lat.WL < T.lastRead.finish + cfg.lat.tRTW;
      (busy → constraint cfg T c b .write = .dataBusConflict) ∧
      (¬ busy → turning → constraint cfg T c b .write = .readToWrite) ∧
      (¬ busy → ¬ turning → r.status = .activating → constraint cfg T c b .write = .actToWrite) ∧
      (¬ busy → ¬ turning → r.status = .idle ∨ r.status = .precharging →
        constraint cfg T c b .write = .noActWithWrite) ∧
      (¬ busy → ¬ turning → r.status = .active ∨ r.status = .reading ∨ r.status = .writing →
        (r.autoprecharge = true → constraint cfg T c b .write = .autoprechargeWrite) ∧
        (r.autoprecharge = false → constraint cfg T c b .write = .none))) ∧
    (let recovering := c < r.lastWriteEnd + cfg.lat.tWR;
      (recovering → constraint cfg T c b .precharge = .writeToPre) ∧
      (¬ recovering → r.status = .activating → constraint cfg T c b .precharge = .actToPre) ∧
      (¬ recovering → r.status = .reading → c + cfg.lat.tRP < r.endCycle →
        constraint cfg T c b .precharge = .readToPre) ∧
      (¬ recovering → r.status ≠ .activating → (r.status = .reading → r.endCycle ≤ c + cfg.lat.tRP) →
        constraint cfg T c b .precharge = .none))

/-- R109, R110, R113: Dummy has no constraint and no commit, `Unknown` is the answer for a reserved kind and for nothing
else, and `canIssue` is the query's answer compared with `None`. -/
def Obligations.OtherKindsAndCanIssue : Prop :=
  ∀ (cfg : Cfg) (T : Timing) (c b : Nat),
    constraint cfg T c b .dummy = .none ∧ (∀ k : BitVec 5, commit cfg c (.dummy k) T = T) ∧
      (∀ k : BitVec 3, constraint cfg T c b (CmdKind.ofCode k) = .unknown ↔ 5 ≤ k.toNat) ∧
      ∀ kind : CmdKind, canIssue cfg T c b kind = true ↔ constraint cfg T c b kind = .none

/-- CONSTRAINT_FOR completes for every bank in range: it answers from `P` and changes nothing else (R112). `answers` is
the model's own note of what the policy was told (log entry 7). -/
def Obligations.QueryCompletes : Prop :=
  ∀ (s : State) (kind : BitVec 3) (bank : BitVec 16), running s = true → bank.toNat < s.cfg.NB →
    ∃ t, exec (.constraintFor kind bank) s = .next t ∧
      t.env.qryOut = some (constraint s.cfg s.P s.cycle bank.toNat (CmdKind.ofCode kind)).code ∧
      t = { s with sched := { s.sched with answers := t.sched.answers }, env := { s.env with qryOut := t.env.qryOut } } ∧
      memoryKept s t

/-! ### Passive transitions (41_bank_state_machine.md) -/

/-- R130, on both copies, the row marker with it. -/
def Obligations.PassiveFromReading : Prop :=
  ∀ (s : State) (b : Nat) (r : BankRec), bankAt s.M b = r → r.status = .reading →
    let t := phaseS1 s
    (s.cycle < r.endCycle → bankAt t.M b = r ∧ openRowAt t b = openRowAt s b) ∧
    (r.endCycle ≤ s.cycle → r.autoprecharge = false →
      bankAt t.M b = { r with status := .active } ∧ openRowAt t b = openRowAt s b) ∧
    (r.endCycle ≤ s.cycle → r.autoprecharge = true → s.cfg.lat.tRP + 1 ≤ s.cfg.lat.CAS + btt s.cfg →
      bankAt t.M b = { r with status := .idle, autoprecharge := false } ∧ openRowAt t b = none) ∧
    (r.endCycle ≤ s.cycle → r.autoprecharge = true → s.cfg.lat.CAS + btt s.cfg < s.cfg.lat.tRP + 1 →
      bankAt t.M b =
        { r with
          status := .precharging, autoprecharge := false
          endCycle := r.endCycle + (s.cfg.lat.tRP + 1 - s.cfg.lat.CAS - btt s.cfg) } ∧
        openRowAt t b = openRowAt s b) ∧
    (bankAt s.P b = r → bankAt t.P b = bankAt t.M b)

/-- R131, on both copies, the row marker with it. -/
def Obligations.PassiveFromWriting : Prop :=
  ∀ (s : State) (b : Nat) (r : BankRec), bankAt s.M b = r → r.status = .writing →
    let t := phaseS1 s
    (s.cycle < r.endCycle → bankAt t.M b = r ∧ openRowAt t b = openRowAt s b) ∧
    (r.endCycle ≤ s.cycle → r.autoprecharge = false →
      bankAt t.M b = { r with status := .active } ∧ openRowAt t b = openRowAt s b) ∧
    (r.endCycle ≤ s.cycle → r.autoprecharge = true → s.cfg.lat.tWR + s.cfg.lat.tRP = 0 →
      bankAt t.M b = { r with status := .idle, autoprecharge := false } ∧ openRowAt t b = none) ∧
    (r.endCycle ≤ s.cycle → r.autoprecharge = true → 0 < s.cfg.lat.tWR + s.cfg.lat.tRP →
      bankAt t.M b =
        { r with
          status := .precharging, autoprecharge := false
          endCycle := r.endCycle + s.cfg.lat.tWR + s.cfg.lat.tRP } ∧
        openRowAt t b = openRowAt s b) ∧
    (bankAt s.P b = r → bankAt t.P b = bankAt t.M b)

/-- R129, R132, on both copies, the row marker with it: `Activating` and `Precharging` end at `endCycle`; `Idle` and
`Active` have no passive transition (R133); nothing but bank records and row markers changes in S1. -/
def Obligations.PassiveFromOtherStates : Prop :=
  ∀ (s : State) (b : Nat) (r : BankRec), bankAt s.M b = r →
    let t := phaseS1 s
    (r.status = .activating → r.endCycle ≤ s.cycle →
      bankAt t.M b = { r with status := .active } ∧ openRowAt t b = openRowAt s b) ∧
    (r.status = .precharging → r.endCycle ≤ s.cycle →
      bankAt t.M b = { r with status := .idle } ∧ openRowAt t b = none) ∧
    (r.status = .activating ∨ r.status = .precharging → s.cycle < r.endCycle →
      bankAt t.M b = r ∧ openRowAt t b = openRowAt s b) ∧
    (r.status = .idle ∨ r.status = .active → bankAt t.M b = r ∧ openRowAt t b = openRowAt s b) ∧
    (bankAt s.P b = r → bankAt t.P b = bankAt t.M b) ∧ t.P = { s.P with banks := t.P.banks } ∧
    t.M = { s.M with banks := t.M.banks } ∧
    t = { s with P := t.P, M := t.M, phys := { s.phys with openRow := t.phys.openRow } }

/-- R120: no step but a reset moves a bank of `M` along an edge that is not in the diagram. -/
def Obligations.BanksFollowTheDiagram : Prop :=
  ∀ (s t : State), resetNext s = false → step s = .next t →
    ∀ b, edge (bankAt s.M b).status (bankAt t.M b).status = true

/-! ### Issuing commands (44_command_sequencer_scheduler.md R195) -/

/-- ACTIVE completes in a bank that is `Idle` once tRRD has passed: the commit of 41 R124 on `P`, the last command of the
bank, the command on its way to the module, and nothing else. -/
def Obligations.ActiveIssues : Prop :=
  ∀ (s : State) (b : BitVec 16) (row : BitVec 32), shapeInv s → running s = true → s.sched.issued = false →
    b.toNat < s.cfg.NB → row.toNat < s.cfg.NR → (bankAt s.P b.toNat).status = .idle →
    s.P.lastActive.start + s.cfg.lat.tRRD ≤ s.cycle →
    ∃ t, exec (.active b row) s = .next t ∧ issueFrame (.active b row) s t ∧ otherBanksKept b.toNat s.P t.P ∧
      bankAt t.P b.toNat =
        { bankAt s.P b.toNat with
          status := .activating, endCycle := s.cycle + s.cfg.lat.tRCD, autoprecharge := false } ∧
      t.P.lastActive = { bank := b, start := s.cycle, finish := s.cycle + s.cfg.lat.tRCD } ∧
      t.P.lastRead = s.P.lastRead ∧ t.P.lastWrite = s.P.lastWrite ∧ lastCmdAt t b.toNat = .active ∧
      t.sched.rowHits = s.sched.rowHits ∧ t.sched.rowMisses = s.sched.rowMisses

/-- READ completes under the conditions of R116: the commit of 41 R125 on `P`, the statistics of R197, and nothing else. -/
def Obligations.ReadIssues : Prop :=
  ∀ (s : State) (b : BitVec 16) (col : BitVec 32) (ap : Bool), shapeInv s → running s = true →
    s.sched.issued = false → b.toNat < s.cfg.NB → col.toNat + s.cfg.BL ≤ s.cfg.NC →
    ((bankAt s.P b.toNat).status = .active ∨ (bankAt s.P b.toNat).status = .reading) →
    (bankAt s.P b.toNat).autoprecharge = false → (∀ b' < s.cfg.NB, (bankAt s.P b').status ≠ .writing) →
    s.P.lastRead.finish ≤ s.cycle + s.cfg.lat.CAS → s.P.lastWrite.finish + s.cfg.lat.tWTR ≤ s.cycle →
    ∃ t, exec (.read b col ap) s = .next t ∧ issueFrame (.read b col ap) s t ∧ otherBanksKept b.toNat s.P t.P ∧
      bankAt t.P b.toNat =
        { bankAt s.P b.toNat with
          status := .reading, endCycle := s.cycle + s.cfg.lat.CAS + btt s.cfg, autoprecharge := ap } ∧
      t.P.lastRead = { bank := b, start := s.cycle, finish := s.cycle + s.cfg.lat.CAS + btt s.cfg } ∧
      t.P.lastActive = s.P.lastActive ∧ t.P.lastWrite = s.P.lastWrite ∧ lastCmdAt t b.toNat = .read ∧
      if lastCmdAt s b.toNat = .read ∨ lastCmdAt s b.toNat = .write then
        t.sched.rowHits = s.sched.rowHits + 1 ∧ t.sched.rowMisses = s.sched.rowMisses
      else t.sched.rowHits = s.sched.rowHits ∧ t.sched.rowMisses = s.sched.rowMisses + 1

/-- WRITE completes under the conditions of R116 with a burst of `BL` words: the commit of 41 R126 on `P`, the
statistics of R197, and nothing else. -/
def Obligations.WriteIssues : Prop :=
  ∀ (s : State) (b : BitVec 16) (col : BitVec 32) (burst : Burst) (ap : Bool), shapeInv s → running s = true →
    s.sched.issued = false → b.toNat < s.cfg.NB → col.toNat + s.cfg.BL ≤ s.cfg.NC → burst.len.toNat = s.cfg.BL →
    ((bankAt s.P b.toNat).status = .active ∨ (bankAt s.P b.toNat).status = .reading ∨
      (bankAt s.P b.toNat).status = .writing) →
    (bankAt s.P b.toNat).autoprecharge = false → s.P.lastWrite.finish ≤ s.cycle + s.cfg.lat.WL →
    s.P.lastRead.finish + s.cfg.lat.tRTW ≤ s.cycle + s.cfg.lat.WL →
    ∃ t, exec (.write b col burst ap) s = .next t ∧ issueFrame (.write b col burst ap) s t ∧
      otherBanksKept b.toNat s.P t.P ∧
      bankAt t.P b.toNat =
        { status := .writing, endCycle := s.cycle + s.cfg.lat.WL + btt s.cfg
          lastWriteEnd := s.cycle + s.cfg.lat.WL + btt s.cfg, autoprecharge := ap } ∧
      t.P.lastWrite = { bank := b, start := s.cycle, finish := s.cycle + s.cfg.lat.WL + btt s.cfg } ∧
      t.P.lastActive = s.P.lastActive ∧ t.P.lastRead = s.P.lastRead ∧ lastCmdAt t b.toNat = .write ∧
      if lastCmdAt s b.toNat = .read ∨ lastCmdAt s b.toNat = .write then
        t.sched.rowHits = s.sched.rowHits + 1 ∧ t.sched.rowMisses = s.sched.rowMisses
      else t.sched.rowHits = s.sched.rowHits ∧ t.sched.rowMisses = s.sched.rowMisses + 1

/-- PRECHARGE completes where its constraint is `None` (R116): the commit of 41 R127 on `P`, a no-op in an `Idle` or
`Precharging` bank, and the bookkeeping of the helper either way. -/
def Obligations.PrechargeIssues : Prop :=
  ∀ (s : State) (b : BitVec 16), shapeInv s → running s = true → s.sched.issued = false → b.toNat < s.cfg.NB →
    (bankAt s.P b.toNat).lastWriteEnd + s.cfg.lat.tWR ≤ s.cycle → (bankAt s.P b.toNat).status ≠ .activating →
    ((bankAt s.P b.toNat).status = .reading → (bankAt s.P b.toNat).endCycle ≤ s.cycle + s.cfg.lat.tRP) →
    ∃ t, exec (.precharge b) s = .next t ∧ issueFrame (.precharge b) s t ∧ lastCmdAt t b.toNat = .precharge ∧
      t.sched.rowHits = s.sched.rowHits ∧ t.sched.rowMisses = s.sched.rowMisses ∧
      ((bankAt s.P b.toNat).status = .idle ∨ (bankAt s.P b.toNat).status = .precharging → t.P = s.P) ∧
      ((bankAt s.P b.toNat).status = .active ∨ (bankAt s.P b.toNat).status = .reading →
        otherBanksKept b.toNat s.P t.P ∧ t.P.lastActive = s.P.lastActive ∧ t.P.lastRead = s.P.lastRead ∧
          t.P.lastWrite = s.P.lastWrite ∧
          bankAt t.P b.toNat =
            { bankAt s.P b.toNat with
              status := .precharging, endCycle := s.cycle + s.cfg.lat.tRP, autoprecharge := false })

/-- DUMMY completes in every tick whose command slot is free, and touches neither `P` nor the statistics (R198). -/
def Obligations.DummyIssues : Prop :=
  ∀ (s : State) (k : BitVec 5), running s = true → s.sched.issued = false →
    ∃ t, exec (.dummy k) s = .next t ∧ t = withCommand (.dummy k) s ∧ memoryKept s t

/-- PRECHARGE_ALL takes its fatal: the command goes to the module unchecked, and when the policy returns the module
raises PrechargeAllUnsupported and the tick stops; no bank, queue or byte of memory changes (44 R195, 42 R141, 60 R228),
and `cycle` stays (60 R220; the codes are R222's). That the outputs are invalid from the raise on is the model's reading of
R220 (log entry 8, DEDUCED). -/
def Obligations.PrechargeAllIsFatal : Prop :=
  ∀ (s : State), running s = true → s.sched.issued = false → s.phase = .policyRunning →
    ∃ t, exec .prechargeAll s = .next t ∧ t = withCommand .prechargeAll s ∧
      fatalCodes (closeTick t).fatal = (1, 1, 5, 7, 0) ∧ (closeTick t).P = s.P ∧ (closeTick t).M = s.M ∧
      (closeTick t).phys = s.phys ∧ (closeTick t).cycle = s.cycle ∧ (closeTick t).out = OutRegs.invalid

/-- The reserved kinds take their fatal the same way: UnknownCommand with the kind as its detail (44 R195, 42 R141, 60 R230;
the codes are R222's). That the outputs are invalid from the raise on is the model's reading of R220 (log entry 8,
DEDUCED). -/
def Obligations.ReservedKindsAreFatal : Prop :=
  ∀ (s : State) (i : Instr) (k : BitVec 3), running s = true → s.sched.issued = false → s.phase = .policyRunning →
    (i = .illegalKind5 ∧ k = 5 ∨ i = .illegalKind6 ∧ k = 6 ∨ i = .illegalKind7 ∧ k = 7) →
    ∃ t, exec i s = .next t ∧ t = withCommand (.illegal k) s ∧
      fatalCodes (closeTick t).fatal = (1, 1, 5, 9, k.toNat) ∧ (closeTick t).P = s.P ∧ (closeTick t).M = s.M ∧
      (closeTick t).phys = s.phys ∧ (closeTick t).cycle = s.cycle ∧ (closeTick t).out = OutRegs.invalid

/-- R238: a second issue in one tick is fatal, by whatever helper, Dummy included, and has no other effect but that of the
raise (60 R220). That the outputs are invalid from the raise on is the model's reading of it (log entry 8, DEDUCED). -/
def Obligations.SecondCommandIsFatal : Prop :=
  ∀ (s : State) (i : Instr), running s = true → s.sched.issued = true →
    ((∃ b r, i = .active b r) ∨ (∃ b c ap, i = .read b c ap) ∨ (∃ b c u ap, i = .write b c u ap) ∨
      (∃ b, i = .precharge b) ∨ i = .prechargeAll ∨ (∃ k, i = .dummy k) ∨ i = .illegalKind5 ∨ i = .illegalKind6 ∨
      i = .illegalKind7) →
    exec i s = .next (withFatal .scheduler .issue .secondCommandInTick 0 s)

/-- Step 2 of the helpers (R195, R227, R229): an operand out of range is fatal, bank before row or column before burst
length, and nothing else happens but what the raise does (60 R220). That the outputs are invalid from the raise on is the
model's reading of it (log entry 8, DEDUCED). -/
def Obligations.OperandOutOfRangeIsFatal : Prop :=
  ∀ (s : State) (b : BitVec 16) (x : BitVec 32) (burst : Burst) (ap : Bool), running s = true →
    s.sched.issued = false →
    (s.cfg.NB ≤ b.toNat →
      exec (.active b x) s = .next (withFatal .scheduler .issue .outOfRange b.toNat s) ∧
      exec (.read b x ap) s = .next (withFatal .scheduler .issue .outOfRange b.toNat s) ∧
      exec (.write b x burst ap) s = .next (withFatal .scheduler .issue .outOfRange b.toNat s) ∧
      exec (.precharge b) s = .next (withFatal .scheduler .issue .outOfRange b.toNat s)) ∧
    (b.toNat < s.cfg.NB → s.cfg.NR ≤ x.toNat →
      exec (.active b x) s = .next (withFatal .scheduler .issue .outOfRange x.toNat s)) ∧
    (b.toNat < s.cfg.NB → s.cfg.NC < x.toNat + s.cfg.BL →
      exec (.read b x ap) s = .next (withFatal .scheduler .issue .outOfRange x.toNat s) ∧
      exec (.write b x burst ap) s = .next (withFatal .scheduler .issue .outOfRange x.toNat s)) ∧
    (b.toNat < s.cfg.NB → x.toNat + s.cfg.BL ≤ s.cfg.NC → burst.len.toNat ≠ s.cfg.BL →
      exec (.write b x burst ap) s = .next (withFatal .scheduler .issue .burstLength burst.len.toNat s))

/-- Step 3 of the helpers (41 R123, 60 R225): a command whose constraint on `P` is not `None` is fatal with that
constraint as the detail, and nothing else happens but what the raise does (60 R220). That the outputs are invalid from
the raise on is the model's reading of it (log entry 8, DEDUCED). -/
def Obligations.ViolatedConstraintIsFatal : Prop :=
  ∀ (s : State) (b : BitVec 16) (x : BitVec 32) (burst : Burst) (ap : Bool), running s = true →
    s.sched.issued = false → b.toNat < s.cfg.NB →
    (∀ k, constraint s.cfg s.P s.cycle b.toNat .active = k → k ≠ .none → x.toNat < s.cfg.NR →
      exec (.active b x) s = .next (withFatal .predictive .postActive .constraintViolated k.code.toNat s)) ∧
    (∀ k, constraint s.cfg s.P s.cycle b.toNat .read = k → k ≠ .none → x.toNat + s.cfg.BL ≤ s.cfg.NC →
      exec (.read b x ap) s = .next (withFatal .predictive .postRead .constraintViolated k.code.toNat s)) ∧
    (∀ k, constraint s.cfg s.P s.cycle b.toNat .write = k → k ≠ .none → x.toNat + s.cfg.BL ≤ s.cfg.NC →
      burst.len.toNat = s.cfg.BL →
      exec (.write b x burst ap) s = .next (withFatal .predictive .postWrite .constraintViolated k.code.toNat s)) ∧
    ∀ k, constraint s.cfg s.P s.cycle b.toNat .precharge = k → k ≠ .none →
      exec (.precharge b) s = .next (withFatal .predictive .postPrecharge .constraintViolated k.code.toNat s)

/-! ### Acceptance by the module (42_physical_module.md) -/

/-- R143: an accepted Active commits on `M` and opens the row. -/
def Obligations.ModuleAcceptsActive : Prop :=
  ∀ (s : State) (b : BitVec 16) (row : BitVec 32), shapeInv s → s.sched.cmdBus = some (.active b row) →
    b.toNat < s.cfg.NB → row.toNat < s.cfg.NR → constraint s.cfg s.M s.cycle b.toNat .active = .none →
    let t := acceptBus s
    t = { s with M := t.M, phys := { s.phys with openRow := t.phys.openRow } } ∧ otherBanksKept b.toNat s.M t.M ∧
      bankAt t.M b.toNat =
        { bankAt s.M b.toNat with
          status := .activating, endCycle := s.cycle + s.cfg.lat.tRCD, autoprecharge := false } ∧
      t.M.lastActive = { bank := b, start := s.cycle, finish := s.cycle + s.cfg.lat.tRCD } ∧
      t.M.lastRead = s.M.lastRead ∧ t.M.lastWrite = s.M.lastWrite ∧ openRowAt t b.toNat = some row ∧
      ∀ b', b' ≠ b.toNat → openRowAt t b' = openRowAt s b'

/-- R144: an accepted Read samples `BL` words of the open row now, puts its beats on the pins at `c + CAS + i` and its
burst in `readout` at `c + CAS + BTT`; no byte of memory changes. That a beat's `kind` field, which has no meaning with
this tag (30 R86), holds 0 is the model's choice (log entry 26, DESIGN CHOICE). -/
def Obligations.ModuleAcceptsRead : Prop :=
  ∀ (s : State) (b : BitVec 16) (col row : BitVec 32) (ap : Bool), shapeInv s →
    s.sched.cmdBus = some (.read b col ap) → b.toNat < s.cfg.NB → col.toNat + s.cfg.BL ≤ s.cfg.NC →
    constraint s.cfg s.M s.cycle b.toNat .read = .none → openRowAt s b.toNat = some row →
    let t := acceptBus s
    t =
        { s with
          M := t.M
          phys :=
            { s.phys with
              dataPins :=
                s.phys.dataPins ++
                  (List.range (btt s.cfg)).map fun i =>
                    { ts := s.cycle + s.cfg.lat.CAS + i, dpi := { tag := .read, kind := 0 } }
              readout :=
                s.phys.readout ++
                  [{ ts := s.cycle + s.cfg.lat.CAS + btt s.cfg
                     burst :=
                       { len := BitVec.ofNat 6 s.cfg.BL
                         slots :=
                           (List.range s.cfg.BL).map fun i =>
                             { word := s.wordAt b.toNat row.toNat (col.toNat + i), mask := 0xF } } }] } } ∧
      otherBanksKept b.toNat s.M t.M ∧
      bankAt t.M b.toNat =
        { bankAt s.M b.toNat with
          status := .reading, endCycle := s.cycle + s.cfg.lat.CAS + btt s.cfg, autoprecharge := ap } ∧
      t.M.lastRead = { bank := b, start := s.cycle, finish := s.cycle + s.cfg.lat.CAS + btt s.cfg } ∧
      t.M.lastActive = s.M.lastActive ∧ t.M.lastWrite = s.M.lastWrite ∧ memoryKept s t

/-- R145: an accepted Write merges its words into the open row now, puts its beats on the pins at `c + WL + i` and its
burst in `readin` at `c + WL + BTT`; every byte whose mask bit is 0, and every byte outside its words, is as before. That
a beat's `kind` field, which has no meaning with this tag (30 R86), holds 0 is the model's choice (log entry 26,
DESIGN CHOICE). -/
def Obligations.ModuleAcceptsWrite : Prop :=
  ∀ (s : State) (b : BitVec 16) (col row : BitVec 32) (burst : Burst) (ap : Bool), shapeInv s → memoryInv s →
    s.sched.cmdBus = some (.write b col burst ap) → b.toNat < s.cfg.NB → col.toNat + s.cfg.BL ≤ s.cfg.NC →
    burst.wellFormed = true → burst.len.toNat = s.cfg.BL →
    constraint s.cfg s.M s.cycle b.toNat .write = .none → openRowAt s b.toNat = some row →
    let t := acceptBus s
    t =
        { s with
          M := t.M
          phys :=
            { s.phys with
              mem := t.phys.mem
              dataPins :=
                s.phys.dataPins ++
                  (List.range (btt s.cfg)).map fun i =>
                    { ts := s.cycle + s.cfg.lat.WL + i, dpi := { tag := .write, kind := 0 } }
              readin := s.phys.readin ++ [{ ts := s.cycle + s.cfg.lat.WL + btt s.cfg, burst := burst }] } } ∧
      otherBanksKept b.toNat s.M t.M ∧
      bankAt t.M b.toNat =
        { status := .writing, endCycle := s.cycle + s.cfg.lat.WL + btt s.cfg
          lastWriteEnd := s.cycle + s.cfg.lat.WL + btt s.cfg, autoprecharge := ap } ∧
      t.M.lastWrite = { bank := b, start := s.cycle, finish := s.cycle + s.cfg.lat.WL + btt s.cfg } ∧
      t.M.lastActive = s.M.lastActive ∧ t.M.lastRead = s.M.lastRead ∧
      memoryKeptOutside s t b.toNat row.toNat col.toNat s.cfg.BL ∧
      ∀ (i : Nat) (slot : Slot), burst.slots[i]? = some slot → ∀ j < 4,
        t.byteAt (wordAddr b.toNat row.toNat (col.toNat + i) + j) =
          if slot.mask.getLsbD j then byteOf slot.word j
          else s.byteAt (wordAddr b.toNat row.toNat (col.toNat + i) + j)

/-- R146: an accepted Precharge commits on `M` and leaves rows, queues and memory alone. -/
def Obligations.ModuleAcceptsPrecharge : Prop :=
  ∀ (s : State) (b : BitVec 16), shapeInv s → s.sched.cmdBus = some (.precharge b) → b.toNat < s.cfg.NB →
    constraint s.cfg s.M s.cycle b.toNat .precharge = .none →
    let t := acceptBus s
    t = { s with M := t.M } ∧
      ((bankAt s.M b.toNat).status = .idle ∨ (bankAt s.M b.toNat).status = .precharging → t = s) ∧
      ((bankAt s.M b.toNat).status = .active ∨ (bankAt s.M b.toNat).status = .reading →
        otherBanksKept b.toNat s.M t.M ∧ t.M.lastActive = s.M.lastActive ∧ t.M.lastRead = s.M.lastRead ∧
          t.M.lastWrite = s.M.lastWrite ∧
          bankAt t.M b.toNat =
            { bankAt s.M b.toNat with
              status := .precharging, endCycle := s.cycle + s.cfg.lat.tRP, autoprecharge := false })

/-- R147, R149, R151: an accepted Dummy leaves as an annotation in the tick's S4 exactly when a beat is on the pins in
this tick, and changes no bank, row, byte or queue but for the drain. -/
def Obligations.DummyAnnotatesABusyBus : Prop :=
  ∀ (s : State) (k : BitVec 5), tickReady s → s.phys.annot = none → s.sched.cmdBus = some (.dummy k) →
    let t := closeTick s
    t.M = s.M ∧ t.P = s.P ∧ t.phys.openRow = s.phys.openRow ∧ memoryKept s t ∧ t.phys.annot = none ∧
      ((∃ e rest, s.phys.dataPins = e :: rest ∧ e.ts = s.cycle) →
        t.out.annotOut = some { tag := .protocolConstraint, kind := k }) ∧
      ((∀ e rest, s.phys.dataPins = e :: rest → e.ts ≠ s.cycle) → t.out.annotOut = none)

/-- R141 steps 5 to 8, and R233: the module refuses a command with an operand out of range, bank before row or column
before burst length, then one that its own copy of the timing state forbids, and then a Read or Write in a bank with no
row open, each with its fatal and no other effect but that of the raise (60 R220). That the outputs are invalid from the
raise on is the model's reading of it (log entry 8, DEDUCED). -/
def Obligations.ModuleRefusesAViolation : Prop :=
  (∀ (s : State) (b : BitVec 16) (x : BitVec 32) (burst : Burst) (ap : Bool), s.fatal.flag = false →
    (s.sched.cmdBus = some (.active b x) ∨ s.sched.cmdBus = some (.read b x ap) ∨
        s.sched.cmdBus = some (.write b x burst ap) ∨ s.sched.cmdBus = some (.precharge b) →
      s.cfg.NB ≤ b.toNat → acceptBus s = withFatal .physical .accept .outOfRange b.toNat s) ∧
    (s.sched.cmdBus = some (.active b x) → b.toNat < s.cfg.NB → s.cfg.NR ≤ x.toNat →
      acceptBus s = withFatal .physical .accept .outOfRange x.toNat s) ∧
    (s.sched.cmdBus = some (.read b x ap) ∨ s.sched.cmdBus = some (.write b x burst ap) → b.toNat < s.cfg.NB →
      s.cfg.NC < x.toNat + s.cfg.BL → acceptBus s = withFatal .physical .accept .outOfRange x.toNat s) ∧
    (s.sched.cmdBus = some (.write b x burst ap) → b.toNat < s.cfg.NB → x.toNat + s.cfg.BL ≤ s.cfg.NC →
      burst.len.toNat ≠ s.cfg.BL → acceptBus s = withFatal .physical .accept .burstLength burst.len.toNat s) ∧
    (s.sched.cmdBus = some (.read b x ap) → b.toNat < s.cfg.NB → x.toNat + s.cfg.BL ≤ s.cfg.NC →
      constraint s.cfg s.M s.cycle b.toNat .read = .none → openRowAt s b.toNat = none →
      acceptBus s = withFatal .bank .access .noActiveRow b.toNat s) ∧
    (s.sched.cmdBus = some (.write b x burst ap) → b.toNat < s.cfg.NB → x.toNat + s.cfg.BL ≤ s.cfg.NC →
      burst.len.toNat = s.cfg.BL → constraint s.cfg s.M s.cycle b.toNat .write = .none →
      openRowAt s b.toNat = none → acceptBus s = withFatal .bank .access .noActiveRow b.toNat s)) ∧
  ∀ (s : State) (cmd : Command) (k : Constraint), s.fatal.flag = false → s.sched.cmdBus = some cmd →
    hasCommit cmd = true → operandFault s.cfg cmd = none →
    constraint s.cfg s.M s.cycle (bankOf cmd).toNat (kindOf cmd) = k → k ≠ .none →
    acceptBus s = withFatal .physical .accept .constraintViolated k.code.toNat s

/-! ### The tick (00_scope.md R12) -/

/-- S1 and S2 of a tick (00 R12, 10 R32, R33, 44 R191): the per-tick values are cleared, the passive transitions run on both
copies at the tick's cycle number, one entry of the transaction port is taken, the transaction hook runs before the
reply hook, and the completion is kept for S4. Memory, queues, statistics and outputs stay, and the policy runs next.
`txnPort`, `answers`, `phase` and the values between S2 and S4 are the model's fields (log entries 4, 6, 7); that the
hooks are given the configuration is how the model lets it select POLICY (log entry 13). -/
def Obligations.TickOpens : Prop :=
  ∀ (s : State), running s = true → s.phase = .betweenTicks →
    let t := openTick s
    let told :=
      match s.env.txnPort.head?.join with
      | none => s.sched.policyState
      | some txn => Config.onRequestReceived s.cfg s.sched.policyState txn
    t =
        { s with
          phase := .policyRunning
          P := (phaseS1 s).P
          M := (phaseS1 s).M
          phys := { s.phys with openRow := (phaseS1 s).phys.openRow, annot := none }
          sched :=
            { s.sched with
              published := false, issued := false, pendingState := [], cmdBus := none, answers := []
              policyState := t.sched.policyState, pendingCompletion := t.sched.pendingCompletion }
          env := { s.env with txnPort := s.env.txnPort.tail } } ∧
      (s.out.replyOut = none → t.sched.policyState = told ∧ t.sched.pendingCompletion = none) ∧
      (∀ reply, s.out.replyOut = some reply →
        t.sched.policyState = (Config.onReplyReceived s.cfg told reply).1 ∧
          t.sched.pendingCompletion = (Config.onReplyReceived s.cfg told reply).2) ∧
      memoryKept s t

/-- The rest of S3, and S4 (42 R141, R150 to R152, 44 R193, R203 to R206, 10 R20): runPolicy returns, the module accepts
the issued command, the head of each queue leaves when its timestamp is the cycle number, the published state and the
completion go out, and `cycle` goes up by 1; nothing else is new. The premise of the replies is part of `queueInv`: R152
has no tick in which a read burst and a write burst are due. The model's own in this: the fields in which the published state, the
completion and the answers wait (log entries 4 and 7), and POLICY's returned state as an uninterpreted function of the old
one and of what R194 lets the policy read (log entry 13, DESIGN CHOICE). -/
def Obligations.TickCloses : Prop :=
  ∀ (s : State), tickReady s → (acceptBus s).fatal.flag = false →
    let a := acceptBus s
    let t := closeTick s
    t =
        { s with
          cycle := s.cycle + 1
          phase := .betweenTicks
          M := a.M
          phys :=
            { a.phys with
              dataPins := t.phys.dataPins, readout := t.phys.readout, readin := t.phys.readin, annot := none }
          sched :=
            { s.sched with
              schedStateOut := s.sched.pendingState
              policyState :=
                Config.runPolicy s.sched.policyState
                  { cycle := s.cycle, cfg := s.cfg, answers := s.sched.answers, openRow := s.phys.openRow
                    rowHits := s.sched.rowHits, rowMisses := s.sched.rowMisses } }
          out := t.out } ∧
      memoryKept a t ∧ t.out.completionOut = s.sched.pendingCompletion ∧
      t.out.annotOut = a.phys.annot.map (fun k => { tag := .protocolConstraint, kind := k }) ∧
      (∀ e rest, a.phys.dataPins = e :: rest → e.ts = s.cycle →
        t.phys.dataPins = rest ∧ t.out.pinsOut = some e.dpi) ∧
      ((∀ e rest, a.phys.dataPins = e :: rest → e.ts ≠ s.cycle) →
        t.phys.dataPins = a.phys.dataPins ∧ t.out.pinsOut = none) ∧
      (∀ e rest, a.phys.readout = e :: rest → e.ts = s.cycle → t.phys.readout = rest) ∧
      ((∀ e rest, a.phys.readout = e :: rest → e.ts ≠ s.cycle) → t.phys.readout = a.phys.readout) ∧
      (∀ e rest, a.phys.readin = e :: rest → e.ts = s.cycle → t.phys.readin = rest) ∧
      ((∀ e rest, a.phys.readin = e :: rest → e.ts ≠ s.cycle) → t.phys.readin = a.phys.readin) ∧
      ((∀ x ∈ a.phys.readout, ∀ y ∈ a.phys.readin, x.ts ≠ y.ts) →
        (∀ e rest, a.phys.readout = e :: rest → e.ts = s.cycle →
          t.out.replyOut = some { isWrite := false, burst := e.burst }) ∧
        (∀ e rest, a.phys.readin = e :: rest → e.ts = s.cycle →
          t.out.replyOut = some { isWrite := true, burst := e.burst }) ∧
        ((∀ e rest, a.phys.readout = e :: rest → e.ts ≠ s.cycle) →
          (∀ e rest, a.phys.readin = e :: rest → e.ts ≠ s.cycle) → t.out.replyOut = none))

/-- PUBLISH_STATE completes once a tick, for a value of the shape QUEUE_TOPOLOGY fixes (R201, 30 R84). -/
def Obligations.PublishCompletes : Prop :=
  ∀ (s : State) (state : List Admit), running s = true → s.sched.published = false →
    state.length = sstElems s.cfg →
    ∃ t, exec (.publishState state) s = .next t ∧
      t = { s with sched := { s.sched with published := true, pendingState := state } } ∧ memoryKept s t

/-- R239: a second publishState in a tick is fatal, and so is a tick that ends without one; `cycle` stays (60 R220; the codes
are R222's). That the outputs are invalid from the raise on is the model's reading of R220 (log entry 8, DEDUCED). -/
def Obligations.PublishExactlyOnce : Prop :=
  (∀ (s : State) (state : List Admit), running s = true → s.sched.published = true →
    state.length = sstElems s.cfg →
    exec (.publishState state) s = .next (withFatal .scheduler .publish .publishTwice 0 s)) ∧
  ∀ (s : State), running s = true → s.phase = .policyRunning → s.sched.published = false →
    (acceptBus s).fatal.flag = false → (∀ e ∈ s.phys.dataPins, s.cycle ≤ e.ts) →
    (∀ e ∈ s.phys.readout, s.cycle ≤ e.ts) → (∀ e ∈ s.phys.readin, s.cycle ≤ e.ts) →
    fatalCodes (closeTick s).fatal = (1, 2, 10, 3, 0) ∧ (closeTick s).cycle = s.cycle ∧
      (closeTick s).out = OutRegs.invalid

/-- R226, R232: a late head of a queue is fatal in S4 with its timestamp as the detail, `dataPins` before `readout` before
`readin`, and the tick whose number is `2^64 - 2^34` ends in a fatal; the number stays (R220; the codes are R222's). -/
def Obligations.LateHeadOrLastCycleIsFatal : Prop :=
  ∀ (s : State), running s = true → s.phase = .policyRunning → (acceptBus s).fatal.flag = false →
    let a := acceptBus s
    let t := closeTick s
    (∀ e rest, a.phys.dataPins = e :: rest → e.ts < s.cycle → e.ts < 2 ^ 64 →
      fatalCodes t.fatal = (1, 1, 6, 2, e.ts) ∧ t.cycle = s.cycle) ∧
    ((∀ e ∈ s.phys.dataPins, s.cycle ≤ e.ts) →
      (∀ e rest, a.phys.readout = e :: rest → e.ts < s.cycle → e.ts < 2 ^ 64 →
        fatalCodes t.fatal = (1, 1, 6, 2, e.ts) ∧ t.cycle = s.cycle) ∧
      ((∀ e ∈ s.phys.readout, s.cycle ≤ e.ts) →
        (∀ e rest, a.phys.readin = e :: rest → e.ts < s.cycle → e.ts < 2 ^ 64 →
          fatalCodes t.fatal = (1, 1, 6, 2, e.ts) ∧ t.cycle = s.cycle) ∧
        ((∀ e ∈ s.phys.readin, s.cycle ≤ e.ts) → s.sched.published = true → s.cycle = 2 ^ 64 - 2 ^ 34 →
          fatalCodes t.fatal = (1, 4, 10, 12, 0) ∧ t.cycle = s.cycle)))

/-! ### Raw accesses (43_burst_buffer.md) -/

/-- R181: READ_RAW completes for every range inside a row, also after a fatal (R185): the bytes of the words, byte 0
first, on the raw port, and nothing else changes. `rawOut` is the model's own field (log entry 7). -/
def Obligations.ReadRawCompletes : Prop :=
  ∀ (s : State) (b : BitVec 16) (r c n : BitVec 32), s.configError = none → b.toNat < s.cfg.NB →
    r.toNat < s.cfg.NR → n.toNat % 4 = 0 → c.toNat + n.toNat / 4 ≤ s.cfg.NC →
    ∃ t bytes, exec (.readRaw b r c n) s = .next t ∧ t = { s with env := { s.env with rawOut := some bytes } } ∧
      bytes.length = n.toNat ∧
      (∀ k < n.toNat, bytes[k]? = some (byteOf (s.wordAt b.toNat r.toNat (c.toNat + k / 4)) (k % 4))) ∧
      memoryKept s t

/-- R182: WRITE_RAW completes for every range inside a row: every byte of every addressed word is replaced, every other
byte stays, and nothing but memory changes. -/
def Obligations.WriteRawCompletes : Prop :=
  ∀ (s : State) (b : BitVec 16) (r c n : BitVec 32) (data : List Byte), memoryInv s → running s = true →
    b.toNat < s.cfg.NB → r.toNat < s.cfg.NR → n.toNat % 4 = 0 → c.toNat + n.toNat / 4 ≤ s.cfg.NC →
    data.length = n.toNat →
    ∃ t, exec (.writeRaw b r c n data) s = .next t ∧ t = { s with phys := { s.phys with mem := t.phys.mem } } ∧
      (∀ k (v : Byte), data[k]? = some v → t.byteAt (wordAddr b.toNat r.toNat c.toNat + k) = v) ∧
      memoryKeptOutside s t b.toNat r.toNat c.toNat (n.toNat / 4)

/-- R183: PRELOAD does exactly what WRITE_RAW does, and completes where it does. -/
def Obligations.PreloadIsWriteRaw : Prop :=
  ∀ (s : State) (b : BitVec 16) (r c n : BitVec 32) (data : List Byte),
    exec (.preload b r c n data) s = exec (.writeRaw b r c n data) s ∧
      (memoryInv s → running s = true → b.toNat < s.cfg.NB → r.toNat < s.cfg.NR → n.toNat % 4 = 0 →
        c.toNat + n.toNat / 4 ≤ s.cfg.NC → data.length = n.toNat →
        ∃ t, exec (.preload b r c n data) s = .next t ∧ t = { s with phys := { s.phys with mem := t.phys.mem } } ∧
          (∀ k (v : Byte), data[k]? = some v → t.byteAt (wordAddr b.toNat r.toNat c.toNat + k) = v) ∧
          memoryKeptOutside s t b.toNat r.toNat c.toNat (n.toNat / 4))

/-- R231, R184, R227: RAW_ILLEGAL_OP takes its fatal, and in every other raw operation a bank or row out of range, then a
length that is no multiple of 4, then a range that leaves the row is fatal, with no effect but that of the raise
(60 R220). That the value recorded for a range is its starting column is the model's reading (log entry 10, DEDUCED), and
so is that the outputs are invalid from the raise on (log entry 8, DEDUCED). -/
def Obligations.RawFatals : Prop :=
  (∀ (s : State), running s = true →
    exec .rawIllegalOp s = .next (withFatal .bank .raw .rawOp 3 s)) ∧
  ∀ (s : State) (b : BitVec 16) (r c n : BitVec 32) (data : List Byte) (i : Instr), running s = true →
    (i = .readRaw b r c n ∨ i = .writeRaw b r c n data ∨ i = .preload b r c n data) →
    (s.cfg.NB ≤ b.toNat → exec i s = .next (withFatal .bank .raw .outOfRange b.toNat s)) ∧
    (b.toNat < s.cfg.NB → s.cfg.NR ≤ r.toNat → exec i s = .next (withFatal .bank .raw .outOfRange r.toNat s)) ∧
    (b.toNat < s.cfg.NB → r.toNat < s.cfg.NR → n.toNat % 4 ≠ 0 →
      exec i s = .next (withFatal .bank .raw .rawLength n.toNat s)) ∧
    (b.toNat < s.cfg.NB → r.toNat < s.cfg.NR → n.toNat % 4 = 0 → s.cfg.NC < c.toNat + n.toNat / 4 →
      exec i s = .next (withFatal .bank .raw .outOfRange c.toNat s))

/-- R171: `merge` byte by byte, and its formula with the byte-expanded mask `e`. -/
def Obligations.MergeFormula : Prop :=
  ∀ (old new : Word) (m : BitVec 4),
    (∀ j < 4, byteOf (merge old new m) j = if m.getLsbD j then byteOf new j else byteOf old j) ∧
      ∀ e : Word, (∀ i < 32, e.getLsbD i = m.getLsbD (i / 8)) → merge old new m = (new &&& e) ||| (old &&& ~~~ e)

/-- R67: a burst written and read back returns its bytes, but where mask bits were 0 the prior contents. -/
def Obligations.BurstRoundTrip : Prop :=
  ∀ (mi : MemInit) (m : Memory) (b r c : Nat) (slots : List Slot), Memory.wf mi m →
    ∀ (i : Nat) (slot : Slot), slots[i]? = some slot →
      ∃ w, (memRead mi (memWrite mi m b r c slots) b r c slots.length)[i]? = some w ∧
        ∀ j < 4,
          byteOf w j =
            if slot.mask.getLsbD j then byteOf slot.word j
            else byteOf (readWord mi m (wordAddr b r (c + i))) j

/-! ### Transactions (44_command_sequencer_scheduler.md R199) -/

/-- TXN_READ completes for every transaction in range: `⌈N/B⌉` Reads at columns `BL` apart, and nothing else changes.
`splitOut` is the model's own field (log entry 7). -/
def Obligations.TxnReadSplits : Prop :=
  ∀ (s : State) (h : TxnHeader) (n : Nat), shapeInv s → running s = true → h.bank.toNat < s.cfg.NB →
    h.row.toNat < s.cfg.NR → h.bytes.toNat ≤ n * (4 * s.cfg.BL) →
    n * (4 * s.cfg.BL) < h.bytes.toNat + 4 * s.cfg.BL → h.col.toNat + n * s.cfg.BL ≤ s.cfg.NC →
    ∃ t commands, exec (.txnRead h) s = .next t ∧ t = { s with env := { s.env with splitOut := some commands } } ∧
      memoryKept s t ∧ commands.length = n ∧
      ∀ k < n, ∃ col : BitVec 32, col.toNat = h.col.toNat + k * s.cfg.BL ∧
        commands[k]? = some (.read h.bank col false)

/-- TXN_WRITE completes for every transaction in range: `⌈N/B⌉` Writes at columns `BL` apart, each with a burst of `BL`
words; byte `p` of the transaction is in its place, its mask bit set exactly where it is covered and not masked off.
`splitOut` is the model's own field (log entry 7). -/
def Obligations.TxnWriteSplits : Prop :=
  ∀ (s : State) (h : TxnHeader) (hasMask : Bool) (data : List Byte) (bmask : List Bool) (n : Nat), shapeInv s →
    running s = true → h.bank.toNat < s.cfg.NB → h.row.toNat < s.cfg.NR → h.bytes.toNat ≤ n * (4 * s.cfg.BL) →
    n * (4 * s.cfg.BL) < h.bytes.toNat + 4 * s.cfg.BL → h.col.toNat + n * s.cfg.BL ≤ s.cfg.NC →
    ∃ t commands, exec (.txnWrite h hasMask data bmask) s = .next t ∧
      t = { s with env := { s.env with splitOut := some commands } } ∧ memoryKept s t ∧ commands.length = n ∧
      ∀ k < n, ∃ (col : BitVec 32) (burst : Burst), col.toNat = h.col.toNat + k * s.cfg.BL ∧
        commands[k]? = some (.write h.bank col burst false) ∧ burst.len.toNat = s.cfg.BL ∧
        burst.slots.length = s.cfg.BL ∧
        ∀ i < s.cfg.BL, ∃ slot, burst.slots[i]? = some slot ∧ ∀ j < 4,
          let p := k * (4 * s.cfg.BL) + 4 * i + j
          (slot.mask.getLsbD j = true ↔ p < h.bytes.toNat ∧ (hasMask = true → bmask.getD p false = true)) ∧
          byteOf slot.word j = if p < h.bytes.toNat then data.getD p 0 else 0

/-- A query for a bank out of range is fatal, whatever its kind, and so is a transaction out of range; nothing is
answered (40 R112, 44 R199, 60 R227), and nothing happens but what the raise does (60 R220). That the value recorded for a
column is the starting column is the model's reading (log entry 10, DEDUCED), and so is that the outputs are invalid from
the raise on (log entry 8, DEDUCED). -/
def Obligations.QueryOrSplitOutOfRangeIsFatal : Prop :=
  (∀ (s : State) (kind : BitVec 3) (bank : BitVec 16), running s = true → s.cfg.NB ≤ bank.toNat →
    exec (.constraintFor kind bank) s =
      .next (withFatal .predictive .constraintFor .outOfRange bank.toNat s)) ∧
  ∀ (s : State) (h : TxnHeader) (hasMask : Bool) (data : List Byte) (bmask : List Bool) (n : Nat) (i : Instr),
    shapeInv s → running s = true → (i = .txnRead h ∨ i = .txnWrite h hasMask data bmask) →
    h.bytes.toNat ≤ n * (4 * s.cfg.BL) → n * (4 * s.cfg.BL) < h.bytes.toNat + 4 * s.cfg.BL →
    (s.cfg.NB ≤ h.bank.toNat → exec i s = .next (withFatal .scheduler .split .outOfRange h.bank.toNat s)) ∧
    (h.bank.toNat < s.cfg.NB → s.cfg.NR ≤ h.row.toNat →
      exec i s = .next (withFatal .scheduler .split .outOfRange h.row.toNat s)) ∧
    (h.bank.toNat < s.cfg.NB → h.row.toNat < s.cfg.NR → s.cfg.NC < h.col.toNat + n * s.cfg.BL →
      exec i s = .next (withFatal .scheduler .split .outOfRange h.col.toNat s))

/-! ### Reset and configuration (70_reset_and_hazards.md, 60_exceptions.md) -/

/-- R40, R250: every piece of state after reset, but for the fields of the fatal record that R253 leaves open. With MEM_INIT
open a word reads as MEM_INIT of its triple, and with MEM_INIT given as a table a byte reads as the table has it and else
as zero (the byte addresses and the table form are the model's, log entry 2). The model's own too: the policy's initial
state is coded as the empty string (log entry 5, DESIGN CHOICE), and the values that live inside a tick are empty (log
entries 4 and 7). -/
def Obligations.ResetLeaves : Prop :=
  ∀ (cfg : Cfg), let s := State.boot cfg
    s.cfg = cfg ∧ s.configError = none ∧ s.cycle = 0 ∧ s.phase = .betweenTicks ∧ s.P = s.M ∧
      s.M.banks.length = cfg.NB ∧
      (∀ b, bankAt s.M b = { status := .idle, endCycle := 0, lastWriteEnd := 0, autoprecharge := false }) ∧
      s.M.lastActive = { bank := 0, start := 0, finish := 0 } ∧
      s.M.lastRead = { bank := 0, start := 0, finish := 0 } ∧
      s.M.lastWrite = { bank := 0, start := 0, finish := 0 } ∧
      s.phys.openRow.length = cfg.NB ∧ (∀ b, openRowAt s b = none) ∧ s.phys.dataPins = [] ∧ s.phys.readout = [] ∧
      s.phys.readin = [] ∧ s.phys.annot = none ∧ s.sched.published = false ∧ s.sched.issued = false ∧
      s.sched.pendingState = [] ∧ s.sched.cmdBus = none ∧ s.sched.pendingCompletion = none ∧ s.sched.answers = [] ∧
      s.sched.policyState = [] ∧
      s.sched.schedStateOut.length = sstElems cfg ∧ (∀ x ∈ s.sched.schedStateOut, x = .acceptNone) ∧
      s.sched.lastCmdKind.length = cfg.NB ∧ (∀ b, lastCmdAt s b = .noCmd) ∧ s.sched.rowHits = 0 ∧
      s.sched.rowMisses = 0 ∧ s.fatal.flag = false ∧ s.out = OutRegs.invalid ∧
      (cfg.memInit = .unspecified → ∀ b r c, r < 2 ^ 32 → c < 2 ^ 32 → s.wordAt b r c = Config.memInit b r c) ∧
      ∀ cells, cfg.memInit = .table cells → ∀ a,
        (∀ v, (a, v) ∈ cells → (∀ cell ∈ cells, cell.1 = a → cell.2 = v) → s.byteAt a = v) ∧
          ((∀ cell ∈ cells, cell.1 ≠ a) → s.byteAt a = 0)

/-- Reset takes a configuration or records why it cannot, whatever the engine was doing; the inputs still waiting on the
ports stay (the model's own, log entry 6). It is the way out of a fatal stop (70 R250 to R252). -/
def Obligations.ResetTakesConfiguration : Prop :=
  ∀ (s : State) (b : Bundle) (rest : List PortItem), s.env.port = .reset b :: rest →
    ∃ t, step s = .next t ∧ t.env.port = rest ∧ t.env.txnPort = s.env.txnPort ∧ t.fatal.flag = false ∧ t.cycle = 0 ∧
      (∀ cfg, configure b = .ok cfg → t = { State.boot cfg with env := t.env } ∧ cfgValid cfg = true) ∧
      ∀ e, configure b = .error e → t.configError = some e

/-- R207, R223, R234 to R236: which configuration error is reported, and which configuration a legal bundle gives: its own
parameters with the latencies of its profile (00 R10), which are the given ones, all 0, or those of its name in
PROFILE_TABLE. That PROFILE_TABLE and what a selector selects are data of the bundle is the model's (log entry 14). -/
def Obligations.ConfigurationErrors : Prop :=
  ∀ (b : Bundle),
    (b.family ≠ .supported → configure b = .error .unsupportedFamily) ∧
    (∀ name, b.family = .supported → b.profile = .named name → (∀ entry ∈ b.profileTable, entry.1 ≠ name) →
      configure b = .error .unknownProfile) ∧
    ∀ l, b.family = .supported →
      (b.profile = .custom l ∨
        b.profile = .perfect ∧
          l = { tRRD := 0, tRCD := 0, tWTR := 0, tRTW := 0, tWR := 0, tRP := 0, CAS := 0, WL := 0 } ∨
        ∃ name, b.profile = .named name ∧ (name, l) ∈ b.profileTable ∧
          ∀ entry ∈ b.profileTable, entry.1 = name → entry.2 = l) →
      let bad :=
        b.NB > 65536 ∨ b.NR = 0 ∨ b.NR > 2 ^ 32 ∨ b.NC = 0 ∨ b.NC > 2 ^ 32 ∨ b.BL = 0 ∨ b.BL > 32 ∨ b.NC < b.BL ∨
          b.BPC = 0 ∨ b.BPC > 128 ∨ ¬ b.BPC ∣ 4 * b.BL ∨ selectsPolicy b.schedKind = false ∨
          2 ^ 32 ≤ l.tRRD ∨ 2 ^ 32 ≤ l.tRCD ∨ 2 ^ 32 ≤ l.tWTR ∨ 2 ^ 32 ≤ l.tRTW ∨ 2 ^ 32 ≤ l.tWR ∨ 2 ^ 32 ≤ l.tRP ∨
          2 ^ 32 ≤ l.CAS ∨ 2 ^ 32 ≤ l.WL;
      (b.NB = 0 → configure b = .error .zeroBankCount) ∧
      (b.NB ≠ 0 → bad → configure b = .error .badParameter) ∧
      (b.NB ≠ 0 → ¬ bad →
        configure b =
          .ok
            { NB := b.NB, NR := b.NR, NC := b.NC, BL := b.BL, BPC := b.BPC, lat := l, topology := b.topology
              pagePolicy := b.pagePolicy, schedKind := b.schedKind, debugString := b.debugString
              memInit := b.memInit })

/-! ### Invariants of every step -/

/-- Every memory operation keeps the canonical form. -/
def Obligations.StepKeepsMemoryCanonical : Prop :=
  ∀ (s t : State), memoryInv s → step s = .next t → memoryInv t

/-- The arrays keep their sizes, and the configuration stays legal. -/
def Obligations.StepKeepsShape : Prop :=
  ∀ (s t : State), shapeInv s → step s = .next t → shapeInv t

/-- R26: the predictive copy mirrors the physical one. -/
def Obligations.StepKeepsMirror : Prop :=
  ∀ (s t : State), mirrorInv s → step s = .next t → mirrorInv t

/-- R142, R237: the module never raises ConstraintViolated, OutOfRange or BurstLength for a command that came through an issue
helper, which has made the same checks. The fatals of an issued Precharge(ALL) or reserved kind (R228, R230) are not among
these: PrechargeAllIsFatal and ReservedKindsAreFatal state them. -/
def Obligations.ModuleNeverRaisesIssueChecks : Prop :=
  ∀ (s t : State), mirrorInv s → running s = true → step s = .next t → t.fatal.flag = true →
    ¬ (t.fatal.component = .physical ∧
      (t.fatal.violated = .constraintViolated ∨ t.fatal.violated = .outOfRange ∨ t.fatal.violated = .burstLength))

/-- R155, R237: a row is open exactly in the banks that are not `Idle`, and no access finds its bank without one. -/
def Obligations.StepKeepsRowMarkers : Prop :=
  ∀ (s t : State), shapeInv s → rowInv s → step s = .next t →
    rowInv t ∧ (running s = true → t.fatal.flag = true → t.fatal.violated ≠ .noActiveRow)

/-- R135: the autoprecharge flag is set in `Reading` and `Writing` banks only. -/
def Obligations.StepKeepsFlags : Prop :=
  ∀ (s t : State), flagInv s.P → flagInv s.M → step s = .next t → flagInv t.P ∧ flagInv t.M

/-- R148, R150, R153, R237: the bus queues stay sorted, the last write's bank is `Writing` until its end, and with the
clock of R20 no entry is ever drained late. -/
def Obligations.StepKeepsBusOrder : Prop :=
  ∀ (s t : State), busOrderInv s → step s = .next t →
    busOrderInv t ∧ (running s = true → t.fatal.flag = true → t.fatal.violated ≠ .queueLate)

/-- R232: no stored cycle number leaves 64 bits. -/
def Obligations.StepKeepsWidths : Prop :=
  ∀ (s t : State), widthInv s → step s = .next t → widthInv t

/-- R32, R151, R220: annotations live inside a tick and leave only beside a pin item; a halted engine shows nothing, in the
model from the raise on (log entry 8, DEDUCED). -/
def Obligations.StepKeepsOutputs : Prop :=
  ∀ (s t : State), annotInv s → haltedInv s → step s = .next t → annotInv t ∧ haltedInv t

/-- R220, R223: after a fatal, and in an engine that could take no configuration, no step but a reset changes anything but
the ports; no query and no transaction is answered, and without a configuration no raw read either. -/
def Obligations.OnlyResetEndsAStop : Prop :=
  ∀ (s t : State), s.fatal.flag = true ∨ s.configError ≠ none → resetNext s = false → step s = .next t →
    t = { s with env := t.env } ∧ t.env.qryOut = none ∧ t.env.splitOut = none ∧ t.env.txnPort = s.env.txnPort ∧
      (s.configError ≠ none → t.env.rawOut = none)

/-- R156, R185: no action of the policy writes the module's state; a raw operation leaves everything but memory, its
answer and the fatal record alone, and only a raw write changes memory. -/
def Obligations.OperationsKeepToTheirState : Prop :=
  ∀ (i : Instr) (s t : State), exec i s = .next t →
    (isRaw i = false → t.M = s.M ∧ t.phys = s.phys ∧ t.cycle = s.cycle) ∧
      (isRaw i = true →
        t =
          { s with
            phys := { s.phys with mem := t.phys.mem }, fatal := t.fatal, out := t.out
            env := { s.env with rawOut := t.env.rawOut } }) ∧
      ((∀ b r c n data, i ≠ .writeRaw b r c n data ∧ i ≠ .preload b r c n data) → memoryKept s t)

/-- R251: no step but a reset changes the configuration. -/
def Obligations.ConfigurationIsFixed : Prop :=
  ∀ (s t : State), resetNext s = false → step s = .next t → t.cfg = s.cfg ∧ t.configError = s.configError

/-- Every legal configuration's reset state meets every invariant, and `TC` is legal. -/
def Obligations.ResetMeetsInvariants : Prop :=
  cfgValid Config.tc = true ∧
    ∀ (cfg : Cfg), cfgValid cfg = true →
      let s := State.boot cfg
      memoryInv s ∧ shapeInv s ∧ mirrorInv s ∧ rowInv s ∧ flagInv s.P ∧ flagInv s.M ∧ busOrderInv s ∧ widthInv s ∧
        annotInv s ∧ haltedInv s

/-! ### Numeric codes -/

/-- The numeric codes of the enumerations of 30 R71 (the command kinds of R72, the constraints of R77, the bank states of
10 R22, the admission values of R84, the pin tags of R86), of the fatal record (60 R222) and of the configuration errors
(60 R223), each list in the order of the spec's table; and the fatal record as its five numbers. -/
def Obligations.NumericCodes : Prop :=
  [0, 1, 2, 3, 4, 5, 6, 7].map CmdKind.ofCode =
      [.active, .read, .write, .precharge, .dummy, .reserved, .reserved, .reserved] ∧
    [Constraint.none, .actToAct, .actToRead, .actToWrite, .actToPre, .readToWrite, .readToPre, .writeToRead, .writeToPre,
      .preToAct, .dataBusConflict, .noActWithRead, .noActWithWrite, .actWithOpenRow, .autoprechargeRead,
      .autoprechargeWrite, .unknown].map (fun k => k.code.toNat) = List.range 17 ∧
    [BankStatus.idle, .activating, .active, .reading, .writing, .precharging].map (fun x => (bankStatusCode x).toNat) =
      List.range 6 ∧
    [Admit.acceptBoth, .acceptRead, .acceptWrite, .acceptNone].map (fun a => a.code.toNat) = List.range 4 ∧
    [PinTag.read, .write, .protocolConstraint, .casLatency, .writeLatency].map (fun x => (pinTagCode x).toNat) =
      List.range 5 ∧
    [Component.predictive, .physical, .scheduler, .bank, .engine].map componentCode = List.range 5 ∧
    [Operation.postActive, .postRead, .postWrite, .postPrecharge, .constraintFor, .accept, .drain, .issue, .split,
      .publish, .endOfTick, .raw, .access].map operationCode = List.range 13 ∧
    [Invariant.none, .constraintViolated, .queueLate, .publishMissing, .publishTwice, .secondCommandInTick, .outOfRange,
      .prechargeAllUnsupported, .burstLength, .unknownCommand, .rawLength, .rawOp, .cycleOverflow,
      .noActiveRow].map invariantCode = List.range 14 ∧
    [ConfigError.unsupportedFamily, .unknownProfile, .zeroBankCount, .badParameter].map configErrorCode =
      List.range 4 ∧
    ∀ f : FatalRecord,
      fatalCodes f =
        (f.flag.toNat, componentCode f.component, operationCode f.operation, invariantCode f.violated, f.detail.toNat)
end

