-- ==== Sys2Proof/Laws/State.lean ====
section
/-! SUPPORT. One lemma a field a state update: what every named update of `State` leaves and sets. -/

namespace Sys2Proof.Machine

@[simp] theorem State.setP_cfg (s : State) (T : Timing) : (s.setP T).cfg = s.cfg := rfl
@[simp] theorem State.setP_configError (s : State) (T : Timing) : (s.setP T).configError = s.configError := rfl
@[simp] theorem State.setP_cycle (s : State) (T : Timing) : (s.setP T).cycle = s.cycle := rfl
@[simp] theorem State.setP_phase (s : State) (T : Timing) : (s.setP T).phase = s.phase := rfl
@[simp] theorem State.setP_P (s : State) (T : Timing) : (s.setP T).P = T := rfl
@[simp] theorem State.setP_M (s : State) (T : Timing) : (s.setP T).M = s.M := rfl
@[simp] theorem State.setP_phys (s : State) (T : Timing) : (s.setP T).phys = s.phys := rfl
@[simp] theorem State.setP_sched (s : State) (T : Timing) : (s.setP T).sched = s.sched := rfl
@[simp] theorem State.setP_fatal (s : State) (T : Timing) : (s.setP T).fatal = s.fatal := rfl
@[simp] theorem State.setP_out (s : State) (T : Timing) : (s.setP T).out = s.out := rfl
@[simp] theorem State.setP_env (s : State) (T : Timing) : (s.setP T).env = s.env := rfl

@[simp] theorem State.setM_cfg (s : State) (T : Timing) : (s.setM T).cfg = s.cfg := rfl
@[simp] theorem State.setM_configError (s : State) (T : Timing) : (s.setM T).configError = s.configError := rfl
@[simp] theorem State.setM_cycle (s : State) (T : Timing) : (s.setM T).cycle = s.cycle := rfl
@[simp] theorem State.setM_phase (s : State) (T : Timing) : (s.setM T).phase = s.phase := rfl
@[simp] theorem State.setM_P (s : State) (T : Timing) : (s.setM T).P = s.P := rfl
@[simp] theorem State.setM_M (s : State) (T : Timing) : (s.setM T).M = T := rfl
@[simp] theorem State.setM_phys (s : State) (T : Timing) : (s.setM T).phys = s.phys := rfl
@[simp] theorem State.setM_sched (s : State) (T : Timing) : (s.setM T).sched = s.sched := rfl
@[simp] theorem State.setM_fatal (s : State) (T : Timing) : (s.setM T).fatal = s.fatal := rfl
@[simp] theorem State.setM_out (s : State) (T : Timing) : (s.setM T).out = s.out := rfl
@[simp] theorem State.setM_env (s : State) (T : Timing) : (s.setM T).env = s.env := rfl

@[simp] theorem State.setPhys_cfg (s : State) (p : PhysState) : (s.setPhys p).cfg = s.cfg := rfl
@[simp] theorem State.setPhys_configError (s : State) (p : PhysState) : (s.setPhys p).configError = s.configError := rfl
@[simp] theorem State.setPhys_cycle (s : State) (p : PhysState) : (s.setPhys p).cycle = s.cycle := rfl
@[simp] theorem State.setPhys_phase (s : State) (p : PhysState) : (s.setPhys p).phase = s.phase := rfl
@[simp] theorem State.setPhys_P (s : State) (p : PhysState) : (s.setPhys p).P = s.P := rfl
@[simp] theorem State.setPhys_M (s : State) (p : PhysState) : (s.setPhys p).M = s.M := rfl
@[simp] theorem State.setPhys_phys (s : State) (p : PhysState) : (s.setPhys p).phys = p := rfl
@[simp] theorem State.setPhys_sched (s : State) (p : PhysState) : (s.setPhys p).sched = s.sched := rfl
@[simp] theorem State.setPhys_fatal (s : State) (p : PhysState) : (s.setPhys p).fatal = s.fatal := rfl
@[simp] theorem State.setPhys_out (s : State) (p : PhysState) : (s.setPhys p).out = s.out := rfl
@[simp] theorem State.setPhys_env (s : State) (p : PhysState) : (s.setPhys p).env = s.env := rfl

@[simp] theorem State.setSched_cfg (s : State) (x : SchedState) : (s.setSched x).cfg = s.cfg := rfl
@[simp] theorem State.setSched_configError (s : State) (x : SchedState) : (s.setSched x).configError = s.configError := rfl
@[simp] theorem State.setSched_cycle (s : State) (x : SchedState) : (s.setSched x).cycle = s.cycle := rfl
@[simp] theorem State.setSched_phase (s : State) (x : SchedState) : (s.setSched x).phase = s.phase := rfl
@[simp] theorem State.setSched_P (s : State) (x : SchedState) : (s.setSched x).P = s.P := rfl
@[simp] theorem State.setSched_M (s : State) (x : SchedState) : (s.setSched x).M = s.M := rfl
@[simp] theorem State.setSched_phys (s : State) (x : SchedState) : (s.setSched x).phys = s.phys := rfl
@[simp] theorem State.setSched_sched (s : State) (x : SchedState) : (s.setSched x).sched = x := rfl
@[simp] theorem State.setSched_fatal (s : State) (x : SchedState) : (s.setSched x).fatal = s.fatal := rfl
@[simp] theorem State.setSched_out (s : State) (x : SchedState) : (s.setSched x).out = s.out := rfl
@[simp] theorem State.setSched_env (s : State) (x : SchedState) : (s.setSched x).env = s.env := rfl

@[simp] theorem State.setOut_cfg (s : State) (o : OutRegs) : (s.setOut o).cfg = s.cfg := rfl
@[simp] theorem State.setOut_configError (s : State) (o : OutRegs) : (s.setOut o).configError = s.configError := rfl
@[simp] theorem State.setOut_cycle (s : State) (o : OutRegs) : (s.setOut o).cycle = s.cycle := rfl
@[simp] theorem State.setOut_phase (s : State) (o : OutRegs) : (s.setOut o).phase = s.phase := rfl
@[simp] theorem State.setOut_P (s : State) (o : OutRegs) : (s.setOut o).P = s.P := rfl
@[simp] theorem State.setOut_M (s : State) (o : OutRegs) : (s.setOut o).M = s.M := rfl
@[simp] theorem State.setOut_phys (s : State) (o : OutRegs) : (s.setOut o).phys = s.phys := rfl
@[simp] theorem State.setOut_sched (s : State) (o : OutRegs) : (s.setOut o).sched = s.sched := rfl
@[simp] theorem State.setOut_fatal (s : State) (o : OutRegs) : (s.setOut o).fatal = s.fatal := rfl
@[simp] theorem State.setOut_out (s : State) (o : OutRegs) : (s.setOut o).out = o := rfl
@[simp] theorem State.setOut_env (s : State) (o : OutRegs) : (s.setOut o).env = s.env := rfl

@[simp] theorem State.setEnv_cfg (s : State) (e : PortState) : (s.setEnv e).cfg = s.cfg := rfl
@[simp] theorem State.setEnv_configError (s : State) (e : PortState) : (s.setEnv e).configError = s.configError := rfl
@[simp] theorem State.setEnv_cycle (s : State) (e : PortState) : (s.setEnv e).cycle = s.cycle := rfl
@[simp] theorem State.setEnv_phase (s : State) (e : PortState) : (s.setEnv e).phase = s.phase := rfl
@[simp] theorem State.setEnv_P (s : State) (e : PortState) : (s.setEnv e).P = s.P := rfl
@[simp] theorem State.setEnv_M (s : State) (e : PortState) : (s.setEnv e).M = s.M := rfl
@[simp] theorem State.setEnv_phys (s : State) (e : PortState) : (s.setEnv e).phys = s.phys := rfl
@[simp] theorem State.setEnv_sched (s : State) (e : PortState) : (s.setEnv e).sched = s.sched := rfl
@[simp] theorem State.setEnv_fatal (s : State) (e : PortState) : (s.setEnv e).fatal = s.fatal := rfl
@[simp] theorem State.setEnv_out (s : State) (e : PortState) : (s.setEnv e).out = s.out := rfl
@[simp] theorem State.setEnv_env (s : State) (e : PortState) : (s.setEnv e).env = e := rfl

@[simp] theorem State.setPhase_cfg (s : State) (p : Phase) : (s.setPhase p).cfg = s.cfg := rfl
@[simp] theorem State.setPhase_configError (s : State) (p : Phase) : (s.setPhase p).configError = s.configError := rfl
@[simp] theorem State.setPhase_cycle (s : State) (p : Phase) : (s.setPhase p).cycle = s.cycle := rfl
@[simp] theorem State.setPhase_phase (s : State) (p : Phase) : (s.setPhase p).phase = p := rfl
@[simp] theorem State.setPhase_P (s : State) (p : Phase) : (s.setPhase p).P = s.P := rfl
@[simp] theorem State.setPhase_M (s : State) (p : Phase) : (s.setPhase p).M = s.M := rfl
@[simp] theorem State.setPhase_phys (s : State) (p : Phase) : (s.setPhase p).phys = s.phys := rfl
@[simp] theorem State.setPhase_sched (s : State) (p : Phase) : (s.setPhase p).sched = s.sched := rfl
@[simp] theorem State.setPhase_fatal (s : State) (p : Phase) : (s.setPhase p).fatal = s.fatal := rfl
@[simp] theorem State.setPhase_out (s : State) (p : Phase) : (s.setPhase p).out = s.out := rfl
@[simp] theorem State.setPhase_env (s : State) (p : Phase) : (s.setPhase p).env = s.env := rfl

@[simp] theorem State.setCycle_cfg (s : State) (c : Nat) : (s.setCycle c).cfg = s.cfg := rfl
@[simp] theorem State.setCycle_configError (s : State) (c : Nat) : (s.setCycle c).configError = s.configError := rfl
@[simp] theorem State.setCycle_cycle (s : State) (c : Nat) : (s.setCycle c).cycle = c := rfl
@[simp] theorem State.setCycle_phase (s : State) (c : Nat) : (s.setCycle c).phase = s.phase := rfl
@[simp] theorem State.setCycle_P (s : State) (c : Nat) : (s.setCycle c).P = s.P := rfl
@[simp] theorem State.setCycle_M (s : State) (c : Nat) : (s.setCycle c).M = s.M := rfl
@[simp] theorem State.setCycle_phys (s : State) (c : Nat) : (s.setCycle c).phys = s.phys := rfl
@[simp] theorem State.setCycle_sched (s : State) (c : Nat) : (s.setCycle c).sched = s.sched := rfl
@[simp] theorem State.setCycle_fatal (s : State) (c : Nat) : (s.setCycle c).fatal = s.fatal := rfl
@[simp] theorem State.setCycle_out (s : State) (c : Nat) : (s.setCycle c).out = s.out := rfl
@[simp] theorem State.setCycle_env (s : State) (c : Nat) : (s.setCycle c).env = s.env := rfl

@[simp] theorem State.setFatal_cfg (s : State) (f : FatalRecord) : (s.setFatal f).cfg = s.cfg := rfl
@[simp] theorem State.setFatal_configError (s : State) (f : FatalRecord) : (s.setFatal f).configError = s.configError := rfl
@[simp] theorem State.setFatal_cycle (s : State) (f : FatalRecord) : (s.setFatal f).cycle = s.cycle := rfl
@[simp] theorem State.setFatal_phase (s : State) (f : FatalRecord) : (s.setFatal f).phase = s.phase := rfl
@[simp] theorem State.setFatal_P (s : State) (f : FatalRecord) : (s.setFatal f).P = s.P := rfl
@[simp] theorem State.setFatal_M (s : State) (f : FatalRecord) : (s.setFatal f).M = s.M := rfl
@[simp] theorem State.setFatal_phys (s : State) (f : FatalRecord) : (s.setFatal f).phys = s.phys := rfl
@[simp] theorem State.setFatal_sched (s : State) (f : FatalRecord) : (s.setFatal f).sched = s.sched := rfl
@[simp] theorem State.setFatal_fatal (s : State) (f : FatalRecord) : (s.setFatal f).fatal = f := rfl
@[simp] theorem State.setFatal_out (s : State) (f : FatalRecord) : (s.setFatal f).out = OutRegs.invalid := rfl
@[simp] theorem State.setFatal_env (s : State) (f : FatalRecord) : (s.setFatal f).env = s.env := rfl

@[simp] theorem State.setMem_cfg (s : State) (m : Memory) : (s.setMem m).cfg = s.cfg := rfl
@[simp] theorem State.setMem_configError (s : State) (m : Memory) : (s.setMem m).configError = s.configError := rfl
@[simp] theorem State.setMem_cycle (s : State) (m : Memory) : (s.setMem m).cycle = s.cycle := rfl
@[simp] theorem State.setMem_phase (s : State) (m : Memory) : (s.setMem m).phase = s.phase := rfl
@[simp] theorem State.setMem_P (s : State) (m : Memory) : (s.setMem m).P = s.P := rfl
@[simp] theorem State.setMem_M (s : State) (m : Memory) : (s.setMem m).M = s.M := rfl
@[simp] theorem State.setMem_phys (s : State) (m : Memory) : (s.setMem m).phys = { s.phys with mem := m } := rfl
@[simp] theorem State.setMem_sched (s : State) (m : Memory) : (s.setMem m).sched = s.sched := rfl
@[simp] theorem State.setMem_fatal (s : State) (m : Memory) : (s.setMem m).fatal = s.fatal := rfl
@[simp] theorem State.setMem_out (s : State) (m : Memory) : (s.setMem m).out = s.out := rfl
@[simp] theorem State.setMem_env (s : State) (m : Memory) : (s.setMem m).env = s.env := rfl

end Sys2Proof.Machine
end

