-- ==== Sys2Proof/Laws/Memory.lean ====
section
/-! SUPPORT. The laws of the bank arrays: what a byte reads as after each memory operation, and that every memory
operation keeps the canonical form. -/

namespace Sys2Proof.Machine

/-! ### Lookups in the list -/

theorem memFind_none_of_lt {m : Memory} {a : Nat} (h : ∀ x ∈ m, a < x.1) : memFind m a = none := by
  induction m with
  | nil => rfl
  | cons cell rest ih =>
    have h1 := h cell (by simp)
    have h2 : memFind rest a = none := ih fun x hx => h x (by simp [hx])
    simp only [memFind, h2, ite_eq_right_iff]
    omega

theorem memFind_mem {m : Memory} {a : Nat} {v : Byte} (h : memFind m a = some v) : (a, v) ∈ m := by
  induction m with
  | nil => simp [memFind] at h
  | cons cell rest ih =>
    simp only [memFind] at h
    split at h
    · obtain ⟨x, y⟩ := cell
      simp_all
    · simp [ih h]

theorem memFind_memInsert (m : Memory) (a x : Nat) (v : Byte) :
    memFind (memInsert m a v) x = if a = x then some v else memFind m x := by
  induction m with
  | nil => simp [memInsert, memFind]
  | cons cell rest ih =>
    simp only [memInsert]
    split_ifs with h1 h2 <;> simp only [memFind, ih] <;> split_ifs <;> simp_all

theorem memFind_memErase {m : Memory} (h : m.Pairwise fun x y => x.1 < y.1) (a x : Nat) :
    memFind (memErase m a) x = if a = x then none else memFind m x := by
  induction m with
  | nil => simp [memErase, memFind]
  | cons cell rest ih =>
    have hp := List.pairwise_cons.1 h
    simp only [memErase]
    split_ifs with h1 h2 h2
    · subst h1 h2
      exact memFind_none_of_lt hp.1
    · simp [memFind, h1, h2]
    · simp only [memFind, ih hp.2, if_pos h2, if_neg (show ¬ cell.1 = x from fun e => h1 (e.trans h2.symm))]
    · simp [memFind, ih hp.2, h2]

theorem mem_memErase {m : Memory} {a : Nat} {x : Host.Cell} (h : x ∈ memErase m a) : x ∈ m := by
  induction m with
  | nil => simp [memErase] at h
  | cons cell rest ih =>
    simp only [memErase] at h
    split at h
    · exact List.mem_cons_of_mem _ h
    · rcases List.mem_cons.1 h with h | h
      · simp [h]
      · exact List.mem_cons_of_mem _ (ih h)

theorem mem_memInsert {m : Memory} {a : Nat} {v : Byte} {x : Host.Cell} (h : x ∈ memInsert m a v) :
    x = (a, v) ∨ x ∈ m := by
  induction m with
  | nil => simpa [memInsert] using h
  | cons cell rest ih =>
    simp only [memInsert] at h
    split_ifs at h
    · simpa using h
    · rcases List.mem_cons.1 h with h | h
      · exact .inl h
      · exact .inr (List.mem_cons_of_mem _ h)
    · rcases List.mem_cons.1 h with h | h
      · simp [h]
      · rcases ih h with h | h
        · exact .inl h
        · exact .inr (List.mem_cons_of_mem _ h)

theorem memErase_rising {m : Memory} (h : m.Pairwise fun x y => x.1 < y.1) (a : Nat) :
    (memErase m a).Pairwise fun x y => x.1 < y.1 := by
  induction m with
  | nil => simp [memErase]
  | cons cell rest ih =>
    have hp := List.pairwise_cons.1 h
    simp only [memErase]
    split
    · exact hp.2
    · exact List.pairwise_cons.2 ⟨fun x hx => hp.1 x (mem_memErase hx), ih hp.2⟩

theorem memInsert_rising {m : Memory} (h : m.Pairwise fun x y => x.1 < y.1) (a : Nat) (v : Byte) :
    (memInsert m a v).Pairwise fun x y => x.1 < y.1 := by
  induction m with
  | nil => simp [memInsert]
  | cons cell rest ih =>
    have hp := List.pairwise_cons.1 h
    simp only [memInsert]
    split_ifs with h1 h2
    · refine List.pairwise_cons.2 ⟨fun x hx => ?_, h⟩
      rcases List.mem_cons.1 hx with rfl | hx
      · exact h1
      · exact h1.trans (hp.1 x hx)
    · subst h2
      exact List.pairwise_cons.2 ⟨hp.1, hp.2⟩
    · refine List.pairwise_cons.2 ⟨fun x hx => ?_, ih hp.2⟩
      rcases mem_memInsert hx with rfl | hx
      · simp only
        omega
      · exact hp.1 x hx

/-! ### Bytes -/

/-- The canonical form is kept by writing a byte. -/
theorem writeByte_wf {mi : MemInit} {m : Memory} (h : Memory.wf mi m) (a : Nat) (v : Byte) :
    Memory.wf mi (writeByte mi m a v) := by
  unfold writeByte
  split
  · exact ⟨memErase_rising h.1 a, fun x hx => h.2 x (mem_memErase hx)⟩
  · refine ⟨memInsert_rising h.1 a v, fun x hx => ?_⟩
    rcases mem_memInsert hx with rfl | hx
    · assumption
    · exact h.2 x hx

/-- A byte reads as written, and every other byte as before. -/
theorem readByte_writeByte {mi : MemInit} {m : Memory} (h : Memory.wf mi m) (a x : Nat) (v : Byte) :
    readByte mi (writeByte mi m a v) x = if a = x then v else readByte mi m x := by
  unfold writeByte readByte
  split
  · rw [memFind_memErase h.1]
    split <;> simp_all
  · rw [memFind_memInsert]
    split <;> simp_all

theorem wf_nil (mi : MemInit) : Memory.wf mi [] := by
  simp [Memory.wf]

/-- An empty list reads as MEM_INIT everywhere (10_state.md R40). -/
@[simp] theorem readByte_nil (mi : MemInit) (a : Nat) : readByte mi [] a = initByte mi a := rfl

/-! ### Words -/

theorem writeWord_wf {mi : MemInit} {m : Memory} (h : Memory.wf mi m) (a : Nat) (w : Word) :
    Memory.wf mi (writeWord mi m a w) :=
  writeByte_wf (writeByte_wf (writeByte_wf (writeByte_wf h _ _) _ _) _ _) _ _

/-- The four bytes of a stored word, and every other byte as before. -/
theorem readByte_writeWord {mi : MemInit} {m : Memory} (h : Memory.wf mi m) (a x : Nat) (w : Word) :
    readByte mi (writeWord mi m a w) x =
      if a ≤ x ∧ x < a + 4 then byteOf w (x - a) else readByte mi m x := by
  unfold writeWord
  rw [readByte_writeByte (writeByte_wf (writeByte_wf (writeByte_wf h _ _) _ _) _ _),
    readByte_writeByte (writeByte_wf (writeByte_wf h _ _) _ _), readByte_writeByte (writeByte_wf h _ _),
    readByte_writeByte h]
  by_cases hx : a ≤ x ∧ x < a + 4
  · obtain ⟨h1, h2⟩ := hx
    have : x = a ∨ x = a + 1 ∨ x = a + 2 ∨ x = a + 3 := by omega
    rcases this with rfl | rfl | rfl | rfl <;> simp
  · rw [if_neg hx, if_neg (by omega), if_neg (by omega), if_neg (by omega), if_neg (by omega)]

@[simp] theorem byteOf_wordOfBytes_zero (b0 b1 b2 b3 : Byte) : byteOf (wordOfBytes b0 b1 b2 b3) 0 = b0 := by
  apply BitVec.eq_of_getLsbD_eq
  intro i hi
  simp only [byteOf, wordOfBytes, BitVec.getLsbD_append, BitVec.getLsbD_extractLsb', hi]
  simp [hi]

@[simp] theorem byteOf_wordOfBytes_one (b0 b1 b2 b3 : Byte) : byteOf (wordOfBytes b0 b1 b2 b3) 1 = b1 := by
  apply BitVec.eq_of_getLsbD_eq
  intro i hi
  simp only [byteOf, wordOfBytes, BitVec.getLsbD_append, BitVec.getLsbD_extractLsb', hi]
  simp [hi]

@[simp] theorem byteOf_wordOfBytes_two (b0 b1 b2 b3 : Byte) : byteOf (wordOfBytes b0 b1 b2 b3) 2 = b2 := by
  apply BitVec.eq_of_getLsbD_eq
  intro i hi
  simp only [byteOf, wordOfBytes, BitVec.getLsbD_append, BitVec.getLsbD_extractLsb', hi]
  simp [show ¬ 16 + i < 8 by omega, show 16 + i - 8 = 8 + i by omega, hi]

@[simp] theorem byteOf_wordOfBytes_three (b0 b1 b2 b3 : Byte) : byteOf (wordOfBytes b0 b1 b2 b3) 3 = b3 := by
  apply BitVec.eq_of_getLsbD_eq
  intro i hi
  simp only [byteOf, wordOfBytes, BitVec.getLsbD_append, BitVec.getLsbD_extractLsb', hi]
  simp [show ¬ 24 + i < 8 by omega, show 24 + i - 8 = 16 + i by omega, show ¬ 16 + i < 8 by omega,
    show 16 + i - 8 = 8 + i by omega, hi]

/-- Equal bytes, equal words. -/
theorem word_ext {v w : Word} (h0 : byteOf v 0 = byteOf w 0) (h1 : byteOf v 1 = byteOf w 1)
    (h2 : byteOf v 2 = byteOf w 2) (h3 : byteOf v 3 = byteOf w 3) : v = w := by
  apply BitVec.eq_of_getLsbD_eq
  intro i hi
  have key : ∀ j, byteOf v j = byteOf w j → ∀ k < 8, v.getLsbD (8 * j + k) = w.getLsbD (8 * j + k) := by
    intro j h k hk
    have := congrArg (fun x => x.getLsbD k) h
    simpa [byteOf, BitVec.getLsbD_extractLsb', hk] using this
  have : i / 8 = 0 ∨ i / 8 = 1 ∨ i / 8 = 2 ∨ i / 8 = 3 := by omega
  rcases this with h | h | h | h
  · simpa [show 8 * 0 + i = i by omega] using key 0 h0 i (by omega)
  · simpa [show 8 * 1 + (i - 8) = i by omega] using key 1 h1 (i - 8) (by omega)
  · simpa [show 8 * 2 + (i - 16) = i by omega] using key 2 h2 (i - 16) (by omega)
  · simpa [show 8 * 3 + (i - 24) = i by omega] using key 3 h3 (i - 24) (by omega)

@[simp] theorem wordOfBytes_byteOf (w : Word) :
    wordOfBytes (byteOf w 0) (byteOf w 1) (byteOf w 2) (byteOf w 3) = w :=
  word_ext (by simp) (by simp) (by simp) (by simp)

/-- A word reads as written. -/
theorem readWord_writeWord_same {mi : MemInit} {m : Memory} (h : Memory.wf mi m) (a : Nat) (w : Word) :
    readWord mi (writeWord mi m a w) a = w := by
  simp only [readWord, readByte_writeWord h]
  rw [if_pos (by omega), if_pos (by omega), if_pos (by omega), if_pos (by omega)]
  simp

/-- A word four bytes or more away reads as before. -/
theorem readWord_writeWord_other {mi : MemInit} {m : Memory} (h : Memory.wf mi m) {a x : Nat} (w : Word)
    (hx : x + 4 ≤ a ∨ a + 4 ≤ x) : readWord mi (writeWord mi m a w) x = readWord mi m x := by
  simp only [readWord, readByte_writeWord h]
  rw [if_neg (by omega), if_neg (by omega), if_neg (by omega), if_neg (by omega)]

theorem wordAddr_add (b r c i : Nat) : wordAddr b r (c + i) = wordAddr b r c + 4 * i := by
  unfold wordAddr
  omega

/-- Words of different triples do not overlap (20_memory.md R50). -/
theorem wordAddr_inj {b r c b' r' c' : Nat} (hr : r < 2 ^ 32) (hc : c < 2 ^ 32) (hr' : r' < 2 ^ 32)
    (hc' : c' < 2 ^ 32) (h : wordAddr b r c = wordAddr b' r' c') : b = b' ∧ r = r' ∧ c = c' := by
  unfold wordAddr at h
  omega

/-! ### Bursts and raw ranges -/

theorem memWrite_wf {mi : MemInit} {m : Memory} (h : Memory.wf mi m) (b r c : Nat) (slots : List Slot) :
    Memory.wf mi (memWrite mi m b r c slots) := by
  induction slots generalizing m c with
  | nil => exact h
  | cons s rest ih => exact ih (writeWord_wf h _ _) _

theorem memStore_wf {mi : MemInit} {m : Memory} (h : Memory.wf mi m) (b r c : Nat) (ws : List Word) :
    Memory.wf mi (memStore mi m b r c ws) := by
  induction ws generalizing m c with
  | nil => exact h
  | cons w rest ih => exact ih (writeWord_wf h _ _) _

/-- A burst write leaves every byte outside its words alone. -/
theorem readByte_memWrite_outside {mi : MemInit} {m : Memory} (h : Memory.wf mi m) (b r c : Nat) (slots : List Slot)
    {x : Nat} (hx : x < wordAddr b r c ∨ wordAddr b r c + 4 * slots.length ≤ x) :
    readByte mi (memWrite mi m b r c slots) x = readByte mi m x := by
  induction slots generalizing m c with
  | nil => rfl
  | cons s rest ih =>
    have hc := wordAddr_add b r c 1
    simp only [List.length_cons] at hx
    rw [memWrite, ih (writeWord_wf h _ _) _ (by omega), readByte_writeWord h, if_neg (by omega)]

/-- A raw write leaves every byte outside its words alone. -/
theorem readByte_memStore_outside {mi : MemInit} {m : Memory} (h : Memory.wf mi m) (b r c : Nat) (ws : List Word)
    {x : Nat} (hx : x < wordAddr b r c ∨ wordAddr b r c + 4 * ws.length ≤ x) :
    readByte mi (memStore mi m b r c ws) x = readByte mi m x := by
  induction ws generalizing m c with
  | nil => rfl
  | cons w rest ih =>
    have hc := wordAddr_add b r c 1
    simp only [List.length_cons] at hx
    rw [memStore, ih (writeWord_wf h _ _) _ (by omega), readByte_writeWord h, if_neg (by omega)]

/-- The words a raw write stores. -/
theorem readWord_memStore {mi : MemInit} {m : Memory} (h : Memory.wf mi m) (b r c : Nat) (ws : List Word) (i : Nat)
    (hi : i < ws.length) : readWord mi (memStore mi m b r c ws) (wordAddr b r (c + i)) = ws[i] := by
  induction ws generalizing m c i with
  | nil => simp at hi
  | cons w rest ih =>
    cases i with
    | zero =>
      have h1 := wordAddr_add b r c 1
      have hw := writeWord_wf h (wordAddr b r c) w
      have key : ∀ k < 4, readByte mi (memStore mi (writeWord mi m (wordAddr b r c) w) b r (c + 1) rest)
          (wordAddr b r c + k) = readByte mi (writeWord mi m (wordAddr b r c) w) (wordAddr b r c + k) := fun k hk =>
        readByte_memStore_outside hw b r (c + 1) rest (by omega)
      have := readWord_writeWord_same h (wordAddr b r c) w
      simp only [readWord] at this
      simpa [memStore, readWord, key 1, key 2, key 3, by simpa using key 0 (by omega)] using this
    | succ j =>
      have : c + (j + 1) = c + 1 + j := by omega
      simpa [memStore, this] using ih (writeWord_wf h _ _) (c + 1) j (by simpa using hi)

@[simp] theorem memRead_length (mi : MemInit) (m : Memory) (b r c n : Nat) : (memRead mi m b r c n).length = n := by
  induction n generalizing c with
  | zero => rfl
  | succ n ih => simp [memRead, ih]

/-- The words a read gives, in order (20_memory.md R52). -/
theorem memRead_getElem (mi : MemInit) (m : Memory) (b r c n i : Nat) (hi : i < n) :
    (memRead mi m b r c n)[i]? = some (readWord mi m (wordAddr b r (c + i))) := by
  induction n generalizing c i with
  | zero => omega
  | succ n ih =>
    cases i with
    | zero => simp [memRead]
    | succ j =>
      have : c + (j + 1) = c + 1 + j := by omega
      simpa [memRead, this] using ih (c + 1) j (by omega)

@[simp] theorem wordsOfBytes_length (n : Nat) (data : List Byte) : (wordsOfBytes n data).length = n := by
  induction n generalizing data with
  | zero => rfl
  | succ n ih => simp [wordsOfBytes, ih]

/-- Bytes to words and back (20_memory.md R54). -/
theorem bytesOfWords_wordsOfBytes (n : Nat) (data : List Byte) (h : data.length = 4 * n) :
    bytesOfWords (wordsOfBytes n data) = data := by
  induction n generalizing data with
  | zero => simp [wordsOfBytes, bytesOfWords, List.length_eq_zero_iff.1 h]
  | succ n ih =>
    match data, h with
    | b0 :: b1 :: b2 :: b3 :: rest, h =>
      have : rest.length = 4 * n := by
        simp only [List.length_cons] at h
        omega
      simp [wordsOfBytes, bytesOfWords, ih rest this]

/-! ### Single bytes of words -/

/-- Byte `j` of a merge is the new byte where mask bit `j` is 1 (43_burst_buffer.md R171). -/
theorem byteOf_merge (old new : Word) (m : BitVec 4) (j : Nat) (hj : j < 4) :
    byteOf (merge old new m) j = if m.getLsbD j then byteOf new j else byteOf old j := by
  have h : j = 0 ∨ j = 1 ∨ j = 2 ∨ j = 3 := by omega
  rcases h with rfl | rfl | rfl | rfl <;> simp [merge]

theorem byteOf_readWord (mi : MemInit) (m : Memory) (a j : Nat) (hj : j < 4) :
    byteOf (readWord mi m a) j = readByte mi m (a + j) := by
  have h : j = 0 ∨ j = 1 ∨ j = 2 ∨ j = 3 := by omega
  rcases h with rfl | rfl | rfl | rfl <;> simp [readWord]

theorem readByte_writeWord_inside {mi : MemInit} {m : Memory} (h : Memory.wf mi m) (a : Nat) (w : Word) (j : Nat)
    (hj : j < 4) : readByte mi (writeWord mi m a w) (a + j) = byteOf w j := by
  rw [← byteOf_readWord _ _ _ _ hj, readWord_writeWord_same h]

/-- A masked write stores the bytes whose mask bit is 1 and keeps the others (20_memory.md R53). -/
theorem readByte_memWrite_inside {mi : MemInit} {m : Memory} (h : Memory.wf mi m) (b r c : Nat) (slots : List Slot)
    (i : Nat) (slot : Slot) (hi : slots[i]? = some slot) (j : Nat) (hj : j < 4) :
    readByte mi (memWrite mi m b r c slots) (wordAddr b r (c + i) + j) =
      if slot.mask.getLsbD j then byteOf slot.word j else readByte mi m (wordAddr b r (c + i) + j) := by
  induction slots generalizing c m i with
  | nil => simp at hi
  | cons x rest ih =>
    have hw := writeWord_wf h (wordAddr b r c) (merge (readWord mi m (wordAddr b r c)) x.word x.mask)
    have h1 := wordAddr_add b r c 1
    simp only [memWrite]
    cases i with
    | zero =>
      simp only [List.getElem?_cons_zero, Option.some.injEq] at hi
      subst hi
      simp only [Nat.add_zero]
      rw [readByte_memWrite_outside hw _ _ _ _ (by omega), readByte_writeWord_inside h _ _ _ hj,
        byteOf_merge _ _ _ _ hj, byteOf_readWord _ _ _ _ hj]
    | succ i =>
      have hi' := ih hw (c + 1) i (by simpa using hi)
      have h2 := wordAddr_add b r c (i + 1)
      rw [show c + 1 + i = c + (i + 1) by omega] at hi'
      rw [hi']
      congr 1
      rw [readByte_writeWord h, if_neg (by omega)]

/-! ### What an unlisted address reads as -/

/-- With MEM_INIT open an unlisted byte is a byte of MEM_INIT of its word (10_state.md R40). -/
theorem initByte_wordAddr (b r c j : Nat) (hr : r < 2 ^ 32) (hc : c < 2 ^ 32) (hj : j < 4) :
    initByte .unspecified (wordAddr b r c + j) = byteOf (Config.memInit b r c) j := by
  have split : ∀ k x y : Nat, y < k → (x * k + y) / k = x ∧ (x * k + y) % k = y := by
    intro k x y h
    rw [Nat.add_comm, Nat.add_mul_div_right _ _ (by omega), Nat.add_mul_mod_self_right, Nat.div_eq_of_lt h,
      Nat.mod_eq_of_lt h]
    exact ⟨Nat.zero_add x, rfl⟩
  unfold initByte wordAddr
  generalize (2 : Nat) ^ 32 = k at *
  obtain ⟨h1, h2⟩ := split 4 ((b * k + r) * k + c) j hj
  obtain ⟨h3, h4⟩ := split k (b * k + r) c hc
  obtain ⟨h5, h6⟩ := split k b r hr
  simp only [h1, h2, h3, h4, h5, h6]

/-- With nothing listed a word reads as MEM_INIT of its triple (10_state.md R40). -/
theorem readWord_nil_unspecified (b r c : Nat) (hr : r < 2 ^ 32) (hc : c < 2 ^ 32) :
    readWord .unspecified [] (wordAddr b r c) = Config.memInit b r c := by
  have h0 : initByte .unspecified (wordAddr b r c) = byteOf (Config.memInit b r c) 0 := by
    have h := initByte_wordAddr b r c 0 hr hc (by omega)
    rwa [Nat.add_zero] at h
  rw [readWord, readByte_nil, readByte_nil, readByte_nil, readByte_nil, h0, initByte_wordAddr b r c 1 hr hc (by omega),
    initByte_wordAddr b r c 2 hr hc (by omega), initByte_wordAddr b r c 3 hr hc (by omega), wordOfBytes_byteOf]

end Sys2Proof.Machine
end

