-- ==== Sys2Proof/Laws/Frames.lean ====
section
/-! SUPPORT. What each shared operation leaves alone, field by field, and what the shared operations can do at all. -/

namespace Sys2Proof.Machine

/-! ### Raising a fatal, and the guards -/

theorem running_iff (s : State) : running s = true ↔ s.fatal.flag = false ∧ s.configError = none := by
  simp [running]

/-- A fatal raised while none is recorded writes the record, and nothing else but the outputs (60 R220). -/
theorem raiseFatal_live {s : State} (h : s.fatal.flag = false) (c : Component) (o : Operation) (v : Invariant) (d : Nat) :
    raiseFatal c o v d s = withFatal c o v d s := by
  simp [raiseFatal, h, withFatal, State.setFatal]

/-- The first fatal raised is the one recorded (60 R224). -/
theorem raiseFatal_halted {s : State} (h : s.fatal.flag = true) (c : Component) (o : Operation) (v : Invariant) (d : Nat) :
    raiseFatal c o v d s = s := by
  simp [raiseFatal, h]

@[simp] theorem raiseFatal_flag (c : Component) (o : Operation) (v : Invariant) (d : Nat) (s : State) :
    (raiseFatal c o v d s).fatal.flag = true := by
  unfold raiseFatal
  split <;> simp_all

theorem whileLive_live {s : State} (h : s.fatal.flag = false) (f : State → State) : whileLive f s = f s := by
  simp [whileLive, h]

theorem whileLive_halted {s : State} (h : s.fatal.flag = true) (f : State → State) : whileLive f s = s := by
  simp [whileLive, h]

theorem whileRunning_running {s : State} (h : running s = true) (f : State → State) : whileRunning f s = f s := by
  simp [whileRunning, h]

theorem whileRunning_stopped {s : State} (h : running s = false) (f : State → State) : whileRunning f s = s := by
  simp [whileRunning, h]

@[simp] theorem raiseFatal_cfg (c : Component) (o : Operation) (v : Invariant) (d : Nat) (s : State) : (raiseFatal c o v d s).cfg = s.cfg := by
  unfold raiseFatal; split <;> simp

@[simp] theorem raiseFatal_configError (c : Component) (o : Operation) (v : Invariant) (d : Nat) (s : State) : (raiseFatal c o v d s).configError = s.configError := by
  unfold raiseFatal; split <;> simp

@[simp] theorem raiseFatal_cycle (c : Component) (o : Operation) (v : Invariant) (d : Nat) (s : State) : (raiseFatal c o v d s).cycle = s.cycle := by
  unfold raiseFatal; split <;> simp

@[simp] theorem raiseFatal_phase (c : Component) (o : Operation) (v : Invariant) (d : Nat) (s : State) : (raiseFatal c o v d s).phase = s.phase := by
  unfold raiseFatal; split <;> simp

@[simp] theorem raiseFatal_P (c : Component) (o : Operation) (v : Invariant) (d : Nat) (s : State) : (raiseFatal c o v d s).P = s.P := by
  unfold raiseFatal; split <;> simp

@[simp] theorem raiseFatal_M (c : Component) (o : Operation) (v : Invariant) (d : Nat) (s : State) : (raiseFatal c o v d s).M = s.M := by
  unfold raiseFatal; split <;> simp

@[simp] theorem raiseFatal_phys (c : Component) (o : Operation) (v : Invariant) (d : Nat) (s : State) : (raiseFatal c o v d s).phys = s.phys := by
  unfold raiseFatal; split <;> simp

@[simp] theorem raiseFatal_sched (c : Component) (o : Operation) (v : Invariant) (d : Nat) (s : State) : (raiseFatal c o v d s).sched = s.sched := by
  unfold raiseFatal; split <;> simp

@[simp] theorem raiseFatal_env (c : Component) (o : Operation) (v : Invariant) (d : Nat) (s : State) : (raiseFatal c o v d s).env = s.env := by
  unfold raiseFatal; split <;> simp

/-! ### The phases of a tick -/

@[simp] theorem clearTick_cfg (s : State) : (clearTick s).cfg = s.cfg := by
  rfl

@[simp] theorem clearTick_configError (s : State) : (clearTick s).configError = s.configError := by
  rfl

@[simp] theorem clearTick_cycle (s : State) : (clearTick s).cycle = s.cycle := by
  rfl

@[simp] theorem clearTick_phase (s : State) : (clearTick s).phase = s.phase := by
  rfl

@[simp] theorem clearTick_P (s : State) : (clearTick s).P = s.P := by
  rfl

@[simp] theorem clearTick_M (s : State) : (clearTick s).M = s.M := by
  rfl

@[simp] theorem clearTick_fatal (s : State) : (clearTick s).fatal = s.fatal := by
  rfl

@[simp] theorem clearTick_out (s : State) : (clearTick s).out = s.out := by
  rfl

@[simp] theorem clearTick_env (s : State) : (clearTick s).env = s.env := by
  rfl

@[simp] theorem phaseS1_cfg (s : State) : (phaseS1 s).cfg = s.cfg := by
  rfl

@[simp] theorem phaseS1_configError (s : State) : (phaseS1 s).configError = s.configError := by
  rfl

@[simp] theorem phaseS1_cycle (s : State) : (phaseS1 s).cycle = s.cycle := by
  rfl

@[simp] theorem phaseS1_phase (s : State) : (phaseS1 s).phase = s.phase := by
  rfl

@[simp] theorem phaseS1_sched (s : State) : (phaseS1 s).sched = s.sched := by
  rfl

@[simp] theorem phaseS1_fatal (s : State) : (phaseS1 s).fatal = s.fatal := by
  rfl

@[simp] theorem phaseS1_out (s : State) : (phaseS1 s).out = s.out := by
  rfl

@[simp] theorem phaseS1_env (s : State) : (phaseS1 s).env = s.env := by
  rfl

@[simp] theorem takeTxn_cfg (s : State) : (takeTxn s).cfg = s.cfg := by
  unfold takeTxn; split <;> [rfl; (dsimp only; split <;> rfl)]

@[simp] theorem takeTxn_configError (s : State) : (takeTxn s).configError = s.configError := by
  unfold takeTxn; split <;> [rfl; (dsimp only; split <;> rfl)]

@[simp] theorem takeTxn_cycle (s : State) : (takeTxn s).cycle = s.cycle := by
  unfold takeTxn; split <;> [rfl; (dsimp only; split <;> rfl)]

@[simp] theorem takeTxn_phase (s : State) : (takeTxn s).phase = s.phase := by
  unfold takeTxn; split <;> [rfl; (dsimp only; split <;> rfl)]

@[simp] theorem takeTxn_P (s : State) : (takeTxn s).P = s.P := by
  unfold takeTxn; split <;> [rfl; (dsimp only; split <;> rfl)]

@[simp] theorem takeTxn_M (s : State) : (takeTxn s).M = s.M := by
  unfold takeTxn; split <;> [rfl; (dsimp only; split <;> rfl)]

@[simp] theorem takeTxn_phys (s : State) : (takeTxn s).phys = s.phys := by
  unfold takeTxn; split <;> [rfl; (dsimp only; split <;> rfl)]

@[simp] theorem takeTxn_fatal (s : State) : (takeTxn s).fatal = s.fatal := by
  unfold takeTxn; split <;> [rfl; (dsimp only; split <;> rfl)]

@[simp] theorem takeTxn_out (s : State) : (takeTxn s).out = s.out := by
  unfold takeTxn; split <;> [rfl; (dsimp only; split <;> rfl)]

@[simp] theorem takeReply_cfg (s : State) : (takeReply s).cfg = s.cfg := by
  unfold takeReply; split <;> rfl

@[simp] theorem takeReply_configError (s : State) : (takeReply s).configError = s.configError := by
  unfold takeReply; split <;> rfl

@[simp] theorem takeReply_cycle (s : State) : (takeReply s).cycle = s.cycle := by
  unfold takeReply; split <;> rfl

@[simp] theorem takeReply_phase (s : State) : (takeReply s).phase = s.phase := by
  unfold takeReply; split <;> rfl

@[simp] theorem takeReply_P (s : State) : (takeReply s).P = s.P := by
  unfold takeReply; split <;> rfl

@[simp] theorem takeReply_M (s : State) : (takeReply s).M = s.M := by
  unfold takeReply; split <;> rfl

@[simp] theorem takeReply_phys (s : State) : (takeReply s).phys = s.phys := by
  unfold takeReply; split <;> rfl

@[simp] theorem takeReply_fatal (s : State) : (takeReply s).fatal = s.fatal := by
  unfold takeReply; split <;> rfl

@[simp] theorem takeReply_out (s : State) : (takeReply s).out = s.out := by
  unfold takeReply; split <;> rfl

@[simp] theorem takeReply_env (s : State) : (takeReply s).env = s.env := by
  unfold takeReply; split <;> rfl

@[simp] theorem phaseS2_cfg (s : State) : (phaseS2 s).cfg = s.cfg := by
  simp [phaseS2]

@[simp] theorem phaseS2_configError (s : State) : (phaseS2 s).configError = s.configError := by
  simp [phaseS2]

@[simp] theorem phaseS2_cycle (s : State) : (phaseS2 s).cycle = s.cycle := by
  simp [phaseS2]

@[simp] theorem phaseS2_phase (s : State) : (phaseS2 s).phase = s.phase := by
  simp [phaseS2]

@[simp] theorem phaseS2_P (s : State) : (phaseS2 s).P = s.P := by
  simp [phaseS2]

@[simp] theorem phaseS2_M (s : State) : (phaseS2 s).M = s.M := by
  simp [phaseS2]

@[simp] theorem phaseS2_phys (s : State) : (phaseS2 s).phys = s.phys := by
  simp [phaseS2]

@[simp] theorem phaseS2_fatal (s : State) : (phaseS2 s).fatal = s.fatal := by
  simp [phaseS2]

@[simp] theorem phaseS2_out (s : State) : (phaseS2 s).out = s.out := by
  simp [phaseS2]

@[simp] theorem policyReturns_cfg (s : State) : (policyReturns s).cfg = s.cfg := by
  rfl

@[simp] theorem policyReturns_configError (s : State) : (policyReturns s).configError = s.configError := by
  rfl

@[simp] theorem policyReturns_cycle (s : State) : (policyReturns s).cycle = s.cycle := by
  rfl

@[simp] theorem policyReturns_phase (s : State) : (policyReturns s).phase = s.phase := by
  rfl

@[simp] theorem policyReturns_P (s : State) : (policyReturns s).P = s.P := by
  rfl

@[simp] theorem policyReturns_M (s : State) : (policyReturns s).M = s.M := by
  rfl

@[simp] theorem policyReturns_phys (s : State) : (policyReturns s).phys = s.phys := by
  rfl

@[simp] theorem policyReturns_fatal (s : State) : (policyReturns s).fatal = s.fatal := by
  rfl

@[simp] theorem policyReturns_out (s : State) : (policyReturns s).out = s.out := by
  rfl

@[simp] theorem policyReturns_env (s : State) : (policyReturns s).env = s.env := by
  rfl

@[simp] theorem schedulerOutputs_cfg (s : State) : (schedulerOutputs s).cfg = s.cfg := by
  rfl

@[simp] theorem schedulerOutputs_configError (s : State) : (schedulerOutputs s).configError = s.configError := by
  rfl

@[simp] theorem schedulerOutputs_cycle (s : State) : (schedulerOutputs s).cycle = s.cycle := by
  rfl

@[simp] theorem schedulerOutputs_phase (s : State) : (schedulerOutputs s).phase = s.phase := by
  rfl

@[simp] theorem schedulerOutputs_P (s : State) : (schedulerOutputs s).P = s.P := by
  rfl

@[simp] theorem schedulerOutputs_M (s : State) : (schedulerOutputs s).M = s.M := by
  rfl

@[simp] theorem schedulerOutputs_phys (s : State) : (schedulerOutputs s).phys = s.phys := by
  rfl

@[simp] theorem schedulerOutputs_fatal (s : State) : (schedulerOutputs s).fatal = s.fatal := by
  rfl

@[simp] theorem schedulerOutputs_env (s : State) : (schedulerOutputs s).env = s.env := by
  rfl

@[simp] theorem checkPublished_cfg (s : State) : (checkPublished s).cfg = s.cfg := by
  unfold checkPublished; split <;> simp

@[simp] theorem checkPublished_configError (s : State) : (checkPublished s).configError = s.configError := by
  unfold checkPublished; split <;> simp

@[simp] theorem checkPublished_cycle (s : State) : (checkPublished s).cycle = s.cycle := by
  unfold checkPublished; split <;> simp

@[simp] theorem checkPublished_phase (s : State) : (checkPublished s).phase = s.phase := by
  unfold checkPublished; split <;> simp

@[simp] theorem checkPublished_P (s : State) : (checkPublished s).P = s.P := by
  unfold checkPublished; split <;> simp

@[simp] theorem checkPublished_M (s : State) : (checkPublished s).M = s.M := by
  unfold checkPublished; split <;> simp

@[simp] theorem checkPublished_phys (s : State) : (checkPublished s).phys = s.phys := by
  unfold checkPublished; split <;> simp

@[simp] theorem checkPublished_sched (s : State) : (checkPublished s).sched = s.sched := by
  unfold checkPublished; split <;> simp

@[simp] theorem checkPublished_env (s : State) : (checkPublished s).env = s.env := by
  unfold checkPublished; split <;> simp

@[simp] theorem advanceCycle_cfg (s : State) : (advanceCycle s).cfg = s.cfg := by
  unfold advanceCycle; split <;> simp

@[simp] theorem advanceCycle_configError (s : State) : (advanceCycle s).configError = s.configError := by
  unfold advanceCycle; split <;> simp

@[simp] theorem advanceCycle_P (s : State) : (advanceCycle s).P = s.P := by
  unfold advanceCycle; split <;> simp

@[simp] theorem advanceCycle_M (s : State) : (advanceCycle s).M = s.M := by
  unfold advanceCycle; split <;> simp

@[simp] theorem advanceCycle_sched (s : State) : (advanceCycle s).sched = s.sched := by
  unfold advanceCycle; split <;> simp

@[simp] theorem advanceCycle_env (s : State) : (advanceCycle s).env = s.env := by
  unfold advanceCycle; split <;> simp

@[simp] theorem drainPins_cfg (s : State) : (drainPins s).cfg = s.cfg := by
  unfold drainPins; dsimp only; repeat' split
  all_goals simp

@[simp] theorem drainPins_configError (s : State) : (drainPins s).configError = s.configError := by
  unfold drainPins; dsimp only; repeat' split
  all_goals simp

@[simp] theorem drainPins_cycle (s : State) : (drainPins s).cycle = s.cycle := by
  unfold drainPins; dsimp only; repeat' split
  all_goals simp

@[simp] theorem drainPins_phase (s : State) : (drainPins s).phase = s.phase := by
  unfold drainPins; dsimp only; repeat' split
  all_goals simp

@[simp] theorem drainPins_P (s : State) : (drainPins s).P = s.P := by
  unfold drainPins; dsimp only; repeat' split
  all_goals simp

@[simp] theorem drainPins_M (s : State) : (drainPins s).M = s.M := by
  unfold drainPins; dsimp only; repeat' split
  all_goals simp

@[simp] theorem drainPins_sched (s : State) : (drainPins s).sched = s.sched := by
  unfold drainPins; dsimp only; repeat' split
  all_goals simp

@[simp] theorem drainPins_env (s : State) : (drainPins s).env = s.env := by
  unfold drainPins; dsimp only; repeat' split
  all_goals simp

@[simp] theorem drainReadout_cfg (s : State) : (drainReadout s).cfg = s.cfg := by
  unfold drainReadout; dsimp only; repeat' split
  all_goals simp

@[simp] theorem drainReadout_configError (s : State) : (drainReadout s).configError = s.configError := by
  unfold drainReadout; dsimp only; repeat' split
  all_goals simp

@[simp] theorem drainReadout_cycle (s : State) : (drainReadout s).cycle = s.cycle := by
  unfold drainReadout; dsimp only; repeat' split
  all_goals simp

@[simp] theorem drainReadout_phase (s : State) : (drainReadout s).phase = s.phase := by
  unfold drainReadout; dsimp only; repeat' split
  all_goals simp

@[simp] theorem drainReadout_P (s : State) : (drainReadout s).P = s.P := by
  unfold drainReadout; dsimp only; repeat' split
  all_goals simp

@[simp] theorem drainReadout_M (s : State) : (drainReadout s).M = s.M := by
  unfold drainReadout; dsimp only; repeat' split
  all_goals simp

@[simp] theorem drainReadout_sched (s : State) : (drainReadout s).sched = s.sched := by
  unfold drainReadout; dsimp only; repeat' split
  all_goals simp

@[simp] theorem drainReadout_env (s : State) : (drainReadout s).env = s.env := by
  unfold drainReadout; dsimp only; repeat' split
  all_goals simp

@[simp] theorem drainReadin_cfg (s : State) : (drainReadin s).cfg = s.cfg := by
  unfold drainReadin; dsimp only; repeat' split
  all_goals simp

@[simp] theorem drainReadin_configError (s : State) : (drainReadin s).configError = s.configError := by
  unfold drainReadin; dsimp only; repeat' split
  all_goals simp

@[simp] theorem drainReadin_cycle (s : State) : (drainReadin s).cycle = s.cycle := by
  unfold drainReadin; dsimp only; repeat' split
  all_goals simp

@[simp] theorem drainReadin_phase (s : State) : (drainReadin s).phase = s.phase := by
  unfold drainReadin; dsimp only; repeat' split
  all_goals simp

@[simp] theorem drainReadin_P (s : State) : (drainReadin s).P = s.P := by
  unfold drainReadin; dsimp only; repeat' split
  all_goals simp

@[simp] theorem drainReadin_M (s : State) : (drainReadin s).M = s.M := by
  unfold drainReadin; dsimp only; repeat' split
  all_goals simp

@[simp] theorem drainReadin_sched (s : State) : (drainReadin s).sched = s.sched := by
  unfold drainReadin; dsimp only; repeat' split
  all_goals simp

@[simp] theorem drainReadin_env (s : State) : (drainReadin s).env = s.env := by
  unfold drainReadin; dsimp only; repeat' split
  all_goals simp

/-! ### Acceptance -/

@[simp] theorem acceptActive_cfg (bank : BitVec 16) (row : BitVec 32) (s : State) : (acceptActive bank row s).cfg = s.cfg := by
  rfl

@[simp] theorem acceptActive_configError (bank : BitVec 16) (row : BitVec 32) (s : State) : (acceptActive bank row s).configError = s.configError := by
  rfl

@[simp] theorem acceptActive_cycle (bank : BitVec 16) (row : BitVec 32) (s : State) : (acceptActive bank row s).cycle = s.cycle := by
  rfl

@[simp] theorem acceptActive_phase (bank : BitVec 16) (row : BitVec 32) (s : State) : (acceptActive bank row s).phase = s.phase := by
  rfl

@[simp] theorem acceptActive_P (bank : BitVec 16) (row : BitVec 32) (s : State) : (acceptActive bank row s).P = s.P := by
  rfl

@[simp] theorem acceptActive_sched (bank : BitVec 16) (row : BitVec 32) (s : State) : (acceptActive bank row s).sched = s.sched := by
  rfl

@[simp] theorem acceptActive_env (bank : BitVec 16) (row : BitVec 32) (s : State) : (acceptActive bank row s).env = s.env := by
  rfl

@[simp] theorem acceptActive_fatal (bank : BitVec 16) (row : BitVec 32) (s : State) : (acceptActive bank row s).fatal = s.fatal := by
  rfl

@[simp] theorem acceptActive_out (bank : BitVec 16) (row : BitVec 32) (s : State) : (acceptActive bank row s).out = s.out := by
  rfl

@[simp] theorem acceptRead_cfg (bank : BitVec 16) (col : BitVec 32) (ap : Bool) (s : State) : (acceptRead bank col ap s).cfg = s.cfg := by
  unfold acceptRead; split <;> simp

@[simp] theorem acceptRead_configError (bank : BitVec 16) (col : BitVec 32) (ap : Bool) (s : State) : (acceptRead bank col ap s).configError = s.configError := by
  unfold acceptRead; split <;> simp

@[simp] theorem acceptRead_cycle (bank : BitVec 16) (col : BitVec 32) (ap : Bool) (s : State) : (acceptRead bank col ap s).cycle = s.cycle := by
  unfold acceptRead; split <;> simp

@[simp] theorem acceptRead_phase (bank : BitVec 16) (col : BitVec 32) (ap : Bool) (s : State) : (acceptRead bank col ap s).phase = s.phase := by
  unfold acceptRead; split <;> simp

@[simp] theorem acceptRead_P (bank : BitVec 16) (col : BitVec 32) (ap : Bool) (s : State) : (acceptRead bank col ap s).P = s.P := by
  unfold acceptRead; split <;> simp

@[simp] theorem acceptRead_sched (bank : BitVec 16) (col : BitVec 32) (ap : Bool) (s : State) : (acceptRead bank col ap s).sched = s.sched := by
  unfold acceptRead; split <;> simp

@[simp] theorem acceptRead_env (bank : BitVec 16) (col : BitVec 32) (ap : Bool) (s : State) : (acceptRead bank col ap s).env = s.env := by
  unfold acceptRead; split <;> simp

@[simp] theorem acceptWrite_cfg (bank : BitVec 16) (col : BitVec 32) (burst : Burst) (ap : Bool) (s : State) : (acceptWrite bank col burst ap s).cfg = s.cfg := by
  unfold acceptWrite; split <;> simp

@[simp] theorem acceptWrite_configError (bank : BitVec 16) (col : BitVec 32) (burst : Burst) (ap : Bool) (s : State) : (acceptWrite bank col burst ap s).configError = s.configError := by
  unfold acceptWrite; split <;> simp

@[simp] theorem acceptWrite_cycle (bank : BitVec 16) (col : BitVec 32) (burst : Burst) (ap : Bool) (s : State) : (acceptWrite bank col burst ap s).cycle = s.cycle := by
  unfold acceptWrite; split <;> simp

@[simp] theorem acceptWrite_phase (bank : BitVec 16) (col : BitVec 32) (burst : Burst) (ap : Bool) (s : State) : (acceptWrite bank col burst ap s).phase = s.phase := by
  unfold acceptWrite; split <;> simp

@[simp] theorem acceptWrite_P (bank : BitVec 16) (col : BitVec 32) (burst : Burst) (ap : Bool) (s : State) : (acceptWrite bank col burst ap s).P = s.P := by
  unfold acceptWrite; split <;> simp

@[simp] theorem acceptWrite_sched (bank : BitVec 16) (col : BitVec 32) (burst : Burst) (ap : Bool) (s : State) : (acceptWrite bank col burst ap s).sched = s.sched := by
  unfold acceptWrite; split <;> simp

@[simp] theorem acceptWrite_env (bank : BitVec 16) (col : BitVec 32) (burst : Burst) (ap : Bool) (s : State) : (acceptWrite bank col burst ap s).env = s.env := by
  unfold acceptWrite; split <;> simp

@[simp] theorem acceptPrecharge_cfg (bank : BitVec 16) (s : State) : (acceptPrecharge bank s).cfg = s.cfg := by
  rfl

@[simp] theorem acceptPrecharge_configError (bank : BitVec 16) (s : State) : (acceptPrecharge bank s).configError = s.configError := by
  rfl

@[simp] theorem acceptPrecharge_cycle (bank : BitVec 16) (s : State) : (acceptPrecharge bank s).cycle = s.cycle := by
  rfl

@[simp] theorem acceptPrecharge_phase (bank : BitVec 16) (s : State) : (acceptPrecharge bank s).phase = s.phase := by
  rfl

@[simp] theorem acceptPrecharge_P (bank : BitVec 16) (s : State) : (acceptPrecharge bank s).P = s.P := by
  rfl

@[simp] theorem acceptPrecharge_sched (bank : BitVec 16) (s : State) : (acceptPrecharge bank s).sched = s.sched := by
  rfl

@[simp] theorem acceptPrecharge_env (bank : BitVec 16) (s : State) : (acceptPrecharge bank s).env = s.env := by
  rfl

@[simp] theorem acceptPrecharge_fatal (bank : BitVec 16) (s : State) : (acceptPrecharge bank s).fatal = s.fatal := by
  rfl

@[simp] theorem acceptPrecharge_out (bank : BitVec 16) (s : State) : (acceptPrecharge bank s).out = s.out := by
  rfl

@[simp] theorem acceptPrecharge_phys (bank : BitVec 16) (s : State) : (acceptPrecharge bank s).phys = s.phys := by
  rfl

@[simp] theorem acceptDummy_cfg (cons : BitVec 5) (s : State) : (acceptDummy cons s).cfg = s.cfg := by
  unfold acceptDummy; split <;> rfl

@[simp] theorem acceptDummy_configError (cons : BitVec 5) (s : State) : (acceptDummy cons s).configError = s.configError := by
  unfold acceptDummy; split <;> rfl

@[simp] theorem acceptDummy_cycle (cons : BitVec 5) (s : State) : (acceptDummy cons s).cycle = s.cycle := by
  unfold acceptDummy; split <;> rfl

@[simp] theorem acceptDummy_phase (cons : BitVec 5) (s : State) : (acceptDummy cons s).phase = s.phase := by
  unfold acceptDummy; split <;> rfl

@[simp] theorem acceptDummy_P (cons : BitVec 5) (s : State) : (acceptDummy cons s).P = s.P := by
  unfold acceptDummy; split <;> rfl

@[simp] theorem acceptDummy_sched (cons : BitVec 5) (s : State) : (acceptDummy cons s).sched = s.sched := by
  unfold acceptDummy; split <;> rfl

@[simp] theorem acceptDummy_env (cons : BitVec 5) (s : State) : (acceptDummy cons s).env = s.env := by
  unfold acceptDummy; split <;> rfl

@[simp] theorem acceptDummy_fatal (cons : BitVec 5) (s : State) : (acceptDummy cons s).fatal = s.fatal := by
  unfold acceptDummy; split <;> rfl

@[simp] theorem acceptDummy_out (cons : BitVec 5) (s : State) : (acceptDummy cons s).out = s.out := by
  unfold acceptDummy; split <;> rfl

@[simp] theorem acceptDummy_M (cons : BitVec 5) (s : State) : (acceptDummy cons s).M = s.M := by
  unfold acceptDummy; split <;> rfl

@[simp] theorem accept_cfg (cmd : Command) (s : State) : (accept cmd s).cfg = s.cfg := by
  cases cmd <;> simp only [accept, acceptChecked] <;> repeat' split
  all_goals simp

@[simp] theorem accept_configError (cmd : Command) (s : State) : (accept cmd s).configError = s.configError := by
  cases cmd <;> simp only [accept, acceptChecked] <;> repeat' split
  all_goals simp

@[simp] theorem accept_cycle (cmd : Command) (s : State) : (accept cmd s).cycle = s.cycle := by
  cases cmd <;> simp only [accept, acceptChecked] <;> repeat' split
  all_goals simp

@[simp] theorem accept_phase (cmd : Command) (s : State) : (accept cmd s).phase = s.phase := by
  cases cmd <;> simp only [accept, acceptChecked] <;> repeat' split
  all_goals simp

@[simp] theorem accept_P (cmd : Command) (s : State) : (accept cmd s).P = s.P := by
  cases cmd <;> simp only [accept, acceptChecked] <;> repeat' split
  all_goals simp

@[simp] theorem accept_sched (cmd : Command) (s : State) : (accept cmd s).sched = s.sched := by
  cases cmd <;> simp only [accept, acceptChecked] <;> repeat' split
  all_goals simp

@[simp] theorem accept_env (cmd : Command) (s : State) : (accept cmd s).env = s.env := by
  cases cmd <;> simp only [accept, acceptChecked] <;> repeat' split
  all_goals simp

@[simp] theorem acceptBus_cfg (s : State) : (acceptBus s).cfg = s.cfg := by
  unfold acceptBus; split <;> simp

@[simp] theorem acceptBus_configError (s : State) : (acceptBus s).configError = s.configError := by
  unfold acceptBus; split <;> simp

@[simp] theorem acceptBus_cycle (s : State) : (acceptBus s).cycle = s.cycle := by
  unfold acceptBus; split <;> simp

@[simp] theorem acceptBus_phase (s : State) : (acceptBus s).phase = s.phase := by
  unfold acceptBus; split <;> simp

@[simp] theorem acceptBus_P (s : State) : (acceptBus s).P = s.P := by
  unfold acceptBus; split <;> simp

@[simp] theorem acceptBus_sched (s : State) : (acceptBus s).sched = s.sched := by
  unfold acceptBus; split <;> simp

@[simp] theorem acceptBus_env (s : State) : (acceptBus s).env = s.env := by
  unfold acceptBus; split <;> simp

/-! ### Issuing -/

@[simp] theorem sendCommand_cfg (cmd : Command) (s : State) : (sendCommand cmd s).cfg = s.cfg := by
  rfl

@[simp] theorem sendCommand_configError (cmd : Command) (s : State) : (sendCommand cmd s).configError = s.configError := by
  rfl

@[simp] theorem sendCommand_cycle (cmd : Command) (s : State) : (sendCommand cmd s).cycle = s.cycle := by
  rfl

@[simp] theorem sendCommand_phase (cmd : Command) (s : State) : (sendCommand cmd s).phase = s.phase := by
  rfl

@[simp] theorem sendCommand_P (cmd : Command) (s : State) : (sendCommand cmd s).P = s.P := by
  rfl

@[simp] theorem sendCommand_M (cmd : Command) (s : State) : (sendCommand cmd s).M = s.M := by
  rfl

@[simp] theorem sendCommand_phys (cmd : Command) (s : State) : (sendCommand cmd s).phys = s.phys := by
  rfl

@[simp] theorem sendCommand_fatal (cmd : Command) (s : State) : (sendCommand cmd s).fatal = s.fatal := by
  rfl

@[simp] theorem sendCommand_out (cmd : Command) (s : State) : (sendCommand cmd s).out = s.out := by
  rfl

@[simp] theorem sendCommand_env (cmd : Command) (s : State) : (sendCommand cmd s).env = s.env := by
  rfl

@[simp] theorem noteCommand_cfg (cmd : Command) (s : State) : (noteCommand cmd s).cfg = s.cfg := by
  rfl

@[simp] theorem noteCommand_configError (cmd : Command) (s : State) : (noteCommand cmd s).configError = s.configError := by
  rfl

@[simp] theorem noteCommand_cycle (cmd : Command) (s : State) : (noteCommand cmd s).cycle = s.cycle := by
  rfl

@[simp] theorem noteCommand_phase (cmd : Command) (s : State) : (noteCommand cmd s).phase = s.phase := by
  rfl

@[simp] theorem noteCommand_P (cmd : Command) (s : State) : (noteCommand cmd s).P = s.P := by
  rfl

@[simp] theorem noteCommand_M (cmd : Command) (s : State) : (noteCommand cmd s).M = s.M := by
  rfl

@[simp] theorem noteCommand_phys (cmd : Command) (s : State) : (noteCommand cmd s).phys = s.phys := by
  rfl

@[simp] theorem noteCommand_fatal (cmd : Command) (s : State) : (noteCommand cmd s).fatal = s.fatal := by
  rfl

@[simp] theorem noteCommand_out (cmd : Command) (s : State) : (noteCommand cmd s).out = s.out := by
  rfl

@[simp] theorem noteCommand_env (cmd : Command) (s : State) : (noteCommand cmd s).env = s.env := by
  rfl

@[simp] theorem issueUnchecked_cfg (cmd : Command) (s : State) : (issueUnchecked cmd s).cfg = s.cfg := by
  unfold issueUnchecked useSlot; split <;> simp

@[simp] theorem issueUnchecked_configError (cmd : Command) (s : State) : (issueUnchecked cmd s).configError = s.configError := by
  unfold issueUnchecked useSlot; split <;> simp

@[simp] theorem issueUnchecked_cycle (cmd : Command) (s : State) : (issueUnchecked cmd s).cycle = s.cycle := by
  unfold issueUnchecked useSlot; split <;> simp

@[simp] theorem issueUnchecked_phase (cmd : Command) (s : State) : (issueUnchecked cmd s).phase = s.phase := by
  unfold issueUnchecked useSlot; split <;> simp

@[simp] theorem issueUnchecked_P (cmd : Command) (s : State) : (issueUnchecked cmd s).P = s.P := by
  unfold issueUnchecked useSlot; split <;> simp

@[simp] theorem issueUnchecked_M (cmd : Command) (s : State) : (issueUnchecked cmd s).M = s.M := by
  unfold issueUnchecked useSlot; split <;> simp

@[simp] theorem issueUnchecked_phys (cmd : Command) (s : State) : (issueUnchecked cmd s).phys = s.phys := by
  unfold issueUnchecked useSlot; split <;> simp

@[simp] theorem issueUnchecked_env (cmd : Command) (s : State) : (issueUnchecked cmd s).env = s.env := by
  unfold issueUnchecked useSlot; split <;> simp

@[simp] theorem postAndSend_cfg (cmd : Command) (s : State) : (postAndSend cmd s).cfg = s.cfg := by
  unfold postAndSend; split <;> simp

@[simp] theorem postAndSend_configError (cmd : Command) (s : State) : (postAndSend cmd s).configError = s.configError := by
  unfold postAndSend; split <;> simp

@[simp] theorem postAndSend_cycle (cmd : Command) (s : State) : (postAndSend cmd s).cycle = s.cycle := by
  unfold postAndSend; split <;> simp

@[simp] theorem postAndSend_phase (cmd : Command) (s : State) : (postAndSend cmd s).phase = s.phase := by
  unfold postAndSend; split <;> simp

@[simp] theorem postAndSend_M (cmd : Command) (s : State) : (postAndSend cmd s).M = s.M := by
  unfold postAndSend; split <;> simp

@[simp] theorem postAndSend_phys (cmd : Command) (s : State) : (postAndSend cmd s).phys = s.phys := by
  unfold postAndSend; split <;> simp

@[simp] theorem postAndSend_env (cmd : Command) (s : State) : (postAndSend cmd s).env = s.env := by
  unfold postAndSend; split <;> simp

@[simp] theorem checkAndPost_cfg (cmd : Command) (s : State) : (checkAndPost cmd s).cfg = s.cfg := by
  unfold checkAndPost; split <;> simp

@[simp] theorem checkAndPost_configError (cmd : Command) (s : State) : (checkAndPost cmd s).configError = s.configError := by
  unfold checkAndPost; split <;> simp

@[simp] theorem checkAndPost_cycle (cmd : Command) (s : State) : (checkAndPost cmd s).cycle = s.cycle := by
  unfold checkAndPost; split <;> simp

@[simp] theorem checkAndPost_phase (cmd : Command) (s : State) : (checkAndPost cmd s).phase = s.phase := by
  unfold checkAndPost; split <;> simp

@[simp] theorem checkAndPost_M (cmd : Command) (s : State) : (checkAndPost cmd s).M = s.M := by
  unfold checkAndPost; split <;> simp

@[simp] theorem checkAndPost_phys (cmd : Command) (s : State) : (checkAndPost cmd s).phys = s.phys := by
  unfold checkAndPost; split <;> simp

@[simp] theorem checkAndPost_env (cmd : Command) (s : State) : (checkAndPost cmd s).env = s.env := by
  unfold checkAndPost; split <;> simp

@[simp] theorem issue_cfg (cmd : Command) (s : State) : (issue cmd s).cfg = s.cfg := by
  unfold issue useSlot; split <;> simp

@[simp] theorem issue_configError (cmd : Command) (s : State) : (issue cmd s).configError = s.configError := by
  unfold issue useSlot; split <;> simp

@[simp] theorem issue_cycle (cmd : Command) (s : State) : (issue cmd s).cycle = s.cycle := by
  unfold issue useSlot; split <;> simp

@[simp] theorem issue_phase (cmd : Command) (s : State) : (issue cmd s).phase = s.phase := by
  unfold issue useSlot; split <;> simp

@[simp] theorem issue_M (cmd : Command) (s : State) : (issue cmd s).M = s.M := by
  unfold issue useSlot; split <;> simp

@[simp] theorem issue_phys (cmd : Command) (s : State) : (issue cmd s).phys = s.phys := by
  unfold issue useSlot; split <;> simp

@[simp] theorem issue_env (cmd : Command) (s : State) : (issue cmd s).env = s.env := by
  unfold issue useSlot; split <;> simp

/-! ### The other operations -/

@[simp] theorem query_cfg (kind : BitVec 3) (bank : BitVec 16) (s : State) : (query kind bank s).cfg = s.cfg := by
  unfold query; split <;> simp

@[simp] theorem query_configError (kind : BitVec 3) (bank : BitVec 16) (s : State) : (query kind bank s).configError = s.configError := by
  unfold query; split <;> simp

@[simp] theorem query_cycle (kind : BitVec 3) (bank : BitVec 16) (s : State) : (query kind bank s).cycle = s.cycle := by
  unfold query; split <;> simp

@[simp] theorem query_phase (kind : BitVec 3) (bank : BitVec 16) (s : State) : (query kind bank s).phase = s.phase := by
  unfold query; split <;> simp

@[simp] theorem query_P (kind : BitVec 3) (bank : BitVec 16) (s : State) : (query kind bank s).P = s.P := by
  unfold query; split <;> simp

@[simp] theorem query_M (kind : BitVec 3) (bank : BitVec 16) (s : State) : (query kind bank s).M = s.M := by
  unfold query; split <;> simp

@[simp] theorem query_phys (kind : BitVec 3) (bank : BitVec 16) (s : State) : (query kind bank s).phys = s.phys := by
  unfold query; split <;> simp

@[simp] theorem answerSplit_cfg (h : TxnHeader) (cs : List Command) (s : State) : (answerSplit h cs s).cfg = s.cfg := by
  unfold answerSplit; split <;> simp

@[simp] theorem answerSplit_configError (h : TxnHeader) (cs : List Command) (s : State) : (answerSplit h cs s).configError = s.configError := by
  unfold answerSplit; split <;> simp

@[simp] theorem answerSplit_cycle (h : TxnHeader) (cs : List Command) (s : State) : (answerSplit h cs s).cycle = s.cycle := by
  unfold answerSplit; split <;> simp

@[simp] theorem answerSplit_phase (h : TxnHeader) (cs : List Command) (s : State) : (answerSplit h cs s).phase = s.phase := by
  unfold answerSplit; split <;> simp

@[simp] theorem answerSplit_P (h : TxnHeader) (cs : List Command) (s : State) : (answerSplit h cs s).P = s.P := by
  unfold answerSplit; split <;> simp

@[simp] theorem answerSplit_M (h : TxnHeader) (cs : List Command) (s : State) : (answerSplit h cs s).M = s.M := by
  unfold answerSplit; split <;> simp

@[simp] theorem answerSplit_phys (h : TxnHeader) (cs : List Command) (s : State) : (answerSplit h cs s).phys = s.phys := by
  unfold answerSplit; split <;> simp

@[simp] theorem answerSplit_sched (h : TxnHeader) (cs : List Command) (s : State) : (answerSplit h cs s).sched = s.sched := by
  unfold answerSplit; split <;> simp

@[simp] theorem publish_cfg (state : List Admit) (s : State) : (publish state s).cfg = s.cfg := by
  unfold publish; split <;> simp

@[simp] theorem publish_configError (state : List Admit) (s : State) : (publish state s).configError = s.configError := by
  unfold publish; split <;> simp

@[simp] theorem publish_cycle (state : List Admit) (s : State) : (publish state s).cycle = s.cycle := by
  unfold publish; split <;> simp

@[simp] theorem publish_phase (state : List Admit) (s : State) : (publish state s).phase = s.phase := by
  unfold publish; split <;> simp

@[simp] theorem publish_P (state : List Admit) (s : State) : (publish state s).P = s.P := by
  unfold publish; split <;> simp

@[simp] theorem publish_M (state : List Admit) (s : State) : (publish state s).M = s.M := by
  unfold publish; split <;> simp

@[simp] theorem publish_phys (state : List Admit) (s : State) : (publish state s).phys = s.phys := by
  unfold publish; split <;> simp

@[simp] theorem publish_env (state : List Admit) (s : State) : (publish state s).env = s.env := by
  unfold publish; split <;> simp

@[simp] theorem rawRead_cfg (bank : BitVec 16) (row col nbytes : BitVec 32) (s : State) : (rawRead bank row col nbytes s).cfg = s.cfg := by
  unfold rawRead; split <;> simp

@[simp] theorem rawRead_configError (bank : BitVec 16) (row col nbytes : BitVec 32) (s : State) : (rawRead bank row col nbytes s).configError = s.configError := by
  unfold rawRead; split <;> simp

@[simp] theorem rawRead_cycle (bank : BitVec 16) (row col nbytes : BitVec 32) (s : State) : (rawRead bank row col nbytes s).cycle = s.cycle := by
  unfold rawRead; split <;> simp

@[simp] theorem rawRead_phase (bank : BitVec 16) (row col nbytes : BitVec 32) (s : State) : (rawRead bank row col nbytes s).phase = s.phase := by
  unfold rawRead; split <;> simp

@[simp] theorem rawRead_P (bank : BitVec 16) (row col nbytes : BitVec 32) (s : State) : (rawRead bank row col nbytes s).P = s.P := by
  unfold rawRead; split <;> simp

@[simp] theorem rawRead_M (bank : BitVec 16) (row col nbytes : BitVec 32) (s : State) : (rawRead bank row col nbytes s).M = s.M := by
  unfold rawRead; split <;> simp

@[simp] theorem rawRead_phys (bank : BitVec 16) (row col nbytes : BitVec 32) (s : State) : (rawRead bank row col nbytes s).phys = s.phys := by
  unfold rawRead; split <;> simp

@[simp] theorem rawRead_sched (bank : BitVec 16) (row col nbytes : BitVec 32) (s : State) : (rawRead bank row col nbytes s).sched = s.sched := by
  unfold rawRead; split <;> simp

@[simp] theorem rawWrite_cfg (bank : BitVec 16) (row col nbytes : BitVec 32) (data : List Byte) (s : State) : (rawWrite bank row col nbytes data s).cfg = s.cfg := by
  unfold rawWrite; split <;> simp

@[simp] theorem rawWrite_configError (bank : BitVec 16) (row col nbytes : BitVec 32) (data : List Byte) (s : State) : (rawWrite bank row col nbytes data s).configError = s.configError := by
  unfold rawWrite; split <;> simp

@[simp] theorem rawWrite_cycle (bank : BitVec 16) (row col nbytes : BitVec 32) (data : List Byte) (s : State) : (rawWrite bank row col nbytes data s).cycle = s.cycle := by
  unfold rawWrite; split <;> simp

@[simp] theorem rawWrite_phase (bank : BitVec 16) (row col nbytes : BitVec 32) (data : List Byte) (s : State) : (rawWrite bank row col nbytes data s).phase = s.phase := by
  unfold rawWrite; split <;> simp

@[simp] theorem rawWrite_P (bank : BitVec 16) (row col nbytes : BitVec 32) (data : List Byte) (s : State) : (rawWrite bank row col nbytes data s).P = s.P := by
  unfold rawWrite; split <;> simp

@[simp] theorem rawWrite_M (bank : BitVec 16) (row col nbytes : BitVec 32) (data : List Byte) (s : State) : (rawWrite bank row col nbytes data s).M = s.M := by
  unfold rawWrite; split <;> simp

@[simp] theorem rawWrite_sched (bank : BitVec 16) (row col nbytes : BitVec 32) (data : List Byte) (s : State) : (rawWrite bank row col nbytes data s).sched = s.sched := by
  unfold rawWrite; split <;> simp

@[simp] theorem rawWrite_env (bank : BitVec 16) (row col nbytes : BitVec 32) (data : List Byte) (s : State) : (rawWrite bank row col nbytes data s).env = s.env := by
  unfold rawWrite; split <;> simp

end Sys2Proof.Machine
end

