-- ==== Sys2Proof/Laws/Banks.lean ====
section
/-! SUPPORT. The laws of the timing state: what a commit and the passive transitions do to each bank record, and what a
constraint that answers `None` says. -/

namespace Sys2Proof.Machine

/-! ### Bank records -/

theorem bankAt_of_lt {T : Timing} {b : Nat} (h : b < T.banks.length) : bankAt T b = T.banks[b] := by
  simp [bankAt, List.getD, h]

theorem bankAt_of_ge {T : Timing} {b : Nat} (h : T.banks.length ≤ b) : bankAt T b = BankRec.reset := by
  simp [bankAt, List.getD, h]

theorem bankAt_mem {T : Timing} {b : Nat} (h : b < T.banks.length) : bankAt T b ∈ T.banks := by
  simp [bankAt_of_lt h]

/-- A bank whose record is not the reset record exists. -/
theorem bank_lt_of_status {T : Timing} {b : Nat} (h : (bankAt T b).status ≠ .idle) : b < T.banks.length := by
  by_contra hb
  exact h (by rw [bankAt_of_ge (by omega)]; rfl)

@[simp] theorem updateBank_length (T : Timing) (b : Nat) (f : BankRec → BankRec) :
    (updateBank T b f).banks.length = T.banks.length := by
  simp [updateBank]

@[simp] theorem updateBank_lastActive (T : Timing) (b : Nat) (f : BankRec → BankRec) :
    (updateBank T b f).lastActive = T.lastActive := rfl

@[simp] theorem updateBank_lastRead (T : Timing) (b : Nat) (f : BankRec → BankRec) :
    (updateBank T b f).lastRead = T.lastRead := rfl

@[simp] theorem updateBank_lastWrite (T : Timing) (b : Nat) (f : BankRec → BankRec) :
    (updateBank T b f).lastWrite = T.lastWrite := rfl

/-- The updated bank, where there is one, and every other bank as before. -/
theorem bankAt_updateBank (T : Timing) (b b' : Nat) (f : BankRec → BankRec) :
    bankAt (updateBank T b f) b' = if b = b' ∧ b < T.banks.length then f (bankAt T b) else bankAt T b' := by
  unfold bankAt updateBank
  simp only [List.getD_eq_getElem?_getD, List.getElem?_modify]
  split_ifs with h1 h2 h2
  · obtain ⟨rfl, h⟩ := h2
    simp [h]
  · subst h1
    have : T.banks.length ≤ b := by
      by_contra hlt
      exact h2 ⟨rfl, by omega⟩
    simp [this]
  · exact absurd h2.1 h1
  · simp

/-- A record of an updated list is the updated one or was there before. -/
theorem mem_updateBank {T : Timing} {b : Nat} {f : BankRec → BankRec} {r : BankRec}
    (h : r ∈ (updateBank T b f).banks) : (b < T.banks.length ∧ r = f (bankAt T b)) ∨ r ∈ T.banks := by
  obtain ⟨i, hi, rfl⟩ := List.getElem_of_mem h
  have hi' : i < T.banks.length := by simpa using hi
  have e : (updateBank T b f).banks[i] = bankAt (updateBank T b f) i := (bankAt_of_lt hi).symm
  rw [e, bankAt_updateBank]
  split
  · rename_i hb
    exact .inl ⟨hb.2, rfl⟩
  · exact .inr (bankAt_mem hi')

/-! ### Passive transitions -/

@[simp] theorem passive_length (cfg : Cfg) (c : Nat) (T : Timing) :
    (passive cfg c T).banks.length = T.banks.length := by
  simp [passive]

@[simp] theorem passive_lastActive (cfg : Cfg) (c : Nat) (T : Timing) :
    (passive cfg c T).lastActive = T.lastActive := rfl

@[simp] theorem passive_lastRead (cfg : Cfg) (c : Nat) (T : Timing) :
    (passive cfg c T).lastRead = T.lastRead := rfl

@[simp] theorem passive_lastWrite (cfg : Cfg) (c : Nat) (T : Timing) :
    (passive cfg c T).lastWrite = T.lastWrite := rfl

@[simp] theorem passiveRows_length (cfg : Cfg) (c : Nat) (T : Timing) (rows : List (Option (BitVec 32))) :
    (passiveRows cfg c T rows).length = rows.length := by
  simp [passiveRows]

theorem passiveBank_reset (cfg : Cfg) (c : Nat) : passiveBank cfg c BankRec.reset = BankRec.reset := rfl

/-- The banks do not interact (41 R121). -/
@[simp] theorem bankAt_passive (cfg : Cfg) (c : Nat) (T : Timing) (b : Nat) :
    bankAt (passive cfg c T) b = passiveBank cfg c (bankAt T b) := by
  by_cases h : b < T.banks.length
  · rw [bankAt_of_lt (by simpa using h), bankAt_of_lt h]
    simp [passive]
  · rw [bankAt_of_ge (by simpa using h), bankAt_of_ge (by omega), passiveBank_reset]

/-- A row marker after the passive transitions (41 R130 to R132). -/
theorem passiveRows_getD (cfg : Cfg) (c : Nat) (T : Timing) (rows : List (Option (BitVec 32))) (b : Nat) :
    (passiveRows cfg c T rows).getD b none = if entersIdle cfg c (bankAt T b) then none else rows.getD b none := by
  simp only [passiveRows, List.getD_eq_getElem?_getD, List.getElem?_mapIdx]
  cases rows[b]? <;> simp

/-! ### Commits -/

@[simp] theorem commit_length (cfg : Cfg) (c : Nat) (cmd : Command) (T : Timing) :
    (commit cfg c cmd T).banks.length = T.banks.length := by
  cases cmd <;> simp only [commit, commitActive, commitRead, commitWrite, commitPrecharge] <;>
    first | rfl | (split <;> simp) | exact updateBank_length ..

/-! ### What `None` says (40_timing_constraint_checker.md) -/

theorem constraintActive_none {cfg : Cfg} {T : Timing} {c b : Nat} (h : constraintActive cfg T c b = .none) :
    (bankAt T b).status = .idle ∧ T.lastActive.start + cfg.lat.tRRD ≤ c := by
  unfold constraintActive at h
  split_ifs at h with h1 h2 h3
  exact ⟨by simpa using h3, by omega⟩

theorem constraintRead_none {cfg : Cfg} {T : Timing} {c b : Nat} (h : constraintRead cfg T c b = .none) :
    T.lastRead.finish ≤ c + cfg.lat.CAS ∧ anyWriting T = false ∧
      ((bankAt T b).status = .active ∨ (bankAt T b).status = .reading ∨ (bankAt T b).status = .writing) ∧
      (bankAt T b).autoprecharge = false ∧ T.lastWrite.finish + cfg.lat.tWTR ≤ c := by
  unfold constraintRead at h
  split_ifs at h with h1 h2 h3 h4 h5
  refine ⟨by omega, by simp_all, ?_, by simpa using h4, by omega⟩
  cases hs : (bankAt T b).status <;> simp_all

theorem constraintWrite_none {cfg : Cfg} {T : Timing} {c b : Nat} (h : constraintWrite cfg T c b = .none) :
    T.lastWrite.finish ≤ c + cfg.lat.WL ∧ T.lastRead.finish + cfg.lat.tRTW ≤ c + cfg.lat.WL ∧
      ((bankAt T b).status = .active ∨ (bankAt T b).status = .reading ∨ (bankAt T b).status = .writing) ∧
      (bankAt T b).autoprecharge = false := by
  unfold constraintWrite at h
  split_ifs at h with h1 h2 h3 h4 h5
  refine ⟨by omega, by omega, ?_, by simpa using h5⟩
  cases hs : (bankAt T b).status <;> simp_all

theorem constraintPrecharge_none {cfg : Cfg} {T : Timing} {c b : Nat} (h : constraintPrecharge cfg T c b = .none) :
    (bankAt T b).lastWriteEnd + cfg.lat.tWR ≤ c ∧ (bankAt T b).status ≠ .activating ∧
      ((bankAt T b).status = .reading → (bankAt T b).endCycle ≤ c + cfg.lat.tRP) := by
  unfold constraintPrecharge at h
  split_ifs at h with h1 h2 h3
  refine ⟨by omega, h2, fun hr => ?_⟩
  by_contra hc
  exact h3 ⟨hr, by omega⟩

theorem not_anyWriting {T : Timing} (h : anyWriting T = false) {r : BankRec} (hr : r ∈ T.banks) :
    r.status ≠ .writing := by
  simp only [anyWriting, List.any_eq_false, decide_eq_true_eq] at h
  exact h r hr

end Sys2Proof.Machine
end

