-- ==== Sys2Proof/Laws/Configure.lean ====
section
/-! SUPPORT. What a legal configuration is, and what the factory answers. -/

namespace Sys2Proof.Machine

theorem latenciesFit_iff (l : Latencies) :
    latenciesFit l = true ↔
      l.tRRD < 2 ^ 32 ∧ l.tRCD < 2 ^ 32 ∧ l.tWTR < 2 ^ 32 ∧ l.tRTW < 2 ^ 32 ∧ l.tWR < 2 ^ 32 ∧ l.tRP < 2 ^ 32 ∧
        l.CAS < 2 ^ 32 ∧ l.WL < 2 ^ 32 := by
  simp only [latenciesFit, Bool.and_eq_true, decide_eq_true_eq, and_assoc]

/-- The ranges of 00_scope.md R8 and R9. -/
theorem cfgValid_iff (c : Cfg) :
    cfgValid c = true ↔
      1 ≤ c.NB ∧ c.NB ≤ 65536 ∧ 1 ≤ c.NR ∧ c.NR ≤ 2 ^ 32 ∧ 1 ≤ c.NC ∧ c.NC ≤ 2 ^ 32 ∧ 1 ≤ c.BL ∧ c.BL ≤ 32 ∧
        c.BL ≤ c.NC ∧ 1 ≤ c.BPC ∧ c.BPC ≤ 128 ∧ 4 * c.BL % c.BPC = 0 ∧ c.lat.tRRD < 2 ^ 32 ∧
        c.lat.tRCD < 2 ^ 32 ∧ c.lat.tWTR < 2 ^ 32 ∧ c.lat.tRTW < 2 ^ 32 ∧ c.lat.tWR < 2 ^ 32 ∧
        c.lat.tRP < 2 ^ 32 ∧ c.lat.CAS < 2 ^ 32 ∧ c.lat.WL < 2 ^ 32 := by
  rw [cfgValid, Bool.and_eq_true, latenciesFit_iff]
  simp only [Bool.and_eq_true, decide_eq_true_eq, and_assoc]

/-- A configuration the factory makes is legal, and is the bundle with its latencies looked up (44 R207). -/
theorem configure_ok {b : Bundle} {cfg : Cfg} (h : configure b = .ok cfg) :
    cfgValid cfg = true ∧ ∃ l, profileLatencies b = some l ∧ cfg = cfgOf b l := by
  unfold configure at h
  split at h
  · cases h
  · split at h
    · cases h
    · rename_i l hl
      split at h
      · cases h
      · split at h
        · rename_i hv
          cases h
          simp only [Bool.and_eq_true] at hv
          exact ⟨hv.1, l, hl, rfl⟩
        · cases h

end Sys2Proof.Machine
end

