-- ==== Sys2Proof/Laws/Encoding.lean ====
section
/-! SUPPORT. What the decoder selects from the words of the encoder, field by field, and from the arrays that
stand beside a word. -/

namespace Sys2Proof

/-! ### Words -/

@[simp] theorem cmdWord_kind (kind : BitVec 3) (ap all : Bool) (cons : BitVec 5) (bank : BitVec 16) (addr : BitVec 32) :
    (cmdWord kind ap all cons bank addr).extractLsb' 0 3 = kind := by
  change BitVec.extractLsb' (n := 32 + 16 + 6 + 5 + 1 + 1 + 3) 0 3
      (addr ++ bank ++ 0#6 ++ cons ++ BitVec.ofBool all ++ BitVec.ofBool ap ++ kind) = _
  simp (disch := omega) only [BitVec.extractLsb'_append_eq_of_add_le, BitVec.extractLsb'_eq_self]

@[simp] theorem cmdWord_ap (kind : BitVec 3) (ap all : Bool) (cons : BitVec 5) (bank : BitVec 16) (addr : BitVec 32) :
    (cmdWord kind ap all cons bank addr).extractLsb' 3 1 = BitVec.ofBool ap := by
  change BitVec.extractLsb' (n := 32 + 16 + 6 + 5 + 1 + 1 + 3) 3 1
      (addr ++ bank ++ 0#6 ++ cons ++ BitVec.ofBool all ++ BitVec.ofBool ap ++ kind) = _
  simp (disch := omega) only [BitVec.extractLsb'_append_eq_of_add_le, BitVec.extractLsb'_append_eq_of_le,
    BitVec.extractLsb'_eq_self, Nat.reduceSub]

@[simp] theorem cmdWord_all (kind : BitVec 3) (ap all : Bool) (cons : BitVec 5) (bank : BitVec 16) (addr : BitVec 32) :
    (cmdWord kind ap all cons bank addr).extractLsb' 4 1 = BitVec.ofBool all := by
  change BitVec.extractLsb' (n := 32 + 16 + 6 + 5 + 1 + 1 + 3) 4 1
      (addr ++ bank ++ 0#6 ++ cons ++ BitVec.ofBool all ++ BitVec.ofBool ap ++ kind) = _
  simp (disch := omega) only [BitVec.extractLsb'_append_eq_of_add_le, BitVec.extractLsb'_append_eq_of_le,
    BitVec.extractLsb'_eq_self, Nat.reduceSub]

@[simp] theorem cmdWord_cons (kind : BitVec 3) (ap all : Bool) (cons : BitVec 5) (bank : BitVec 16) (addr : BitVec 32) :
    (cmdWord kind ap all cons bank addr).extractLsb' 5 5 = cons := by
  change BitVec.extractLsb' (n := 32 + 16 + 6 + 5 + 1 + 1 + 3) 5 5
      (addr ++ bank ++ 0#6 ++ cons ++ BitVec.ofBool all ++ BitVec.ofBool ap ++ kind) = _
  simp (disch := omega) only [BitVec.extractLsb'_append_eq_of_add_le, BitVec.extractLsb'_append_eq_of_le,
    BitVec.extractLsb'_eq_self, Nat.reduceSub]

@[simp] theorem cmdWord_bank (kind : BitVec 3) (ap all : Bool) (cons : BitVec 5) (bank : BitVec 16) (addr : BitVec 32) :
    (cmdWord kind ap all cons bank addr).extractLsb' 16 16 = bank := by
  change BitVec.extractLsb' (n := 32 + 16 + 6 + 5 + 1 + 1 + 3) 16 16
      (addr ++ bank ++ 0#6 ++ cons ++ BitVec.ofBool all ++ BitVec.ofBool ap ++ kind) = _
  simp (disch := omega) only [BitVec.extractLsb'_append_eq_of_add_le, BitVec.extractLsb'_append_eq_of_le,
    BitVec.extractLsb'_eq_self, Nat.reduceSub]

@[simp] theorem cmdWord_addr (kind : BitVec 3) (ap all : Bool) (cons : BitVec 5) (bank : BitVec 16) (addr : BitVec 32) :
    (cmdWord kind ap all cons bank addr).extractLsb' 32 32 = addr := by
  change BitVec.extractLsb' (n := 32 + 16 + 6 + 5 + 1 + 1 + 3) 32 32
      (addr ++ bank ++ 0#6 ++ cons ++ BitVec.ofBool all ++ BitVec.ofBool ap ++ kind) = _
  simp (disch := omega) only [BitVec.extractLsb'_append_eq_of_le, BitVec.extractLsb'_eq_self, Nat.reduceSub]

@[simp] theorem rawWord_op (op : BitVec 2) (bank : BitVec 16) (row col nbytes : BitVec 32) :
    (rawWord op bank row col nbytes).extractLsb' 0 2 = op := by
  change BitVec.extractLsb' (n := 32 + 32 + 32 + 16 + 14 + 2) 0 2
      (nbytes ++ col ++ row ++ bank ++ 0#14 ++ op) = _
  simp (disch := omega) only [BitVec.extractLsb'_append_eq_of_add_le, BitVec.extractLsb'_eq_self]

@[simp] theorem rawWord_bank (op : BitVec 2) (bank : BitVec 16) (row col nbytes : BitVec 32) :
    (rawWord op bank row col nbytes).extractLsb' 16 16 = bank := by
  change BitVec.extractLsb' (n := 32 + 32 + 32 + 16 + 14 + 2) 16 16
      (nbytes ++ col ++ row ++ bank ++ 0#14 ++ op) = _
  simp (disch := omega) only [BitVec.extractLsb'_append_eq_of_add_le, BitVec.extractLsb'_append_eq_of_le,
    BitVec.extractLsb'_eq_self, Nat.reduceSub]

@[simp] theorem rawWord_row (op : BitVec 2) (bank : BitVec 16) (row col nbytes : BitVec 32) :
    (rawWord op bank row col nbytes).extractLsb' 32 32 = row := by
  change BitVec.extractLsb' (n := 32 + 32 + 32 + 16 + 14 + 2) 32 32
      (nbytes ++ col ++ row ++ bank ++ 0#14 ++ op) = _
  simp (disch := omega) only [BitVec.extractLsb'_append_eq_of_add_le, BitVec.extractLsb'_append_eq_of_le,
    BitVec.extractLsb'_eq_self, Nat.reduceSub]

@[simp] theorem rawWord_col (op : BitVec 2) (bank : BitVec 16) (row col nbytes : BitVec 32) :
    (rawWord op bank row col nbytes).extractLsb' 64 32 = col := by
  change BitVec.extractLsb' (n := 32 + 32 + 32 + 16 + 14 + 2) 64 32
      (nbytes ++ col ++ row ++ bank ++ 0#14 ++ op) = _
  simp (disch := omega) only [BitVec.extractLsb'_append_eq_of_add_le, BitVec.extractLsb'_append_eq_of_le,
    BitVec.extractLsb'_eq_self, Nat.reduceSub]

@[simp] theorem rawWord_nbytes (op : BitVec 2) (bank : BitVec 16) (row col nbytes : BitVec 32) :
    (rawWord op bank row col nbytes).extractLsb' 96 32 = nbytes := by
  change BitVec.extractLsb' (n := 32 + 32 + 32 + 16 + 14 + 2) 96 32
      (nbytes ++ col ++ row ++ bank ++ 0#14 ++ op) = _
  simp (disch := omega) only [BitVec.extractLsb'_append_eq_of_le, BitVec.extractLsb'_eq_self, Nat.reduceSub]

@[simp] theorem txnWord_isWrite (w m : Bool) (h : TxnHeader) :
    (txnWord w m h).extractLsb' 0 1 = BitVec.ofBool w := by
  change BitVec.extractLsb' (n := 16 + 16 + 32 + 32 + 32 + 16 + 14 + 1 + 1) 0 1
      (0#16 ++ h.requester ++ h.bytes ++ h.col ++ h.row ++ h.bank ++ 0#14 ++ BitVec.ofBool m ++ BitVec.ofBool w) = _
  simp (disch := omega) only [BitVec.extractLsb'_append_eq_of_add_le, BitVec.extractLsb'_eq_self]

@[simp] theorem txnWord_hasMask (w m : Bool) (h : TxnHeader) :
    (txnWord w m h).extractLsb' 1 1 = BitVec.ofBool m := by
  change BitVec.extractLsb' (n := 16 + 16 + 32 + 32 + 32 + 16 + 14 + 1 + 1) 1 1
      (0#16 ++ h.requester ++ h.bytes ++ h.col ++ h.row ++ h.bank ++ 0#14 ++ BitVec.ofBool m ++ BitVec.ofBool w) = _
  simp (disch := omega) only [BitVec.extractLsb'_append_eq_of_add_le, BitVec.extractLsb'_append_eq_of_le,
    BitVec.extractLsb'_eq_self, Nat.reduceSub]

@[simp] theorem txnWord_bank (w m : Bool) (h : TxnHeader) :
    (txnWord w m h).extractLsb' 16 16 = h.bank := by
  change BitVec.extractLsb' (n := 16 + 16 + 32 + 32 + 32 + 16 + 14 + 1 + 1) 16 16
      (0#16 ++ h.requester ++ h.bytes ++ h.col ++ h.row ++ h.bank ++ 0#14 ++ BitVec.ofBool m ++ BitVec.ofBool w) = _
  simp (disch := omega) only [BitVec.extractLsb'_append_eq_of_add_le, BitVec.extractLsb'_append_eq_of_le,
    BitVec.extractLsb'_eq_self, Nat.reduceSub]

@[simp] theorem txnWord_row (w m : Bool) (h : TxnHeader) :
    (txnWord w m h).extractLsb' 32 32 = h.row := by
  change BitVec.extractLsb' (n := 16 + 16 + 32 + 32 + 32 + 16 + 14 + 1 + 1) 32 32
      (0#16 ++ h.requester ++ h.bytes ++ h.col ++ h.row ++ h.bank ++ 0#14 ++ BitVec.ofBool m ++ BitVec.ofBool w) = _
  simp (disch := omega) only [BitVec.extractLsb'_append_eq_of_add_le, BitVec.extractLsb'_append_eq_of_le,
    BitVec.extractLsb'_eq_self, Nat.reduceSub]

@[simp] theorem txnWord_col (w m : Bool) (h : TxnHeader) :
    (txnWord w m h).extractLsb' 64 32 = h.col := by
  change BitVec.extractLsb' (n := 16 + 16 + 32 + 32 + 32 + 16 + 14 + 1 + 1) 64 32
      (0#16 ++ h.requester ++ h.bytes ++ h.col ++ h.row ++ h.bank ++ 0#14 ++ BitVec.ofBool m ++ BitVec.ofBool w) = _
  simp (disch := omega) only [BitVec.extractLsb'_append_eq_of_add_le, BitVec.extractLsb'_append_eq_of_le,
    BitVec.extractLsb'_eq_self, Nat.reduceSub]

@[simp] theorem txnWord_bytes (w m : Bool) (h : TxnHeader) :
    (txnWord w m h).extractLsb' 96 32 = h.bytes := by
  change BitVec.extractLsb' (n := 16 + 16 + 32 + 32 + 32 + 16 + 14 + 1 + 1) 96 32
      (0#16 ++ h.requester ++ h.bytes ++ h.col ++ h.row ++ h.bank ++ 0#14 ++ BitVec.ofBool m ++ BitVec.ofBool w) = _
  simp (disch := omega) only [BitVec.extractLsb'_append_eq_of_add_le, BitVec.extractLsb'_append_eq_of_le,
    BitVec.extractLsb'_eq_self, Nat.reduceSub]

@[simp] theorem txnWord_requester (w m : Bool) (h : TxnHeader) :
    (txnWord w m h).extractLsb' 128 16 = h.requester := by
  change BitVec.extractLsb' (n := 16 + 16 + 32 + 32 + 32 + 16 + 14 + 1 + 1) 128 16
      (0#16 ++ h.requester ++ h.bytes ++ h.col ++ h.row ++ h.bank ++ 0#14 ++ BitVec.ofBool m ++ BitVec.ofBool w) = _
  simp (disch := omega) only [BitVec.extractLsb'_append_eq_of_add_le, BitVec.extractLsb'_append_eq_of_le,
    BitVec.extractLsb'_eq_self, Nat.reduceSub]

theorem qryWord_kind (kind : BitVec 3) (bank : BitVec 16) :
    (bank ++ 0#13 ++ kind : BitVec 32).extractLsb' 0 3 = kind := by
  simp (disch := omega) only [BitVec.extractLsb'_append_eq_of_add_le, BitVec.extractLsb'_eq_self]

theorem qryWord_bank (kind : BitVec 3) (bank : BitVec 16) :
    (bank ++ 0#13 ++ kind : BitVec 32).extractLsb' 16 16 = bank := by
  simp (disch := omega) only [BitVec.extractLsb'_append_eq_of_le, BitVec.extractLsb'_eq_self, Nat.reduceSub]

@[simp] theorem decodeTxnHeader_txnWord (w m : Bool) (h : TxnHeader) : decodeTxnHeader (txnWord w m h) = h := by
  simp [decodeTxnHeader]

/-! ### Bursts and admission states -/

@[simp] theorem decodeSlots_length (n w : Nat) : (decodeSlots n w).length = n := by
  induction n generalizing w with
  | zero => rfl
  | succ n ih => simp [decodeSlots, ih]

/-- One slot of 36 bits, and what lies above it. -/
theorem slot_fields (w m rest : Nat) (hw : w < 2 ^ 32) (hm : m < 2 ^ 4) :
    (w + 2 ^ 32 * m + 2 ^ 36 * rest) / 2 ^ 36 = rest ∧ (w + 2 ^ 32 * m + 2 ^ 36 * rest) % 2 ^ 32 = w ∧
      (w + 2 ^ 32 * m + 2 ^ 36 * rest) / 2 ^ 32 % 2 ^ 4 = m := by
  omega

theorem decodeSlots_encodeSlots (slots : List Slot) : decodeSlots slots.length (encodeSlots slots) = slots := by
  induction slots with
  | nil => rfl
  | cons s rest ih =>
    obtain ⟨h1, h2, h3⟩ := slot_fields s.word.toNat s.mask.toNat (encodeSlots rest) s.word.isLt s.mask.isLt
    have hw : BitVec.ofNat 32 (s.word.toNat + 2 ^ 32 * s.mask.toNat + 2 ^ 36 * encodeSlots rest) = s.word :=
      BitVec.eq_of_toNat_eq (by rw [BitVec.toNat_ofNat, h2])
    have hm :
        BitVec.ofNat 4 ((s.word.toNat + 2 ^ 32 * s.mask.toNat + 2 ^ 36 * encodeSlots rest) / 2 ^ 32) = s.mask :=
      BitVec.eq_of_toNat_eq (by rw [BitVec.toNat_ofNat, h3])
    simp only [List.length_cons, decodeSlots, encodeSlots]
    rw [h1, ih, hw, hm]

theorem encodeSlots_lt (slots : List Slot) : encodeSlots slots < 2 ^ (36 * slots.length) := by
  induction slots with
  | nil => simp [encodeSlots]
  | cons s rest ih =>
    have hm := s.mask.isLt
    have hw := s.word.isLt
    simp only [encodeSlots, List.length_cons, Nat.mul_add, Nat.pow_add]
    generalize encodeSlots rest = e at *
    generalize 2 ^ (36 * rest.length) = y at *
    omega

/-- The BURST bus carries a well-formed burst whole (30_encoding.md R78). -/
theorem decodeBurst_encodeBurst (b : Burst) (h : b.wellFormed = true) : decodeBurst (encodeBurst b) = b := by
  obtain ⟨len, slots⟩ := b
  simp only [Burst.wellFormed, beq_iff_eq] at h
  have hl := len.isLt
  have hs : encodeSlots slots < 2 ^ 1152 :=
    lt_of_lt_of_le (encodeSlots_lt slots) (Nat.pow_le_pow_right (by omega) (by omega))
  have hn : (encodeBurst ⟨len, slots⟩).toNat = len.toNat + 2 ^ 6 * encodeSlots slots := by
    rw [encodeBurst, BitVec.toNat_ofNat]
    refine Nat.mod_eq_of_lt ?_
    rw [Nat.pow_add 2 6 1152]
    generalize (2 : Nat) ^ 1152 = z at *
    simp only
    omega
  have h1 : BitVec.ofNat 6 (len.toNat + 2 ^ 6 * encodeSlots slots) = len :=
    BitVec.eq_of_toNat_eq (by rw [BitVec.toNat_ofNat, Nat.add_mul_mod_self_left, Nat.mod_eq_of_lt hl])
  have h2 : (len.toNat + 2 ^ 6 * encodeSlots slots) / 2 ^ 6 = encodeSlots slots := by
    rw [Nat.add_mul_div_left _ _ (by omega), Nat.div_eq_of_lt hl, Nat.zero_add]
  simp only [decodeBurst, hn, h1, h2, ← h, decodeSlots_encodeSlots]

theorem ofCode_code (a : Admit) : Admit.ofCode a.code = a := by
  cases a <;> rfl

theorem decodeSst_encodeSst (state : List Admit) : decodeSst state.length (encodeSst state) = state := by
  induction state with
  | nil => rfl
  | cons a rest ih =>
    have h := a.code.isLt
    have h1 : BitVec.ofNat 2 (a.code.toNat + 4 * encodeSst rest) = a.code :=
      BitVec.eq_of_toNat_eq (by rw [BitVec.toNat_ofNat]; omega)
    simp only [List.length_cons, decodeSst, encodeSst]
    rw [show (a.code.toNat + 4 * encodeSst rest) / 4 = encodeSst rest by omega, ih, h1, ofCode_code]

end Sys2Proof
end

