-- ==== Sys2Proof/Laws/Step.lean ====
section
/-! SUPPORT. What the operations, a tick and a step can do, said once: the case lemmas and the induction principles that
statements about every step rest on. -/

namespace Sys2Proof.Machine

/-! ### Operands -/

/-- The bank of a command exists, or it is the detail of an `OutOfRange` (60 R227). -/
theorem bankFault_none_iff (cfg : Cfg) (bank : BitVec 16) : bankFault cfg bank = none ↔ bank.toNat < cfg.NB := by
  unfold bankFault
  split <;> simp <;> omega

theorem operandFault_active_none_iff (cfg : Cfg) (bank : BitVec 16) (row : BitVec 32) :
    operandFault cfg (.active bank row) = none ↔ bank.toNat < cfg.NB ∧ row.toNat < cfg.NR := by
  by_cases h : cfg.NB ≤ bank.toNat
  · simp [operandFault, bankFault, h]
  · simp [operandFault, bankFault, h]
    omega

theorem operandFault_read_none_iff (cfg : Cfg) (bank : BitVec 16) (col : BitVec 32) (ap : Bool) :
    operandFault cfg (.read bank col ap) = none ↔ bank.toNat < cfg.NB ∧ col.toNat + cfg.BL ≤ cfg.NC := by
  by_cases h : cfg.NB ≤ bank.toNat
  · simp [operandFault, accessFault, bankFault, h]
  · simp [operandFault, accessFault, bankFault, h]
    omega

theorem operandFault_write_none_iff (cfg : Cfg) (bank : BitVec 16) (col : BitVec 32) (burst : Burst) (ap : Bool) :
    operandFault cfg (.write bank col burst ap) = none ↔
      bank.toNat < cfg.NB ∧ col.toNat + cfg.BL ≤ cfg.NC ∧ burst.len.toNat = cfg.BL := by
  have h := operandFault_read_none_iff cfg bank col ap
  simp only [operandFault] at h ⊢
  cases ha : accessFault cfg bank col with
  | some v => simp_all
  | none => simp_all

theorem operandFault_precharge_none_iff (cfg : Cfg) (bank : BitVec 16) :
    operandFault cfg (.precharge bank) = none ↔ bank.toNat < cfg.NB :=
  bankFault_none_iff cfg bank

/-! ### Statistics -/

@[simp] theorem countRow_published (k : CmdKind) (l : LastCmd) (x : SchedState) :
    (countRow k l x).published = x.published := by
  cases k <;> simp only [countRow] <;> split <;> rfl

@[simp] theorem countRow_issued (k : CmdKind) (l : LastCmd) (x : SchedState) :
    (countRow k l x).issued = x.issued := by
  cases k <;> simp only [countRow] <;> split <;> rfl

@[simp] theorem countRow_pendingState (k : CmdKind) (l : LastCmd) (x : SchedState) :
    (countRow k l x).pendingState = x.pendingState := by
  cases k <;> simp only [countRow] <;> split <;> rfl

@[simp] theorem countRow_schedStateOut (k : CmdKind) (l : LastCmd) (x : SchedState) :
    (countRow k l x).schedStateOut = x.schedStateOut := by
  cases k <;> simp only [countRow] <;> split <;> rfl

@[simp] theorem countRow_lastCmdKind (k : CmdKind) (l : LastCmd) (x : SchedState) :
    (countRow k l x).lastCmdKind = x.lastCmdKind := by
  cases k <;> simp only [countRow] <;> split <;> rfl

@[simp] theorem countRow_policyState (k : CmdKind) (l : LastCmd) (x : SchedState) :
    (countRow k l x).policyState = x.policyState := by
  cases k <;> simp only [countRow] <;> split <;> rfl

@[simp] theorem countRow_cmdBus (k : CmdKind) (l : LastCmd) (x : SchedState) :
    (countRow k l x).cmdBus = x.cmdBus := by
  cases k <;> simp only [countRow] <;> split <;> rfl

@[simp] theorem countRow_pendingCompletion (k : CmdKind) (l : LastCmd) (x : SchedState) :
    (countRow k l x).pendingCompletion = x.pendingCompletion := by
  cases k <;> simp only [countRow] <;> split <;> rfl

@[simp] theorem countRow_answers (k : CmdKind) (l : LastCmd) (x : SchedState) :
    (countRow k l x).answers = x.answers := by
  cases k <;> simp only [countRow] <;> split <;> rfl

/-! ### Issuing -/

/-- An operand that does not fit is out of range, or a burst of the wrong length (60 R227, R229). -/
theorem operandFault_kind {cfg : Cfg} {cmd : Command} {v : Violation} (h : operandFault cfg cmd = some v) :
    v.1 = .outOfRange ∨ v.1 = .burstLength := by
  have bank : ∀ b, bankFault cfg b = some v → v.1 = .outOfRange := by
    intro b hb
    unfold bankFault at hb
    split at hb <;> simp at hb
    simp [← hb]
  have access : ∀ b c, accessFault cfg b c = some v → v.1 = .outOfRange := by
    intro b c hb
    unfold accessFault at hb
    split at hb
    · exact bank b (by simp_all)
    · split at hb <;> simp at hb
      simp [← hb]
  cases cmd with
  | active b r =>
    simp only [operandFault] at h
    split at h
    · exact .inl (bank b (by simp_all))
    · split at h <;> simp at h
      simp [← h]
  | read b c ap => exact .inl (access b c h)
  | write b c u ap =>
    simp only [operandFault] at h
    split at h
    · exact .inl (access b c (by simp_all))
    · split at h <;> simp at h
      simp [← h]
  | precharge b => exact .inl (bank b h)
  | prechargeAll => simp [operandFault] at h
  | dummy k => simp [operandFault] at h
  | illegal k => simp [operandFault] at h

/-- A commit that fails names a bank out of range or a violated constraint (41 R123). -/
theorem commitFault_kind {cfg : Cfg} {T : Timing} {c : Nat} {cmd : Command} {v : Violation}
    (h : commitFault cfg T c cmd = some v) : v.1 = .outOfRange ∨ v.1 = .constraintViolated := by
  unfold commitFault at h
  split at h
  · rename_i w hw
    unfold bankFault at hw
    split at hw <;> simp at hw
    cases h
    simp [← hw]
  · simp only at h
    split at h <;> simp at h
    simp [← h]

/-- An issue helper raises a fatal of the scheduler or of the predictive copy, with one of four invariants, or every check
of 44 R195 passed and the command is on its way. -/
theorem issue_cases {s : State} (h : s.fatal.flag = false) (cmd : Command) :
    (∃ c o v d, issue cmd s = withFatal c o v d s ∧ (c = .scheduler ∨ c = .predictive) ∧
      (v = .secondCommandInTick ∨ v = .outOfRange ∨ v = .burstLength ∨ v = .constraintViolated)) ∨
      s.sched.issued = false ∧ operandFault s.cfg cmd = none ∧ commitFault s.cfg s.P s.cycle cmd = none ∧
        issue cmd s = sendCommand cmd (noteCommand cmd (s.setP (commit s.cfg s.cycle cmd s.P))) := by
  unfold issue useSlot
  split
  · exact .inl ⟨_, _, _, _, raiseFatal_live h _ _ _ _, .inl rfl, .inl rfl⟩
  · unfold checkAndPost
    split
    · refine .inl ⟨_, _, _, _, raiseFatal_live h _ _ _ _, .inl rfl, ?_⟩
      rename_i v ho
      rcases operandFault_kind ho with h | h <;> simp [h]
    · unfold postAndSend
      split
      · refine .inl ⟨_, _, _, _, raiseFatal_live h _ _ _ _, .inr rfl, ?_⟩
        rename_i v hc
        rcases commitFault_kind hc with h | h <;> simp [h]
      · exact .inr ⟨by simp_all, by assumption, by assumption, rfl⟩

/-- The unchecked helpers raise a fatal, or put the command on its way. -/
theorem issueUnchecked_cases {s : State} (h : s.fatal.flag = false) (cmd : Command) :
    (∃ d, issueUnchecked cmd s = withFatal .scheduler .issue .secondCommandInTick d s) ∨
      s.sched.issued = false ∧ issueUnchecked cmd s = withCommand cmd s := by
  unfold issueUnchecked useSlot
  split
  · exact .inl ⟨_, raiseFatal_live h _ _ _ _⟩
  · exact .inr ⟨by simp_all, rfl⟩

/-- A commit is free of faults when its bank exists and its constraint is `None` (41 R123). -/
theorem commitFault_none_iff (cfg : Cfg) (T : Timing) (c : Nat) (cmd : Command) :
    commitFault cfg T c cmd = none ↔
      (bankOf cmd).toNat < cfg.NB ∧ constraint cfg T c (bankOf cmd).toNat (kindOf cmd) = .none := by
  unfold commitFault bankFault
  by_cases h1 : cfg.NB ≤ (bankOf cmd).toNat
  · simp [h1]
  · by_cases h2 : constraint cfg T c (bankOf cmd).toNat (kindOf cmd) = .none
    · simp [h1, h2]
      omega
    · simp [h1, h2]

/-- An issue helper whose checks pass commits on `P`, notes the command and sends it (44 R195). -/
theorem issue_passes {s : State} {cmd : Command} (hi : s.sched.issued = false) (ho : operandFault s.cfg cmd = none)
    (hb : (bankOf cmd).toNat < s.cfg.NB)
    (hk : constraint s.cfg s.P s.cycle (bankOf cmd).toNat (kindOf cmd) = .none) :
    issue cmd s = sendCommand cmd (noteCommand cmd (s.setP (commit s.cfg s.cycle cmd s.P))) := by
  have h := (commitFault_none_iff s.cfg s.P s.cycle cmd).2 ⟨hb, hk⟩
  simp [issue, useSlot, hi, checkAndPost, ho, postAndSend, h]

/-! ### A tick -/

/-- What a step keeps is kept by a tick's opening if S1 and S2 keep it. -/
theorem openTick_keeps {I : State → Prop}
    (hstart : ∀ s, running s = true → s.phase = .betweenTicks → I s → I (startTick s)) {s : State} (h : I s) :
    I (openTick s) := by
  unfold openTick
  split
  · exact h
  · unfold whileRunning
    split
    · exact hstart s (by assumption) (by assumption) h
    · exact h

/-- What a step keeps is kept by a tick's closing if the rest of S3 and S4 keep it. -/
theorem closeTick_keeps {I : State → Prop}
    (hend : ∀ s, running s = true → s.phase = .policyRunning → I s → I (completeTick s)) {s : State} (h : I s) :
    I (closeTick s) := by
  unfold closeTick
  split
  · exact h
  · unfold whileRunning
    split
    · exact hend s (by assumption) (by assumption) h
    · exact h

/-- A predicate that every part of a tick's closing keeps, while no fatal is recorded, is kept by the whole of it. -/
theorem completeTick_keeps {I : State → Prop} (hpolicy : ∀ s, I s → I (policyReturns s))
    (haccept : ∀ cmd s, s.fatal.flag = false → s.sched.cmdBus = some cmd → I s → I (accept cmd s))
    (hpins : ∀ s, s.fatal.flag = false → I s → I (drainPins s))
    (hreadout : ∀ s, s.fatal.flag = false → I s → I (drainReadout s))
    (hreadin : ∀ s, s.fatal.flag = false → I s → I (drainReadin s)) (houts : ∀ s, I s → I (schedulerOutputs s))
    (hcheck : ∀ s, s.fatal.flag = false → I s → I (checkPublished s))
    (hadvance : ∀ s, s.fatal.flag = false → I s → I (advanceCycle s)) {s : State} (hf : s.fatal.flag = false)
    (h : I s) : I (completeTick s) := by
  have live : ∀ (f : State → State) (s : State), (s.fatal.flag = false → I s → I (f s)) → I s → I (whileLive f s) := by
    intro f s hf hs
    unfold whileLive
    split
    · exact hs
    · exact hf (by simp_all) hs
  have hbus : I (acceptBus (policyReturns s)) := by
    unfold acceptBus
    split
    · exact hpolicy s h
    · exact haccept _ _ hf (by assumption) (hpolicy s h)
  unfold completeTick phaseS4
  exact live _ _ (hadvance _) <| live _ _ (hcheck _) <| live _ _ (fun _ => houts _) <| live _ _ (hreadin _) <|
    live _ _ (hreadout _) <| live _ _ (hpins _) hbus

/-- The state at the end of a tick that no fatal stopped. -/
theorem completeTick_live {s : State} (h : (completeTick s).fatal.flag = false) :
    let a := acceptBus (policyReturns s)
    let d := drainReadin (drainReadout (drainPins a))
    a.fatal.flag = false ∧ (drainPins a).fatal.flag = false ∧ (drainReadout (drainPins a)).fatal.flag = false ∧
      d.fatal.flag = false ∧ s.sched.published = true ∧ s.cycle ≠ maxCycle ∧
      completeTick s = advanceCycle (schedulerOutputs d) := by
  intro a d
  have step1 : ∀ (f : State → State) (x : State), (whileLive f x).fatal.flag = false →
      x.fatal.flag = false ∧ whileLive f x = f x := by
    intro f x hx
    unfold whileLive at hx ⊢
    split at hx
    · rename_i hf
      rw [hf] at hx
      contradiction
    · rename_i hf
      exact ⟨by simpa using hf, by simp [hf]⟩
  unfold completeTick phaseS4 at h ⊢
  obtain ⟨h6, e6⟩ := step1 _ _ h
  obtain ⟨h5, e5⟩ := step1 _ _ h6
  obtain ⟨h4, e4⟩ := step1 _ _ h5
  obtain ⟨h3, e3⟩ := step1 _ _ h4
  obtain ⟨h2, e2⟩ := step1 _ _ h3
  obtain ⟨h1, e1⟩ := step1 _ _ h2
  rw [e6, e5, e4, e3, e2, e1] at h ⊢
  rw [e1] at h2
  rw [e2, e1] at h3
  rw [e3, e2, e1] at h4
  have hp' : (schedulerOutputs d).sched.published = s.sched.published := by
    simp [schedulerOutputs, d, a, policyReturns]
  have hc' : (schedulerOutputs d).cycle = s.cycle := by simp [d, a]
  have hp : s.sched.published = true := by
    by_contra hp
    rw [show checkPublished (schedulerOutputs d) = _ from if_neg (by rw [hp']; exact hp)] at h
    unfold advanceCycle at h
    split at h <;> simp at h
  rw [show checkPublished (schedulerOutputs d) = schedulerOutputs d from if_pos (by rw [hp']; exact hp)] at h ⊢
  refine ⟨h1, h2, h3, h4, hp, fun hc => ?_, rfl⟩
  rw [show advanceCycle (schedulerOutputs d) = _ from if_pos (by rw [hc']; exact hc)] at h
  simp at h

/-! ### A step -/

/-- The four things a step can be: a tick boundary, a reset, or an operation in its phase; otherwise it is refused. -/
theorem step_cases {s t : State} (h : step s = .next t) :
    (∃ rest, t = finishTick (consume rest s)) ∨
      (∃ b rest, resetNext s = true ∧ t = resetBundle b (consume rest s)) ∨
      ∃ w i rest, decode w = .ok i ∧ s.env.port = .op w :: rest ∧ exec i (prepare i (consume rest s)) = .next t := by
  unfold step fetch at h
  match hp : s.env.port with
  | [] =>
    simp only [hp] at h
    exact .inl ⟨[], by simpa using h.symm⟩
  | .endTick :: rest =>
    simp only [hp] at h
    exact .inl ⟨rest, by simpa using h.symm⟩
  | .reset b :: rest =>
    simp only [hp] at h
    exact .inr (.inl ⟨b, rest, by simp [resetNext, hp], by simpa using h.symm⟩)
  | .op w :: rest =>
    simp only [hp] at h
    cases hd : decode w with
    | error e => simp [hd] at h
    | ok i =>
      simp only [hd] at h
      exact .inr (.inr ⟨w, i, rest, hd, rfl, h⟩)

/-- After a tick's opening the policy runs, if the engine runs at all. -/
theorem openTick_phase {s : State} (h : running (openTick s) = true) : (openTick s).phase = .policyRunning := by
  unfold openTick at h ⊢
  split
  · assumption
  · rename_i hp
    simp only [hp] at h
    by_cases hr : running s = true
    · simp [whileRunning_running hr, startTick]
    · have hr : running s = false := by simpa using hr
      rw [whileRunning_stopped hr] at h
      simp [hr] at h

/-- After a tick's closing the engine is between ticks, if it runs at all. -/
theorem closeTick_phase {s : State} (h : running (closeTick s) = true) : (closeTick s).phase = .betweenTicks := by
  unfold closeTick at h ⊢
  split
  · assumption
  · rename_i hp
    simp only [hp] at h
    by_cases hr : running s = true
    · rw [whileRunning_running hr] at h ⊢
      obtain ⟨_, _, _, _, _, hc, he⟩ := completeTick_live ((running_iff _).1 h).1
      rw [he, advanceCycle, if_neg (by simpa using hc)]
      simp
    · have hr : running s = false := by simpa using hr
      rw [whileRunning_stopped hr] at h
      simp [hr] at h

/-- The phase in which an operation is performed. -/
theorem prepare_phase {i : Instr} {s : State} (h : running (prepare i s) = true) :
    (prepare i s).phase = if isRaw i then .betweenTicks else .policyRunning := by
  unfold prepare at h ⊢
  split
  · rename_i hi
    rw [if_pos hi] at h
    exact closeTick_phase h
  · rename_i hi
    rw [if_neg hi] at h
    exact openTick_phase h

/-- What every step keeps: a predicate that does not look at the ports, holds after every reset, and is kept by a tick's
opening, a tick's closing and every operation in its phase. -/
theorem step_keeps {I : State → Prop} (henv : ∀ s e, I s → I (s.setEnv e))
    (hreset : ∀ s b, I s → I (resetBundle b s)) (hopen : ∀ s, I s → I (openTick s))
    (hclose : ∀ s, I s → I (closeTick s))
    (hexec : ∀ i s t, I s → (running s = true → s.phase = if isRaw i then .betweenTicks else .policyRunning) →
      exec i s = .next t → I t)
    {s t : State} (h : I s) (hs : step s = .next t) : I t := by
  have hc : ∀ rest, I (consume rest s) := fun rest => henv s _ h
  rcases step_cases hs with ⟨rest, rfl⟩ | ⟨b, rest, _, rfl⟩ | ⟨w, i, rest, _, _, hx⟩
  · exact hclose _ (hopen _ (hc rest))
  · exact hreset _ _ (hc rest)
  · refine hexec i _ t ?_ prepare_phase hx
    unfold prepare
    split
    · exact hclose _ (hc rest)
    · exact hopen _ (hc rest)

/-- What every operation keeps: a predicate kept by each action of the policy and each raw operation. -/
theorem exec_keeps {I : State → Prop}
    (hissue : ∀ cmd s, running s = true → s.phase = .policyRunning → I s → I (issue cmd s))
    (hunchecked : ∀ cmd s, hasCommit cmd = false → running s = true → s.phase = .policyRunning → I s →
      I (issueUnchecked cmd s))
    (hquery : ∀ k b s, running s = true → I s → I (query k b s))
    (hsplit : ∀ hd cs s, running s = true → I s → I (answerSplit hd cs s))
    (hpublish : ∀ x s, running s = true → x.length = sstElems s.cfg → I s → I (publish x s))
    (hread : ∀ b r c n s, I s → I (rawRead b r c n s))
    (hwrite : ∀ b r c n d s, running s = true → I s → I (rawWrite b r c n d s))
    (hraise : ∀ s, running s = true → I s → I (raiseFatal .bank .raw .rawOp 3 s)) {i : Instr} {s t : State}
    (h : I s) (hphase : running s = true → s.phase = if isRaw i then .betweenTicks else .policyRunning)
    (hx : exec i s = .next t) : I t := by
  have live : ∀ (f : State → State), (running s = true → I (f s)) →
      .next (whileRunning f s) = Host.Outcome.next (φ := Fault) (ρ := Refusal) t → I t := by
    intro f hf he
    cases he
    unfold whileRunning
    split
    · exact hf (by assumption)
    · exact h
  cases i with
  | active b r => exact live _ (fun hr => hissue _ _ hr (hphase hr) h) hx
  | read b c ap => exact live _ (fun hr => hissue _ _ hr (hphase hr) h) hx
  | write b c bu ap => exact live _ (fun hr => hissue _ _ hr (hphase hr) h) hx
  | precharge b => exact live _ (fun hr => hissue _ _ hr (hphase hr) h) hx
  | prechargeAll => exact live _ (fun hr => hunchecked _ _ rfl hr (hphase hr) h) hx
  | dummy k => exact live _ (fun hr => hunchecked _ _ rfl hr (hphase hr) h) hx
  | illegalKind5 => exact live _ (fun hr => hunchecked _ _ rfl hr (hphase hr) h) hx
  | illegalKind6 => exact live _ (fun hr => hunchecked _ _ rfl hr (hphase hr) h) hx
  | illegalKind7 => exact live _ (fun hr => hunchecked _ _ rfl hr (hphase hr) h) hx
  | constraintFor k b => exact live _ (fun hr => hquery _ _ _ hr h) hx
  | readRaw b r c n =>
    have he : .next (whileConfigured (rawRead b r c n) s) = Host.Outcome.next (φ := Fault) (ρ := Refusal) t := hx
    cases he
    unfold whileConfigured
    split
    · exact hread _ _ _ _ _ h
    · exact h
  | writeRaw b r c n d => exact live _ (fun hr => hwrite _ _ _ _ _ _ hr h) hx
  | preload b r c n d => exact live _ (fun hr => hwrite _ _ _ _ _ _ hr h) hx
  | rawIllegalOp => exact live _ (fun hr => hraise _ hr h) hx
  | txnRead hd => exact live _ (fun hr => hsplit _ _ _ hr h) hx
  | txnWrite hd m d bm => exact live _ (fun hr => hsplit _ _ _ hr h) hx
  | publishState x =>
    simp only [exec, execPublishState] at hx
    split at hx
    · rename_i hl
      exact live _ (fun hr => hpublish _ _ hr hl h) hx
    · cases hx

end Sys2Proof.Machine
end

