-- ==== Sys2Proof/Laws/Tick.lean ====
section
/-! SUPPORT. What acceptance and the drain can do, said once: the queues after acceptance, and the three drains of a tick
in which no entry is late. -/

namespace Sys2Proof.Machine

/-! ### Acceptance -/

/-- Acceptance does not look at the scheduler's state. -/
theorem accept_setSched (cmd : Command) (x : SchedState) (s : State) :
    accept cmd (s.setSched x) = (accept cmd s).setSched x := by
  have raise : ∀ c o v d, raiseFatal c o v d (s.setSched x) = (raiseFatal c o v d s).setSched x := by
    intro c o v d
    by_cases h : s.fatal.flag = true
    · rw [raiseFatal_halted h, raiseFatal_halted (by simpa using h)]
    · have h : s.fatal.flag = false := by simpa using h
      rw [raiseFatal_live h, raiseFatal_live (by simpa using h)]
      rfl
  have checked : ∀ f : State → State, f (s.setSched x) = (f s).setSched x →
      acceptChecked cmd f (s.setSched x) = (acceptChecked cmd f s).setSched x := by
    intro f hf
    cases ho : operandFault s.cfg cmd with
    | some v => simp [acceptChecked, ho, raise]
    | none =>
      by_cases hk : constraint s.cfg s.M s.cycle (bankOf cmd).toNat (kindOf cmd) = .none
      · simp [acceptChecked, ho, hk, hf]
      · simp [acceptChecked, ho, hk, raise]
  cases cmd with
  | active bank row => exact checked _ rfl
  | read bank col ap =>
    refine checked _ ?_
    simp only [acceptRead, show openRowAt (s.setSched x) bank.toNat = openRowAt s bank.toNat from rfl]
    split
    · exact raise ..
    · rfl
  | write bank col burst ap =>
    refine checked _ ?_
    simp only [acceptWrite, show openRowAt (s.setSched x) bank.toNat = openRowAt s bank.toNat from rfl]
    split
    · exact raise ..
    · rfl
  | precharge bank => exact checked _ rfl
  | prechargeAll => exact raise ..
  | dummy cons =>
    simp only [accept, acceptDummy, show busBusy (s.setSched x) = busBusy s from rfl]
    split <;> rfl
  | illegal kind => exact raise ..

/-- The module accepts the same command whatever state runPolicy returned. -/
theorem acceptBus_policyReturns (s : State) :
    acceptBus (policyReturns s) = (acceptBus s).setSched (policyReturns s).sched := by
  unfold acceptBus
  rw [show (policyReturns s).sched.cmdBus = s.sched.cmdBus from rfl]
  split
  · rfl
  · exact accept_setSched ..

/-- What acceptance does to the queues: entries are appended, none of them late (42 R144, R145). -/
theorem accept_queues (cmd : Command) (s : State) :
    ∃ pins reads writes, (accept cmd s).phys.dataPins = s.phys.dataPins ++ pins ∧
      (accept cmd s).phys.readout = s.phys.readout ++ reads ∧ (accept cmd s).phys.readin = s.phys.readin ++ writes ∧
      (∀ e ∈ pins, s.cycle ≤ e.ts) ∧ (∀ e ∈ reads, s.cycle ≤ e.ts) ∧ ∀ e ∈ writes, s.cycle ≤ e.ts := by
  have same : ∀ t : State, t.phys.dataPins = s.phys.dataPins → t.phys.readout = s.phys.readout →
      t.phys.readin = s.phys.readin →
      ∃ pins reads writes, t.phys.dataPins = s.phys.dataPins ++ pins ∧ t.phys.readout = s.phys.readout ++ reads ∧
        t.phys.readin = s.phys.readin ++ writes ∧ (∀ e ∈ pins, s.cycle ≤ e.ts) ∧ (∀ e ∈ reads, s.cycle ≤ e.ts) ∧
        ∀ e ∈ writes, s.cycle ≤ e.ts := by
    intro t h1 h2 h3
    exact ⟨[], [], [], by simp [h1], by simp [h2], by simp [h3], by simp, by simp, by simp⟩
  have pins : ∀ first n tag, s.cycle ≤ first → ∀ e ∈ pinItems first n tag, s.cycle ≤ e.ts := by
    intro first n tag h e he
    simp only [pinItems, List.mem_map] at he
    obtain ⟨i, _, rfl⟩ := he
    exact Nat.le_add_right_of_le h
  cases cmd with
  | active bank row =>
    simp only [accept, acceptChecked]
    split
    · exact same _ (by simp) (by simp) (by simp)
    · split <;> exact same _ (by simp [acceptActive]) (by simp [acceptActive]) (by simp [acceptActive])
  | read bank col ap =>
    simp only [accept, acceptChecked]
    split
    · exact same _ (by simp) (by simp) (by simp)
    · split
      · simp only [acceptRead]
        split
        · exact same _ (by simp) (by simp) (by simp)
        · exact ⟨_, _, [], rfl, rfl, by simp, pins _ _ _ (by omega), by simp; omega, by simp⟩
      · exact same _ (by simp) (by simp) (by simp)
  | write bank col burst ap =>
    simp only [accept, acceptChecked]
    split
    · exact same _ (by simp) (by simp) (by simp)
    · split
      · simp only [acceptWrite]
        split
        · exact same _ (by simp) (by simp) (by simp)
        · exact ⟨_, [], _, rfl, by simp, rfl, pins _ _ _ (by omega), by simp, by simp; omega⟩
      · exact same _ (by simp) (by simp) (by simp)
  | precharge bank =>
    simp only [accept, acceptChecked]
    split
    · exact same _ (by simp) (by simp) (by simp)
    · split <;> exact same _ (by simp [acceptPrecharge]) (by simp [acceptPrecharge]) (by simp [acceptPrecharge])
  | prechargeAll => exact same _ (by simp [accept]) (by simp [accept]) (by simp [accept])
  | dummy cons =>
    simp only [accept, acceptDummy]
    split <;> exact same _ (by simp) (by simp) (by simp)
  | illegal kind => exact same _ (by simp [accept]) (by simp [accept]) (by simp [accept])

/-- No queue has a late entry after acceptance if none had one before. -/
theorem acceptBus_queues (s : State) :
    ∃ pins reads writes, (acceptBus s).phys.dataPins = s.phys.dataPins ++ pins ∧
      (acceptBus s).phys.readout = s.phys.readout ++ reads ∧ (acceptBus s).phys.readin = s.phys.readin ++ writes ∧
      (∀ e ∈ pins, s.cycle ≤ e.ts) ∧ (∀ e ∈ reads, s.cycle ≤ e.ts) ∧ ∀ e ∈ writes, s.cycle ≤ e.ts := by
  unfold acceptBus
  split
  · exact ⟨[], [], [], by simp, by simp, by simp, by simp, by simp, by simp⟩
  · exact accept_queues ..

/-! ### The drains -/

/-- The drain of `dataPins` when no entry is late (42 R150, R151). -/
theorem drainPins_onTime {s : State} (h : ∀ e ∈ s.phys.dataPins, s.cycle ≤ e.ts) :
    (drainPins s).fatal = s.fatal ∧
      (drainPins s).phys = { s.phys with dataPins := (drainPins s).phys.dataPins } ∧
      (drainPins s).out = { s.out with pinsOut := (drainPins s).out.pinsOut, annotOut := (drainPins s).out.annotOut } ∧
      (drainPins s).out.annotOut = s.phys.annot.map (fun k => { tag := .protocolConstraint, kind := k }) ∧
      (∀ e rest, s.phys.dataPins = e :: rest → e.ts = s.cycle →
        (drainPins s).phys.dataPins = rest ∧ (drainPins s).out.pinsOut = some e.dpi) ∧
      ((∀ e rest, s.phys.dataPins = e :: rest → e.ts ≠ s.cycle) →
        (drainPins s).phys.dataPins = s.phys.dataPins ∧ (drainPins s).out.pinsOut = none) := by
  unfold drainPins
  split
  · rename_i hq
    exact ⟨rfl, rfl, rfl, rfl, by simp [hq], by simp [hq]⟩
  · rename_i e rest hq
    have he : s.cycle ≤ e.ts := h e (by simp [hq])
    rw [if_neg (by omega)]
    split
    · rename_i ht
      refine ⟨rfl, rfl, rfl, rfl, ?_, fun hn => absurd ht (hn e rest hq)⟩
      intro e' rest' hq' _
      obtain ⟨rfl, rfl⟩ := List.cons_eq_cons.1 (hq.symm.trans hq')
      exact ⟨rfl, rfl⟩
    · rename_i ht
      refine ⟨rfl, rfl, rfl, rfl, ?_, fun _ => ⟨rfl, rfl⟩⟩
      intro e' rest' hq' ht'
      obtain ⟨rfl, rfl⟩ := List.cons_eq_cons.1 (hq.symm.trans hq')
      exact absurd ht' ht

/-- The drain of `readout` when no entry is late (42 R150, R152). -/
theorem drainReadout_onTime {s : State} (h : ∀ e ∈ s.phys.readout, s.cycle ≤ e.ts) :
    (drainReadout s).fatal = s.fatal ∧
      (drainReadout s).phys = { s.phys with readout := (drainReadout s).phys.readout } ∧
      (drainReadout s).out = { s.out with replyOut := (drainReadout s).out.replyOut } ∧
      (∀ e rest, s.phys.readout = e :: rest → e.ts = s.cycle →
        (drainReadout s).phys.readout = rest ∧
          (drainReadout s).out.replyOut = some { isWrite := false, burst := e.burst }) ∧
      ((∀ e rest, s.phys.readout = e :: rest → e.ts ≠ s.cycle) →
        (drainReadout s).phys.readout = s.phys.readout ∧ (drainReadout s).out.replyOut = none) := by
  unfold drainReadout
  split
  · rename_i hq
    exact ⟨rfl, rfl, rfl, by simp [hq], by simp [hq]⟩
  · rename_i e rest hq
    have he : s.cycle ≤ e.ts := h e (by simp [hq])
    rw [if_neg (by omega)]
    split
    · rename_i ht
      refine ⟨rfl, rfl, rfl, ?_, fun hn => absurd ht (hn e rest hq)⟩
      intro e' rest' hq' _
      obtain ⟨rfl, rfl⟩ := List.cons_eq_cons.1 (hq.symm.trans hq')
      exact ⟨rfl, rfl⟩
    · rename_i ht
      refine ⟨rfl, rfl, rfl, ?_, fun _ => ⟨rfl, rfl⟩⟩
      intro e' rest' hq' ht'
      obtain ⟨rfl, rfl⟩ := List.cons_eq_cons.1 (hq.symm.trans hq')
      exact absurd ht' ht

/-- The drain of `readin` when no entry is late (42 R150, R152). -/
theorem drainReadin_onTime {s : State} (h : ∀ e ∈ s.phys.readin, s.cycle ≤ e.ts) :
    (drainReadin s).fatal = s.fatal ∧
      (drainReadin s).phys = { s.phys with readin := (drainReadin s).phys.readin } ∧
      (drainReadin s).out = { s.out with replyOut := (drainReadin s).out.replyOut } ∧
      (∀ e rest, s.phys.readin = e :: rest → e.ts = s.cycle →
        (drainReadin s).phys.readin = rest ∧
          (drainReadin s).out.replyOut = some { isWrite := true, burst := e.burst }) ∧
      ((∀ e rest, s.phys.readin = e :: rest → e.ts ≠ s.cycle) →
        (drainReadin s).phys.readin = s.phys.readin ∧ (drainReadin s).out.replyOut = s.out.replyOut) := by
  unfold drainReadin
  split
  · rename_i hq
    exact ⟨rfl, rfl, rfl, by simp [hq], by simp [hq]⟩
  · rename_i e rest hq
    have he : s.cycle ≤ e.ts := h e (by simp [hq])
    rw [if_neg (by omega)]
    split
    · rename_i ht
      refine ⟨rfl, rfl, rfl, ?_, fun hn => absurd ht (hn e rest hq)⟩
      intro e' rest' hq' _
      obtain ⟨rfl, rfl⟩ := List.cons_eq_cons.1 (hq.symm.trans hq')
      exact ⟨rfl, rfl⟩
    · rename_i ht
      refine ⟨rfl, rfl, rfl, ?_, fun _ => ⟨rfl, rfl⟩⟩
      intro e' rest' hq' ht'
      obtain ⟨rfl, rfl⟩ := List.cons_eq_cons.1 (hq.symm.trans hq')
      exact absurd ht' ht

/-- A fatal raised before S4, or in it, leaves the rest of S4 undone. -/
theorem phaseS4_halted {s : State} (h : s.fatal.flag = true) : phaseS4 s = s := by
  simp [phaseS4, whileLive_halted h]

/-- S4 when no entry is late: the three drains, the scheduler's outputs, and the two checks (00 R12). -/
theorem phaseS4_onTime {s : State} (hf : s.fatal.flag = false) (hp : ∀ e ∈ s.phys.dataPins, s.cycle ≤ e.ts)
    (ho : ∀ e ∈ s.phys.readout, s.cycle ≤ e.ts) (hi : ∀ e ∈ s.phys.readin, s.cycle ≤ e.ts) :
    (drainReadin (drainReadout (drainPins s))).fatal = s.fatal ∧
      phaseS4 s =
        whileLive advanceCycle (checkPublished (schedulerOutputs (drainReadin (drainReadout (drainPins s))))) := by
  obtain ⟨f1, p1, _⟩ := drainPins_onTime hp
  obtain ⟨f2, p2, _⟩ := drainReadout_onTime (s := drainPins s) (by rw [drainPins_cycle, p1]; exact ho)
  obtain ⟨f3, p3, _⟩ :=
    drainReadin_onTime (s := drainReadout (drainPins s))
      (by rw [drainReadout_cycle, drainPins_cycle, p2, p1]; exact hi)
  have w1 : whileLive drainPins s = drainPins s := whileLive_live hf _
  have w2 : whileLive drainReadout (drainPins s) = drainReadout (drainPins s) :=
    whileLive_live (by rw [f1]; exact hf) _
  have w3 : whileLive drainReadin (drainReadout (drainPins s)) = drainReadin (drainReadout (drainPins s)) :=
    whileLive_live (by rw [f2, f1]; exact hf) _
  have h3 : (drainReadin (drainReadout (drainPins s))).fatal = s.fatal := by rw [f3, f2, f1]
  refine ⟨h3, ?_⟩
  rw [phaseS4, w1, w2, w3, whileLive_live (by rw [h3]; exact hf) schedulerOutputs,
    whileLive_live (by rw [schedulerOutputs_fatal, h3]; exact hf) checkPublished]

/-- Everything acceptance can do (42 R141): a fatal of its checks; a Dummy; a fatal for want of an open row; or the effect
of a command whose operands and constraint have passed. -/
theorem accept_cases {s : State} (hf : s.fatal.flag = false) (cmd : Command) :
    (∃ v d, accept cmd s = withFatal .physical .accept v d s ∧
      (hasCommit cmd = true →
        operandFault s.cfg cmd ≠ none ∨ constraint s.cfg s.M s.cycle (bankOf cmd).toNat (kindOf cmd) ≠ .none) ∧
      (hasCommit cmd = false → v = .unknownCommand ∨ v = .prechargeAllUnsupported) ∧
      v ≠ .noActiveRow ∧ v ≠ .queueLate) ∨
    (∃ k, cmd = .dummy k ∧ accept cmd s = acceptDummy k s) ∨
    (hasCommit cmd = true ∧ operandFault s.cfg cmd = none ∧
      constraint s.cfg s.M s.cycle (bankOf cmd).toNat (kindOf cmd) = .none ∧
      ((accept cmd s = withFatal .bank .access .noActiveRow (bankOf cmd).toNat s ∧
          openRowAt s (bankOf cmd).toNat = none ∧ (kindOf cmd = .read ∨ kindOf cmd = .write)) ∨
        (∃ b r, cmd = .active b r ∧ accept cmd s = acceptActive b r s) ∨
        (∃ b c ap row, cmd = .read b c ap ∧ openRowAt s b.toNat = some row ∧
          accept cmd s =
            (s.setM (commit s.cfg s.cycle cmd s.M)).setPhys
              { s.phys with
                dataPins := s.phys.dataPins ++ pinItems (s.cycle + s.cfg.lat.CAS) (btt s.cfg) .read
                readout :=
                  s.phys.readout ++
                    [{ ts := s.cycle + s.cfg.lat.CAS + btt s.cfg, burst := readBurst s b row c.toNat }] }) ∨
        (∃ b c u ap row, cmd = .write b c u ap ∧ openRowAt s b.toNat = some row ∧
          accept cmd s =
            (s.setM (commit s.cfg s.cycle cmd s.M)).setPhys
              { s.phys with
                mem := memWrite s.cfg.memInit s.phys.mem b.toNat row.toNat c.toNat (u.slots.take s.cfg.BL)
                dataPins := s.phys.dataPins ++ pinItems (s.cycle + s.cfg.lat.WL) (btt s.cfg) .write
                readin := s.phys.readin ++ [{ ts := s.cycle + s.cfg.lat.WL + btt s.cfg, burst := u }] }) ∨
        (∃ b, cmd = .precharge b ∧ accept cmd s = s.setM (commit s.cfg s.cycle cmd s.M)))) := by
  have checked : ∀ f : State → State, hasCommit cmd = true →
      (∃ v d, acceptChecked cmd f s = withFatal .physical .accept v d s ∧
        (hasCommit cmd = true →
          operandFault s.cfg cmd ≠ none ∨ constraint s.cfg s.M s.cycle (bankOf cmd).toNat (kindOf cmd) ≠ .none) ∧
        (hasCommit cmd = false → v = .unknownCommand ∨ v = .prechargeAllUnsupported) ∧
        v ≠ .noActiveRow ∧ v ≠ .queueLate) ∨
      operandFault s.cfg cmd = none ∧ constraint s.cfg s.M s.cycle (bankOf cmd).toNat (kindOf cmd) = .none ∧
        acceptChecked cmd f s = f s := by
    intro f hc
    simp only [acceptChecked]
    cases ho : operandFault s.cfg cmd with
    | some v =>
      refine .inl ⟨_, _, raiseFatal_live hf .., by simp, by simp [hc], ?_⟩
      rcases operandFault_kind ho with h | h <;> simp [h]
    | none =>
      by_cases hk : constraint s.cfg s.M s.cycle (bankOf cmd).toNat (kindOf cmd) = .none
      · exact .inr ⟨rfl, hk, if_pos hk⟩
      · exact .inl ⟨_, _, (if_neg hk).trans (raiseFatal_live hf ..), fun _ => .inr hk, by simp [hc], by simp⟩
  cases cmd with
  | illegal kind => exact .inl ⟨_, _, raiseFatal_live hf .., by simp [hasCommit], by simp, by simp⟩
  | prechargeAll => exact .inl ⟨_, _, raiseFatal_live hf .., by simp [hasCommit], by simp, by simp⟩
  | dummy cons => exact .inr (.inl ⟨cons, rfl, rfl⟩)
  | active bank row =>
    rcases checked (acceptActive bank row) rfl with h | ⟨ho, hk, he⟩
    · exact .inl h
    · exact .inr (.inr ⟨rfl, ho, hk, .inr (.inl ⟨bank, row, rfl, he⟩)⟩)
  | precharge bank =>
    rcases checked (acceptPrecharge bank) rfl with h | ⟨ho, hk, he⟩
    · exact .inl h
    · exact .inr (.inr ⟨rfl, ho, hk, .inr (.inr (.inr (.inr ⟨bank, rfl, he⟩)))⟩)
  | read bank col ap =>
    rcases checked (acceptRead bank col ap) rfl with h | ⟨ho, hk, he⟩
    · exact .inl h
    · refine .inr (.inr ⟨rfl, ho, hk, ?_⟩)
      cases hr : openRowAt s bank.toNat with
      | none =>
        refine .inl ⟨he.trans ?_, hr, .inl rfl⟩
        simp only [acceptRead, hr]
        exact raiseFatal_live hf ..
      | some row =>
        refine .inr (.inr (.inl ⟨bank, col, ap, row, rfl, hr, he.trans ?_⟩))
        simp only [acceptRead, hr]
        rfl
  | write bank col burst ap =>
    rcases checked (acceptWrite bank col burst ap) rfl with h | ⟨ho, hk, he⟩
    · exact .inl h
    · refine .inr (.inr ⟨rfl, ho, hk, ?_⟩)
      cases hr : openRowAt s bank.toNat with
      | none =>
        refine .inl ⟨he.trans ?_, hr, .inr rfl⟩
        simp only [acceptWrite, hr]
        exact raiseFatal_live hf ..
      | some row =>
        refine .inr (.inr (.inr (.inl ⟨bank, col, burst, ap, row, rfl, hr, he.trans ?_⟩)))
        simp only [acceptWrite, hr]
        rfl

/-- Acceptance that raises no fatal leaves the record as it was. -/
theorem acceptBus_fatal {s : State} (h : (acceptBus s).fatal.flag = false) : (acceptBus s).fatal = s.fatal := by
  have raise : ∀ (t : State) c o v d, (raiseFatal c o v d t).fatal.flag = false → False := by
    intro t c o v d hf
    simp at hf
  have checked : ∀ (cmd : Command) (f : State → State), (acceptChecked cmd f s).fatal.flag = false →
      ((f s).fatal.flag = false → (f s).fatal = s.fatal) → (acceptChecked cmd f s).fatal = s.fatal := by
    intro cmd f hc hf
    simp only [acceptChecked] at hc ⊢
    cases ho : operandFault s.cfg cmd with
    | some v => simp [ho] at hc
    | none =>
      simp only [ho] at hc ⊢
      by_cases hk : constraint s.cfg s.M s.cycle (bankOf cmd).toNat (kindOf cmd) = .none
      · rw [if_pos hk] at hc ⊢
        exact hf hc
      · rw [if_neg hk] at hc
        simp at hc
  unfold acceptBus at h ⊢
  split at h
  · rfl
  · rename_i cmd _
    cases cmd with
    | illegal kind => exact (raise _ _ _ _ _ h).elim
    | prechargeAll => exact (raise _ _ _ _ _ h).elim
    | dummy cons => simp [accept]
    | active bank row => exact checked _ _ h fun _ => rfl
    | precharge bank => exact checked _ _ h fun _ => rfl
    | read bank col ap =>
      refine checked _ _ h fun h => ?_
      simp only [acceptRead] at h ⊢
      cases hr : openRowAt s bank.toNat with
      | none => simp [hr] at h
      | some row => simp
    | write bank col burst ap =>
      refine checked _ _ h fun h => ?_
      simp only [acceptWrite] at h ⊢
      cases hr : openRowAt s bank.toNat with
      | none => simp [hr] at h
      | some row => simp

end Sys2Proof.Machine
end

