-- ==== Sys2Proof/Laws/Invariants.lean ====
section
/-! SUPPORT. What the parts of a tick do to the invariants of Safety.lean, part by part: the start of a tick, acceptance,
the drain and the commits; and which fatal records the operations can write. -/

namespace Sys2Proof.Machine

/-! ### The start of a tick -/

@[simp] theorem startTick_phase (s : State) : (startTick s).phase = .policyRunning := rfl

@[simp] theorem startTick_cfg (s : State) : (startTick s).cfg = s.cfg := by
  simp [startTick, phaseS1, clearTick]

@[simp] theorem startTick_configError (s : State) : (startTick s).configError = s.configError := by
  simp [startTick, phaseS1, clearTick]

@[simp] theorem startTick_cycle (s : State) : (startTick s).cycle = s.cycle := by
  simp [startTick, phaseS1, clearTick]

@[simp] theorem startTick_fatal (s : State) : (startTick s).fatal = s.fatal := by
  simp [startTick, phaseS1, clearTick]

@[simp] theorem startTick_out (s : State) : (startTick s).out = s.out := by
  simp [startTick, phaseS1, clearTick]

@[simp] theorem startTick_P (s : State) : (startTick s).P = passive s.cfg s.cycle s.P := by
  simp [startTick, phaseS1, clearTick]

@[simp] theorem startTick_M (s : State) : (startTick s).M = passive s.cfg s.cycle s.M := by
  simp [startTick, phaseS1, clearTick]

@[simp] theorem startTick_phys (s : State) :
    (startTick s).phys =
      { s.phys with openRow := passiveRows s.cfg s.cycle s.M s.phys.openRow, annot := none } := by
  simp [startTick, phaseS1, clearTick]

/-- Of the scheduler's state a tick's start leaves all but the in-tick values, `policyState` and the completion. -/
theorem startTick_sched (s : State) :
    (startTick s).sched =
      { s.sched with
        published := false, issued := false, pendingState := [], cmdBus := none, answers := []
        policyState := (startTick s).sched.policyState
        pendingCompletion := (startTick s).sched.pendingCompletion } := by
  unfold startTick phaseS2 takeReply takeTxn
  simp only [State.setPhase_sched]
  split <;> split <;> (try split) <;> rfl

theorem openTick_fatal (s : State) : (openTick s).fatal = s.fatal := by
  unfold openTick
  split
  · rfl
  · unfold whileRunning
    split <;> simp

/-! ### The end of a tick -/

/-- What `f` leaves alone, `whileLive f` leaves alone. -/
theorem whileLive_frame {α : Type} (field : State → α) {f : State → State} (h : ∀ s, field (f s) = field s) (s : State) :
    field (whileLive f s) = field s := by
  unfold whileLive
  split
  · rfl
  · exact h s

@[simp] theorem phaseS4_M (s : State) : (phaseS4 s).M = s.M := by
  simp [phaseS4, whileLive_frame State.M]

@[simp] theorem phaseS4_P (s : State) : (phaseS4 s).P = s.P := by
  simp [phaseS4, whileLive_frame State.P]

@[simp] theorem phaseS4_cfg (s : State) : (phaseS4 s).cfg = s.cfg := by
  simp [phaseS4, whileLive_frame State.cfg]

@[simp] theorem phaseS4_configError (s : State) : (phaseS4 s).configError = s.configError := by
  simp [phaseS4, whileLive_frame State.configError]

/-- The drain leaves the row markers alone. -/
theorem phaseS4_openRow (s : State) : (phaseS4 s).phys.openRow = s.phys.openRow := by
  have pins : ∀ s, (drainPins s).phys.openRow = s.phys.openRow := by
    intro s
    unfold drainPins
    split
    · rfl
    · split
      · simp
      · split <;> rfl
  have readout : ∀ s, (drainReadout s).phys.openRow = s.phys.openRow := by
    intro s
    unfold drainReadout
    split
    · rfl
    · split
      · simp
      · split <;> rfl
  have readin : ∀ s, (drainReadin s).phys.openRow = s.phys.openRow := by
    intro s
    unfold drainReadin
    split
    · rfl
    · split
      · simp
      · split <;> rfl
  have advance : ∀ s, (advanceCycle s).phys.openRow = s.phys.openRow := by
    intro s
    unfold advanceCycle
    split
    · simp
    · rfl
  have check : ∀ s, (checkPublished s).phys.openRow = s.phys.openRow := by simp
  have outputs : ∀ s, (schedulerOutputs s).phys.openRow = s.phys.openRow := by simp
  unfold phaseS4
  rw [whileLive_frame (fun s => s.phys.openRow) advance, whileLive_frame (fun s => s.phys.openRow) check,
    whileLive_frame (fun s => s.phys.openRow) outputs, whileLive_frame (fun s => s.phys.openRow) readin,
    whileLive_frame (fun s => s.phys.openRow) readout, whileLive_frame (fun s => s.phys.openRow) pins]

/-- What is left of a strictly sorted queue with no late entry after its due head has left. -/
theorem drain_sorted {α : Type} (ts : α → Nat) {q q' : List α} {c : Nat} (hs : q.Pairwise (fun x y => ts x < ts y))
    (hc : ∀ e ∈ q, c ≤ ts e) (hdue : ∀ e rest, q = e :: rest → ts e = c → q' = rest)
    (hnot : (∀ e rest, q = e :: rest → ts e ≠ c) → q' = q) :
    q'.Pairwise (fun x y => ts x < ts y) ∧ (∀ e ∈ q', c + 1 ≤ ts e) ∧ ∀ e ∈ q', e ∈ q := by
  cases q with
  | nil =>
    rw [hnot (by simp)]
    simp
  | cons e rest =>
    rw [List.pairwise_cons] at hs
    have he := hc e (by simp)
    by_cases h : ts e = c
    · rw [hdue e rest rfl h]
      refine ⟨hs.2, fun x hx => ?_, fun x hx => by simp [hx]⟩
      have := hs.1 x hx
      omega
    · rw [hnot (by rintro e' r' hq; cases hq; exact h)]
      refine ⟨List.pairwise_cons.2 hs, fun x hx => ?_, fun x hx => hx⟩
      rcases List.mem_cons.1 hx with rfl | hx
      · omega
      · have := hs.1 x hx
        omega

/-! ### Fatal records -/

/-- If a fatal is recorded, its component and invariant are among those of `Q`. -/
def recordIn (Q : Component → Invariant → Prop) (s : State) : Prop :=
  s.fatal.flag = true → Q s.fatal.component s.fatal.violated

theorem recordIn_withFatal {Q : Component → Invariant → Prop} {c o v d s} (h : Q c v) :
    recordIn Q (withFatal c o v d s) :=
  fun _ => h

theorem recordIn_raise {Q : Component → Invariant → Prop} {c o v d s} (h : Q c v) (hs : recordIn Q s) :
    recordIn Q (raiseFatal c o v d s) := by
  by_cases hf : s.fatal.flag = true
  · rw [raiseFatal_halted hf]
    exact hs
  · rw [raiseFatal_live (by simpa using hf)]
    exact recordIn_withFatal h

theorem bankFault_kind {cfg : Cfg} {b : BitVec 16} {v : Violation} (h : bankFault cfg b = some v) :
    v.1 = .outOfRange := by
  unfold bankFault at h
  split at h <;> simp at h
  simp [← h]

theorem rawFault_kind {cfg : Cfg} {b : BitVec 16} {r c n : BitVec 32} {v : Violation}
    (h : rawFault cfg b r c n = some v) : v.1 = .outOfRange ∨ v.1 = .rawLength := by
  unfold rawFault at h
  split_ifs at h <;> simp at h <;> simp [← h]

theorem splitFault_kind {cfg : Cfg} {hd : TxnHeader} {v : Violation} (h : splitFault cfg hd = some v) :
    v.1 = .outOfRange := by
  unfold splitFault at h
  split_ifs at h <;> simp at h <;> simp [← h]

/-- The records an operation can write (60 R225, R227, R229, R231, R238, R239). -/
theorem recordIn_exec {Q : Component → Invariant → Prop}
    (hpolicy : ∀ c v, (c = .scheduler ∨ c = .predictive) →
      (v = .secondCommandInTick ∨ v = .outOfRange ∨ v = .burstLength ∨ v = .constraintViolated ∨ v = .publishTwice) →
      Q c v)
    (hraw : ∀ v, (v = .outOfRange ∨ v = .rawLength ∨ v = .rawOp) → Q .bank v) {i : Instr} {s t : State}
    (h : recordIn Q s) (hphase : running s = true → s.phase = if isRaw i then .betweenTicks else .policyRunning)
    (hx : exec i s = .next t) : recordIn Q t := by
  refine exec_keeps (I := recordIn Q) ?_ ?_ ?_ ?_ ?_ ?_ ?_ ?_ h hphase hx
  · intro cmd s hr _ h
    rcases issue_cases ((running_iff _).1 hr).1 cmd with ⟨c, o, v, d, e, h1, h2⟩ | ⟨_, _, _, e⟩ <;> rw [e]
    · exact recordIn_withFatal (hpolicy _ _ h1 (by tauto))
    · exact h
  · intro cmd s _ hr _ h
    rcases issueUnchecked_cases ((running_iff _).1 hr).1 cmd with ⟨d, e⟩ | ⟨_, e⟩ <;> rw [e]
    · exact recordIn_withFatal (hpolicy _ _ (by simp) (by simp))
    · exact h
  · intro k b s _ h
    unfold query
    split
    · rename_i v hv
      exact recordIn_raise (hpolicy _ _ (by simp) (by simp [bankFault_kind hv])) h
    · exact h
  · intro hd cs s _ h
    unfold answerSplit
    split
    · rename_i v hv
      exact recordIn_raise (hpolicy _ _ (by simp) (by simp [splitFault_kind hv])) h
    · exact h
  · intro x s _ _ h
    unfold publish
    split
    · exact recordIn_raise (hpolicy _ _ (by simp) (by simp)) h
    · exact h
  · intro b r c n s h
    unfold rawRead
    split
    · rename_i v hv
      exact recordIn_raise (hraw _ (by rcases rawFault_kind hv with h | h <;> simp [h])) h
    · exact h
  · intro b r c n d s _ h
    unfold rawWrite
    split
    · rename_i v hv
      exact recordIn_raise (hraw _ (by rcases rawFault_kind hv with h | h <;> simp [h])) h
    · exact h
  · intro s _ h
    exact recordIn_raise (hraw _ (by simp)) h

/-- The records S4 can write (60 R226, R232, R239). -/
theorem recordIn_phaseS4 {Q : Component → Invariant → Prop} (hlate : Q .physical .queueLate)
    (hmissing : Q .scheduler .publishMissing) (hover : Q .engine .cycleOverflow) {s : State} (h : recordIn Q s) :
    recordIn Q (phaseS4 s) := by
  have live : ∀ (f : State → State) (s : State), (recordIn Q s → recordIn Q (f s)) → recordIn Q s →
      recordIn Q (whileLive f s) := by
    intro f s hf h
    unfold whileLive
    split
    · exact h
    · exact hf h
  unfold phaseS4
  refine live _ _ ?_ (live _ _ ?_ (live _ _ ?_ (live _ _ ?_ (live _ _ ?_ (live _ _ ?_ h)))))
  · intro h
    unfold advanceCycle
    split
    · exact recordIn_raise hover h
    · exact h
  · intro h
    unfold checkPublished
    split
    · exact h
    · exact recordIn_raise hmissing h
  · intro h
    exact h
  · intro h
    unfold drainReadin
    split
    · exact h
    · split
      · exact recordIn_raise hlate h
      · split <;> exact h
  · intro h
    unfold drainReadout
    split
    · exact h
    · split
      · exact recordIn_raise hlate h
      · split <;> exact h
  · intro h
    unfold drainPins
    split
    · exact h
    · split
      · exact recordIn_raise hlate h
      · split <;> exact h

/-- With a fatal recorded no tick runs. -/
theorem not_running_of_fatal {s : State} (h : s.fatal.flag = true) : running s ≠ true := by
  intro hr
  have := ((running_iff _).1 hr).1
  simp_all

/-! ### Commits -/

/-- Dummy, Precharge(ALL) and the reserved kinds have no commit (41 R128). -/
theorem commit_of_not_hasCommit {cmd : Command} (h : hasCommit cmd = false) (cfg : Cfg) (c : Nat) (T : Timing) :
    commit cfg c cmd T = T := by
  cases cmd <;> simp_all [hasCommit, commit]

theorem flagInv_passive {cfg : Cfg} {c : Nat} {T : Timing} (h : flagInv T) : flagInv (passive cfg c T) := by
  intro r hr
  simp only [passive, List.mem_map] at hr
  obtain ⟨r', hr', rfl⟩ := hr
  have := h r' hr'
  unfold passiveBank passiveActivating passiveReading passiveWriting passivePrecharging
  split <;> (try split) <;> (try split) <;> (try split) <;> simp_all

theorem flagInv_commit {cfg : Cfg} {c : Nat} {cmd : Command} {T : Timing} (h : flagInv T) :
    flagInv (commit cfg c cmd T) := by
  have upd : ∀ b f, (∀ r, (f r).autoprecharge = true → (f r).status = .reading ∨ (f r).status = .writing) →
      ∀ r ∈ (updateBank T b f).banks, r.autoprecharge = true → r.status = .reading ∨ r.status = .writing := by
    intro b f hf r hr
    rcases mem_updateBank hr with ⟨_, rfl⟩ | hr
    · exact hf _
    · exact h r hr
  cases cmd with
  | active b r => exact upd _ _ (by simp)
  | read b c ap => exact upd _ _ (by simp)
  | write b c u ap => exact upd _ _ (by simp)
  | precharge b =>
    simp only [commit, commitPrecharge]
    split
    · exact h
    · exact upd _ _ (by simp)
  | prechargeAll => exact h
  | dummy _ => exact h
  | illegal _ => exact h

/-- One burst occupies the data bus for 1 to 128 cycles (00 R9). -/
theorem btt_range {cfg : Cfg} (h : cfgValid cfg = true) : 0 < btt cfg ∧ btt cfg ≤ 128 := by
  have h := (cfgValid_iff cfg).1 h
  unfold btt
  constructor
  · refine Nat.div_pos (Nat.le_of_dvd (by omega) ?_) (by omega)
    exact Nat.dvd_of_mod_eq_zero h.2.2.2.2.2.2.2.2.2.2.2.1
  · exact (Nat.div_le_self _ _).trans (by omega)

theorem nearCycle_succ {c v : Nat} (h : nearCycle c v) : nearCycle (c + 1) v := by
  unfold nearCycle at *
  omega

theorem timingNear_succ {c : Nat} {T : Timing} (h : timingNear c T) : timingNear (c + 1) T := by
  obtain ⟨h0, h1, h2, h3, h4, h5, h6⟩ := h
  exact ⟨fun r hr => ⟨nearCycle_succ (h0 r hr).1, nearCycle_succ (h0 r hr).2⟩, nearCycle_succ h1, nearCycle_succ h2,
    nearCycle_succ h3, nearCycle_succ h4, nearCycle_succ h5, nearCycle_succ h6⟩

theorem timingNear_passive {cfg : Cfg} {c : Nat} {T : Timing} (hv : cfgValid cfg = true) (h : timingNear c T) :
    timingNear c (passive cfg c T) := by
  have hl := (cfgValid_iff cfg).1 hv
  refine ⟨?_, h.2⟩
  intro r hr
  simp only [passive, List.mem_map] at hr
  obtain ⟨r', hr', rfl⟩ := hr
  have := h.1 r' hr'
  unfold nearCycle at *
  unfold passiveBank passiveActivating passiveReading passiveWriting passivePrecharging
  split <;> (try split) <;> (try split) <;> (try split) <;> simp_all <;> omega

theorem timingNear_commit {cfg : Cfg} {c : Nat} {cmd : Command} {T : Timing} (hv : cfgValid cfg = true)
    (h : timingNear c T) : timingNear c (commit cfg c cmd T) := by
  have hl := (cfgValid_iff cfg).1 hv
  have hb := btt_range hv
  have now : nearCycle c c := by
    unfold nearCycle
    omega
  have soon : ∀ v, v ≤ 2 ^ 33 → nearCycle c (c + v) := by
    intro v hv
    unfold nearCycle
    omega
  have rcd : nearCycle c (c + cfg.lat.tRCD) := soon _ (by omega)
  have rp : nearCycle c (c + cfg.lat.tRP) := soon _ (by omega)
  have rd : nearCycle c (c + cfg.lat.CAS + btt cfg) := by
    rw [Nat.add_assoc]
    exact soon _ (by omega)
  have wr : nearCycle c (c + cfg.lat.WL + btt cfg) := by
    rw [Nat.add_assoc]
    exact soon _ (by omega)
  obtain ⟨h0, h1, h2, h3, h4, h5, h6⟩ := h
  have upd : ∀ b f, (∀ r, nearCycle c r.endCycle ∧ nearCycle c r.lastWriteEnd →
        nearCycle c (f r).endCycle ∧ nearCycle c (f r).lastWriteEnd) →
      ∀ r ∈ (updateBank T b f).banks, nearCycle c r.endCycle ∧ nearCycle c r.lastWriteEnd := by
    intro b f hf r hr
    rcases mem_updateBank hr with ⟨hb, rfl⟩ | hr
    · exact hf _ (h0 _ (bankAt_mem hb))
    · exact h0 r hr
  cases cmd with
  | active b r => exact ⟨upd _ _ fun r hr => ⟨rcd, hr.2⟩, now, rcd, h3, h4, h5, h6⟩
  | read b x ap => exact ⟨upd _ _ fun r hr => ⟨rd, hr.2⟩, h1, h2, now, rd, h5, h6⟩
  | write b x u ap => exact ⟨upd _ _ fun r hr => ⟨wr, wr⟩, h1, h2, h3, h4, now, wr⟩
  | precharge b =>
    simp only [commit, commitPrecharge]
    split
    · exact ⟨h0, h1, h2, h3, h4, h5, h6⟩
    · exact ⟨upd _ _ fun r hr => ⟨rp, hr.2⟩, h1, h2, h3, h4, h5, h6⟩
  | prechargeAll => exact ⟨h0, h1, h2, h3, h4, h5, h6⟩
  | dummy _ => exact ⟨h0, h1, h2, h3, h4, h5, h6⟩
  | illegal _ => exact ⟨h0, h1, h2, h3, h4, h5, h6⟩

theorem edge_refl (x : BankStatus) : edge x x = true := by
  cases x <;> decide

theorem edge_passiveBank (cfg : Cfg) (c : Nat) (r : BankRec) : edge r.status (passiveBank cfg c r).status = true := by
  unfold passiveBank passiveActivating passiveReading passiveWriting passivePrecharging
  split <;> (try split) <;> (try split) <;> (try split) <;> simp_all [edge]

/-- A commit whose constraint is `None` moves its bank along an edge of the diagram, and no other bank (41 R120). -/
theorem edge_commit {cfg : Cfg} {c : Nat} {cmd : Command} {T : Timing} (h : hasCommit cmd = true)
    (hk : constraint cfg T c (bankOf cmd).toNat (kindOf cmd) = .none) (b : Nat) :
    edge (bankAt T b).status (bankAt (commit cfg c cmd T) b).status = true := by
  have upd : ∀ (n : Nat) (f : BankRec → BankRec) (T' : Timing), T'.banks = (updateBank T n f).banks →
      (n < T.banks.length → edge (bankAt T n).status (f (bankAt T n)).status = true) →
      edge (bankAt T b).status (bankAt T' b).status = true := by
    intro n f T' hT hf
    rw [show bankAt T' b = bankAt (updateBank T n f) b by unfold bankAt; rw [hT], bankAt_updateBank]
    split
    · rename_i hh
      obtain ⟨rfl, hl⟩ := hh
      exact hf hl
    · exact edge_refl _
  cases cmd with
  | active bk r =>
    refine upd bk.toNat _ _ rfl fun _ => ?_
    have h1 : (bankAt T bk.toNat).status = .idle := (constraintActive_none hk).1
    simp [edge, h1]
  | read bk x ap =>
    refine upd bk.toNat _ _ rfl fun hl => ?_
    have hk := constraintRead_none hk
    have hw := not_anyWriting hk.2.1 (bankAt_mem hl)
    have h3 : (bankAt T bk.toNat).status = .active ∨ (bankAt T bk.toNat).status = .reading ∨
        (bankAt T bk.toNat).status = .writing := hk.2.2.1
    cases hs : (bankAt T bk.toNat).status <;> simp_all [edge]
  | write bk x u ap =>
    refine upd bk.toNat _ _ rfl fun _ => ?_
    have h3 : (bankAt T bk.toNat).status = .active ∨ (bankAt T bk.toNat).status = .reading ∨
        (bankAt T bk.toNat).status = .writing := (constraintWrite_none hk).2.2.1
    cases hs : (bankAt T bk.toNat).status <;> simp_all [edge]
  | precharge bk =>
    simp only [commit, commitPrecharge]
    split
    · exact edge_refl _
    · refine upd bk.toNat _ _ rfl fun _ => ?_
      have h2 : (bankAt T bk.toNat).status ≠ .activating := (constraintPrecharge_none hk).2.1
      cases hs : (bankAt T bk.toNat).status <;> simp_all [edge]
  | prechargeAll => simp [hasCommit] at h
  | dummy _ => simp [hasCommit] at h
  | illegal _ => simp [hasCommit] at h

/-! ### Acceptance -/

/-- A command that `P` has committed and the module accepts leaves `M` equal to `P` (10 R26). -/
theorem acceptBus_mirrors {s : State} (hr : running s = true) (hp : s.phase = .policyRunning) (h : mirrorInv s)
    (hf : (acceptBus (policyReturns s)).fatal.flag = false) : (acceptBus (policyReturns s)).M = s.P := by
  have hm := h hr
  simp only [hp] at hm
  have hl : (policyReturns s).fatal.flag = false := ((running_iff _).1 hr).1
  unfold acceptBus at hf ⊢
  rw [show (policyReturns s).sched.cmdBus = s.sched.cmdBus from rfl] at hf ⊢
  split
  · rename_i hb
    simp only [hb] at hm
    exact hm.symm
  · rename_i cmd hb
    simp only [hb] at hm hf
    rw [hm.2.1]
    rcases accept_cases hl cmd with
      ⟨v, d, e, _⟩ | ⟨k, rfl, e⟩ |
        ⟨_, _, _, ⟨e, _⟩ | ⟨b, r, rfl, e⟩ | ⟨b, c, ap, row, rfl, _, e⟩ | ⟨b, c, u, ap, row, rfl, _, e⟩ |
          ⟨b, rfl, e⟩⟩ <;> rw [e] at hf ⊢
    · simp [withFatal] at hf
    · unfold acceptDummy
      split <;> rfl
    · simp [withFatal] at hf
    all_goals rfl

/-- The start of a tick keeps the row markers beside their banks (42 R155). -/
theorem rowInv_startTick {s : State} (h : rowInv s) : rowInv (startTick s) := by
  intro b hb
  rw [startTick_cfg] at hb
  have hr := h b hb
  unfold openRowAt at *
  rw [startTick_phys, startTick_M, bankAt_passive, passiveRows_getD]
  unfold entersIdle
  by_cases hi : (bankAt s.M b).status = .idle
  · have hp : passiveBank s.cfg s.cycle (bankAt s.M b) = bankAt s.M b := by simp [passiveBank, hi]
    rw [hp]
    simpa [hi] using hr
  · by_cases hi2 : (passiveBank s.cfg s.cycle (bankAt s.M b)).status = .idle
    · simp [hi, hi2]
    · simpa [hi, hi2] using hr

/-- Acceptance keeps the row markers beside their banks (42 R155). -/
theorem rowInv_accept {s : State} (hs : shapeInv s) (h : rowInv s) (hf : s.fatal.flag = false) (cmd : Command) :
    rowInv (accept cmd s) := by
  obtain ⟨_, _, hM, hO, _⟩ := hs
  have one : ∀ {t : State} {b : Nat}, t.cfg = s.cfg → b < s.cfg.NB →
      (∀ b', b' ≠ b → bankAt t.M b' = bankAt s.M b' ∧ openRowAt t b' = openRowAt s b') →
      (openRowAt t b = none ↔ (bankAt t.M b).status = .idle) → rowInv t := by
    intro t b hc _ hother hb b' hb'
    rw [hc] at hb'
    by_cases e : b' = b
    · subst e
      exact hb
    · rw [(hother b' e).1, (hother b' e).2]
      exact h b' hb'
  have other : ∀ (b b' : Nat) (f : BankRec → BankRec), b' ≠ b → bankAt (updateBank s.M b f) b' = bankAt s.M b' := by
    intro b b' f hne
    rw [bankAt_updateBank, if_neg (by omega)]
  have same : ∀ (b : Nat) (f : BankRec → BankRec), b < s.cfg.NB → bankAt (updateBank s.M b f) b = f (bankAt s.M b) := by
    intro b f hb
    rw [bankAt_updateBank, if_pos ⟨rfl, by omega⟩]
  rcases accept_cases hf cmd with
    ⟨v, d, e, _⟩ | ⟨k, rfl, e⟩ |
      ⟨_, ho, hk, ⟨e, _⟩ | ⟨b, r, rfl, e⟩ | ⟨b, c, ap, row, rfl, hrow, e⟩ | ⟨b, c, u, ap, row, rfl, hrow, e⟩ |
        ⟨b, rfl, e⟩⟩ <;> rw [e]
  · exact h
  · unfold acceptDummy
    split <;> exact h
  · exact h
  · have hb := ((operandFault_active_none_iff ..).1 ho).1
    refine one rfl hb (fun b' hne => ⟨other _ _ _ hne, ?_⟩) ?_
    · simp [openRowAt, acceptActive, List.getD_eq_getElem?_getD, Ne.symm hne]
    · rw [show bankAt (acceptActive b r s).M b.toNat = _ from same b.toNat _ hb]
      simp [openRowAt, acceptActive, List.getD_eq_getElem?_getD, hO, hb]
  · have hb := ((operandFault_read_none_iff ..).1 ho).1
    refine one rfl hb (fun b' hne => ⟨other _ _ _ hne, rfl⟩) ?_
    show openRowAt s b.toNat = none ↔ (bankAt (commit s.cfg s.cycle (.read b c ap) s.M) b.toNat).status = .idle
    rw [show bankAt (commit s.cfg s.cycle (.read b c ap) s.M) b.toNat = _ from same b.toNat _ hb, hrow]
    simp
  · have hb := ((operandFault_write_none_iff ..).1 ho).1
    refine one rfl hb (fun b' hne => ⟨other _ _ _ hne, rfl⟩) ?_
    show openRowAt s b.toNat = none ↔ (bankAt (commit s.cfg s.cycle (.write b c u ap) s.M) b.toNat).status = .idle
    rw [show bankAt (commit s.cfg s.cycle (.write b c u ap) s.M) b.toNat = _ from same b.toNat _ hb, hrow]
    simp
  · have hb := (operandFault_precharge_none_iff ..).1 ho
    simp only [commit, commitPrecharge]
    split
    · exact h
    · rename_i hne
      refine one rfl hb (fun b' hne => ⟨other _ _ _ hne, rfl⟩) ?_
      show openRowAt s b.toNat = none ↔ (bankAt (updateBank s.M b.toNat _) b.toNat).status = .idle
      rw [same _ _ hb, h _ hb]
      simpa using fun hi => hne (.inl hi)

theorem pinItems_sorted (first n : Nat) (tag : PinTag) :
    (pinItems first n tag).Pairwise (fun x y => x.ts < y.ts) := by
  unfold pinItems
  rw [List.pairwise_map]
  exact List.Pairwise.imp (fun h => Nat.add_lt_add_left h _) List.pairwise_lt_range

theorem mem_pinItems {first n : Nat} {tag : PinTag} {e : PinItem} (h : e ∈ pinItems first n tag) :
    first ≤ e.ts ∧ e.ts < first + n := by
  simp only [pinItems, List.mem_map, List.mem_range] at h
  obtain ⟨i, hi, rfl⟩ := h
  exact ⟨Nat.le_add_right _ _, Nat.add_lt_add_left hi _⟩

/-- Acceptance keeps the bus in order: what it appends lies past every entry there (42 R148, R153). -/
theorem busOrder_accept {s : State} (hv : cfgValid s.cfg = true) (hw : lastWriteInv s) (hq : queueInv s)
    (hf : s.fatal.flag = false) (cmd : Command) (hf' : (accept cmd s).fatal.flag = false) :
    lastWriteInv (accept cmd s) ∧ queueInv (accept cmd s) := by
  have hb := btt_range hv
  obtain ⟨w1, w2⟩ := id hw
  obtain ⟨q1, q2, q3, q4, q5, q6, q7⟩ := id hq
  have stay : ∀ (t : State) (b : Nat) (f : BankRec → BankRec), t.cycle = s.cycle →
      t.M.banks = (updateBank s.M b f).banks → t.M.lastWrite = s.M.lastWrite → (∀ r, (f r).status ≠ .writing) →
      (s.cycle < s.M.lastWrite.finish → (bankAt s.M b).status = .writing →
        (bankAt s.M b).endCycle ≠ s.M.lastWrite.finish) → lastWriteInv t := by
    intro t b f h1 h2 h3 h4 h5
    refine ⟨?_, ?_⟩
    · intro r hr hs
      rw [h2] at hr
      rcases mem_updateBank hr with ⟨_, rfl⟩ | hr
      · exact absurd hs (h4 _)
      · exact w1 r hr hs
    · rw [h1, h3]
      intro hc
      obtain ⟨r, hr, hs, he⟩ := w2 hc
      obtain ⟨i, hi, rfl⟩ := List.getElem_of_mem hr
      rw [show s.M.banks[i] = bankAt s.M i from (bankAt_of_lt hi).symm] at hs he
      have hne : ¬ (b = i ∧ b < s.M.banks.length) := by
        rintro ⟨rfl, _⟩
        exact h5 hc hs he
      refine ⟨bankAt (updateBank s.M b f) i, ?_, ?_, ?_⟩
      · rw [h2]
        exact bankAt_mem (by simpa using hi)
      · rw [bankAt_updateBank, if_neg hne]
        exact hs
      · rw [bankAt_updateBank, if_neg hne]
        exact he
  rcases accept_cases hf cmd with
    ⟨v, d, e, _⟩ | ⟨k, _, e⟩ |
      ⟨_, ho, hk, ⟨e, _⟩ | ⟨b, r, rfl, e⟩ | ⟨b, c, ap, row, rfl, _, e⟩ | ⟨b, c, u, ap, row, rfl, _, e⟩ |
        ⟨b, rfl, e⟩⟩ <;> rw [e] at hf' ⊢
  · simp [withFatal] at hf'
  · unfold acceptDummy
    split <;> exact ⟨hw, hq⟩
  · simp [withFatal] at hf'
  · have h1 : (bankAt s.M b.toNat).status = .idle := (constraintActive_none hk).1
    exact ⟨stay _ b.toNat _ rfl rfl rfl (by simp) (by simp [h1]), hq⟩
  · have hk := constraintRead_none hk
    refine ⟨stay _ b.toNat _ rfl rfl rfl (by simp) (fun hc => by have := hk.2.2.2.2; omega), ?_⟩
    refine ⟨?_, ?_, q3, ?_, ?_, q6, ?_⟩
    · rw [State.setPhys_phys, List.pairwise_append]
      refine ⟨q1, pinItems_sorted _ _ _, fun x hx y hy => ?_⟩
      have := q4 x hx
      have := mem_pinItems hy
      omega
    · rw [State.setPhys_phys, List.pairwise_append]
      refine ⟨q2, by simp, fun x hx y hy => ?_⟩
      simp only [List.mem_singleton] at hy
      subst hy
      have := q5 x hx
      simp only
      omega
    · intro x hx
      simp only [State.setPhys_phys, List.mem_append] at hx
      show s.cycle ≤ x.ts ∧ (x.ts < s.cycle + s.cfg.lat.CAS + btt s.cfg ∨ x.ts < s.M.lastWrite.finish)
      rcases hx with hx | hx
      · have := q4 x hx
        omega
      · have := mem_pinItems hx
        omega
    · intro x hx
      simp only [State.setPhys_phys, List.mem_append, List.mem_singleton] at hx
      show s.cycle ≤ x.ts ∧ x.ts ≤ s.cycle + s.cfg.lat.CAS + btt s.cfg
      rcases hx with hx | rfl
      · have := q5 x hx
        omega
      · simp only
        omega
    · intro x hx y hy
      simp only [State.setPhys_phys, List.mem_append, List.mem_singleton] at hx hy
      rcases hx with hx | rfl
      · exact q7 x hx y hy
      · have := q6 y hy
        simp only
        omega
  · have hk := constraintWrite_none hk
    have hl : b.toNat < s.M.banks.length := by
      refine bank_lt_of_status (T := s.M) ?_
      have h3 : (bankAt s.M b.toNat).status = .active ∨ (bankAt s.M b.toNat).status = .reading ∨
          (bankAt s.M b.toNat).status = .writing := hk.2.2.1
      rcases h3 with h | h | h <;> simp [h]
    refine ⟨⟨?_, fun _ => ?_⟩, ?_⟩
    · intro r hr hs
      rcases mem_updateBank hr with ⟨_, rfl⟩ | hr
      · rfl
      · exact w1 r hr hs
    · have hrec : bankAt (commitWrite s.cfg s.cycle b ap s.M) b.toNat = _ := bankAt_updateBank s.M b.toNat b.toNat _
      rw [if_pos ⟨rfl, hl⟩] at hrec
      refine ⟨_, bankAt_mem (T := commitWrite s.cfg s.cycle b ap s.M) (b := b.toNat) (by simpa [commitWrite] using hl),
        ?_, ?_⟩
      · rw [hrec]
      · rw [hrec]
        rfl
    · refine ⟨?_, q2, ?_, ?_, q5, ?_, ?_⟩
      · rw [State.setPhys_phys, List.pairwise_append]
        refine ⟨q1, pinItems_sorted _ _ _, fun x hx y hy => ?_⟩
        have := q4 x hx
        have := mem_pinItems hy
        omega
      · rw [State.setPhys_phys, List.pairwise_append]
        refine ⟨q3, by simp, fun x hx y hy => ?_⟩
        simp only [List.mem_singleton] at hy
        subst hy
        have := q6 x hx
        simp only
        omega
      · intro x hx
        simp only [State.setPhys_phys, List.mem_append] at hx
        show s.cycle ≤ x.ts ∧ (x.ts < s.M.lastRead.finish ∨ x.ts < s.cycle + s.cfg.lat.WL + btt s.cfg)
        rcases hx with hx | hx
        · have := q4 x hx
          omega
        · have := mem_pinItems hx
          omega
      · intro x hx
        simp only [State.setPhys_phys, List.mem_append, List.mem_singleton] at hx
        show s.cycle ≤ x.ts ∧ x.ts ≤ s.cycle + s.cfg.lat.WL + btt s.cfg
        rcases hx with hx | rfl
        · have := q6 x hx
          omega
        · simp only
          omega
      · intro x hx y hy
        simp only [State.setPhys_phys, List.mem_append, List.mem_singleton] at hx hy
        rcases hy with hy | rfl
        · exact q7 x hx y hy
        · have := q5 x hx
          simp only
          omega
  · have hk := constraintPrecharge_none hk
    simp only [commit, commitPrecharge]
    split
    · exact ⟨hw, hq⟩
    · refine ⟨stay _ b.toNat _ rfl rfl rfl (by simp) (fun hc hs he => ?_), hq⟩
      have hl : b.toNat < s.M.banks.length := bank_lt_of_status (by simp [hs])
      have h1 := w1 _ (bankAt_mem hl) hs
      have h2 : (bankAt s.M b.toNat).lastWriteEnd + s.cfg.lat.tWR ≤ s.cycle := hk.1
      omega

end Sys2Proof.Machine
end

