-- ==== Sys2Proof/Laws/PerInstr.lean ====
section
/-! SUPPORT. A statement about every operation as syntax: its encoding is a word of its own row of
spec/opcode_table.json. -/

namespace Sys2Proof.Laws.Selects

/-- A field whose value a row of the opcode table fixes. -/
structure FixedField where
  lo : Nat
  len : Nat
  value : Nat
deriving DecidableEq, Repr

/-- The width the opcode table gives the row of an operation, PUBLISH_STATE's for each element of its value. -/
def tableWidth (i : Instr) : Nat :=
  match i with
  | .active _ _ => 64
  | .read _ _ _ => 64
  | .write _ _ _ _ => 64
  | .precharge _ => 64
  | .prechargeAll => 64
  | .dummy _ => 64
  | .illegalKind5 => 64
  | .illegalKind6 => 64
  | .illegalKind7 => 64
  | .constraintFor _ _ => 32
  | .readRaw _ _ _ _ => 128
  | .writeRaw _ _ _ _ _ => 128
  | .preload _ _ _ _ _ => 128
  | .rawIllegalOp => 128
  | .txnRead _ => 160
  | .txnWrite _ _ _ _ => 160
  | .publishState state => 2 * state.length

/-- The fields the opcode table fixes in the row of an operation. -/
def tableFixed (i : Instr) : List FixedField :=
  match i with
  | .active _ _ => [⟨0, 3, 0⟩]
  | .read _ _ _ => [⟨0, 3, 1⟩]
  | .write _ _ _ _ => [⟨0, 3, 2⟩]
  | .precharge _ => [⟨0, 3, 3⟩, ⟨4, 1, 0⟩]
  | .prechargeAll => [⟨0, 3, 3⟩, ⟨4, 1, 1⟩]
  | .dummy _ => [⟨0, 3, 4⟩]
  | .illegalKind5 => [⟨0, 3, 5⟩]
  | .illegalKind6 => [⟨0, 3, 6⟩]
  | .illegalKind7 => [⟨0, 3, 7⟩]
  | .constraintFor _ _ => []
  | .readRaw _ _ _ _ => [⟨0, 2, 0⟩]
  | .writeRaw _ _ _ _ _ => [⟨0, 2, 1⟩]
  | .preload _ _ _ _ _ => [⟨0, 2, 2⟩]
  | .rawIllegalOp => [⟨0, 2, 3⟩]
  | .txnRead _ => [⟨0, 1, 0⟩]
  | .txnWrite _ _ _ _ => [⟨0, 1, 1⟩]
  | .publishState _ => []

/-- The width and the bits of the word on a port. -/
def portBits (p : PortWord) : Nat × Nat :=
  match p with
  | .cmd w _ => (64, w.toNat)
  | .qry w => (32, w.toNat)
  | .raw w _ => (128, w.toNat)
  | .txn w _ _ => (160, w.toNat)
  | .sst elems w => (2 * elems, w)

/-- The canonical encoding of the operation has the width of its row, and every field the row fixes at its value. -/
def Statement (i : Instr) : Prop :=
  (portBits (encode i)).1 = tableWidth i ∧
    ∀ f ∈ tableFixed i, (portBits (encode i)).2 >>> f.lo % 2 ^ f.len = f.value

/-- A field of a word as the bits of a number. -/
theorem field_eq {n : Nat} {w : BitVec n} {lo len v : Nat} {x : BitVec len} (h : w.extractLsb' lo len = x)
    (hv : x.toNat = v) : w.toNat >>> lo % 2 ^ len = v := by
  rw [← hv, ← h, BitVec.extractLsb'_toNat]

theorem active (bank : BitVec 16) (row : BitVec 32) : Statement (.active bank row) :=
  ⟨rfl, List.forall_mem_singleton.2 (field_eq (cmdWord_kind ..) rfl)⟩

theorem read (bank : BitVec 16) (col : BitVec 32) (ap : Bool) : Statement (.read bank col ap) :=
  ⟨rfl, List.forall_mem_singleton.2 (field_eq (cmdWord_kind ..) rfl)⟩

theorem write (bank : BitVec 16) (col : BitVec 32) (burst : Burst) (ap : Bool) :
    Statement (.write bank col burst ap) :=
  ⟨rfl, List.forall_mem_singleton.2 (field_eq (cmdWord_kind ..) rfl)⟩

theorem precharge (bank : BitVec 16) : Statement (.precharge bank) :=
  ⟨rfl, List.forall_mem_cons.2 ⟨field_eq (cmdWord_kind ..) rfl, List.forall_mem_singleton.2 (field_eq (cmdWord_all ..) rfl)⟩⟩

theorem prechargeAll : Statement .prechargeAll :=
  ⟨rfl, List.forall_mem_cons.2 ⟨field_eq (cmdWord_kind ..) rfl, List.forall_mem_singleton.2 (field_eq (cmdWord_all ..) rfl)⟩⟩

theorem dummy (cons : BitVec 5) : Statement (.dummy cons) :=
  ⟨rfl, List.forall_mem_singleton.2 (field_eq (cmdWord_kind ..) rfl)⟩

theorem illegalKind5 : Statement .illegalKind5 :=
  ⟨rfl, List.forall_mem_singleton.2 (field_eq (cmdWord_kind ..) rfl)⟩

theorem illegalKind6 : Statement .illegalKind6 :=
  ⟨rfl, List.forall_mem_singleton.2 (field_eq (cmdWord_kind ..) rfl)⟩

theorem illegalKind7 : Statement .illegalKind7 :=
  ⟨rfl, List.forall_mem_singleton.2 (field_eq (cmdWord_kind ..) rfl)⟩

theorem constraintFor (kind : BitVec 3) (bank : BitVec 16) : Statement (.constraintFor kind bank) :=
  ⟨rfl, by simp [tableFixed]⟩

theorem readRaw (bank : BitVec 16) (row col nbytes : BitVec 32) : Statement (.readRaw bank row col nbytes) :=
  ⟨rfl, List.forall_mem_singleton.2 (field_eq (rawWord_op ..) rfl)⟩

theorem writeRaw (bank : BitVec 16) (row col nbytes : BitVec 32) (data : List Byte) :
    Statement (.writeRaw bank row col nbytes data) :=
  ⟨rfl, List.forall_mem_singleton.2 (field_eq (rawWord_op ..) rfl)⟩

theorem preload (bank : BitVec 16) (row col nbytes : BitVec 32) (data : List Byte) :
    Statement (.preload bank row col nbytes data) :=
  ⟨rfl, List.forall_mem_singleton.2 (field_eq (rawWord_op ..) rfl)⟩

theorem rawIllegalOp : Statement .rawIllegalOp :=
  ⟨rfl, List.forall_mem_singleton.2 (field_eq (rawWord_op ..) rfl)⟩

theorem txnRead (header : TxnHeader) : Statement (.txnRead header) :=
  ⟨rfl, List.forall_mem_singleton.2 (field_eq (txnWord_isWrite ..) rfl)⟩

theorem txnWrite (header : TxnHeader) (hasMask : Bool) (data : List Byte) (bmask : List Bool) :
    Statement (.txnWrite header hasMask data bmask) :=
  ⟨rfl, List.forall_mem_singleton.2 (field_eq (txnWord_isWrite ..) rfl)⟩

theorem publishState (state : List Admit) : Statement (.publishState state) :=
  ⟨rfl, by simp [tableFixed]⟩

end Sys2Proof.Laws.Selects
end

