-- ==== Sys2Proof/Machine/Text.lean ====
section
/-! DEFINITION. The textual syntax of commands (30_encoding.md R91) and the program of a list of `@<cycle>: <command>`
lines as items of the port. Nothing of the machine reads it. -/

namespace Sys2Proof.Machine

/-! ### Writing -/

/-- The names of 30_encoding.md R77; a code past 16 has none and is written as its number. -/
def constraintNames : List String :=
  ["None", "ActToAct", "ActToRead", "ActToWrite", "ActToPre", "ReadToWrite", "ReadToPre", "WriteToRead", "WriteToPre",
    "PreToAct", "DataBusConflict", "NoActWithRead", "NoActWithWrite", "ActWithOpenRow", "AutoprechargeRead",
    "AutoprechargeWrite", "Unknown"]

/-- One slot, `w/m` (R91). -/
def slotText (s : Slot) : String :=
  "0x" ++ s.word.toHex ++ "/" ++ s.mask.toHex

/-- `[w0/m0, w1/m1, ...]` (R91). -/
def burstText (b : Burst) : String :=
  "[" ++ String.intercalate ", " (b.slots.map slotText) ++ "]"

/-- The autoprecharge operand; omitted, it is false (R91). -/
def apText (ap : Bool) : String :=
  if ap then ",autoprecharge=true" else ""

/-- The spelling of a command (R91); the reserved kinds have none there and are written as `Illegal(kind)` (R90). -/
def commandText (c : Command) : String :=
  match c with
  | .active bank row => "Active(bank=" ++ toString bank.toNat ++ ",row=" ++ toString row.toNat ++ ")"
  | .read bank col ap => "Read(bank=" ++ toString bank.toNat ++ ",col=" ++ toString col.toNat ++ apText ap ++ ")"
  | .write bank col burst ap =>
    "Write(bank=" ++ toString bank.toNat ++ ",col=" ++ toString col.toNat ++ ",burst=" ++ burstText burst ++ apText ap ++
      ")"
  | .precharge bank => "Precharge(bank=" ++ toString bank.toNat ++ ")"
  | .prechargeAll => "Precharge(ALL)"
  | .dummy cons => "Dummy(constraint=" ++ constraintNames.getD cons.toNat (toString cons.toNat) ++ ")"
  | .illegal kind => "Illegal(" ++ toString kind.toNat ++ ")"

/-- A program line (R91). -/
def lineText (cycle : Nat) (c : Command) : String :=
  "@" ++ toString cycle ++ ": " ++ commandText c

/-! ### Reading -/

/-- The rest of a text that begins with `lit`. -/
def stripText (lit cs : List Char) : Option (List Char) :=
  match lit with
  | [] => some cs
  | l :: lit =>
    match cs with
    | [] => none
    | c :: cs => if l = c then stripText lit cs else none

/-- The digits of R91's numbers in the order of their values: decimal numbers use the first ten. -/
def digitChars : List Char :=
  "0123456789ABCDEF".toList

/-- The value of a digit of a base, in either letter case; `none` for any other character. -/
def digitIn (base : Nat) (c : Char) : Option Nat :=
  (digitChars.take base).idxOf? c.toUpper

/-- The value of a run of digits, the first the most significant, and the text after it. -/
def readDigits (base : Nat) (cs : List Char) : Nat × List Char :=
  let digits := cs.takeWhile fun c => (digitIn base c).isSome
  ((digits.filterMap (digitIn base)).foldl (fun value d => base * value + d) 0, cs.drop digits.length)

/-- A number, decimal or hexadecimal with `0x`, of at least one digit (R91); past its field it is none. -/
def readNumber (limit : Nat) (cs : List Char) : Option (Nat × List Char) :=
  let (base, digits) :=
    match stripText ['0', 'x'] cs with
    | some rest => (16, rest)
    | none => (10, cs)
  let (value, rest) := readDigits base digits
  if rest.length < digits.length ∧ value < limit then some (value, rest) else none

/-- The mask nibble after a word; omitted, it is `F` (R91). -/
def readMask (cs : List Char) : Option (BitVec 4 × List Char) :=
  match stripText ['/'] cs with
  | none => some (0xF, cs)
  | some [] => none
  | some (c :: rest) => (digitIn 16 c).map fun m => (BitVec.ofNat 4 m, rest)

/-- The slots of a burst up to its closing bracket, at most `n` of them. -/
def readSlots (n : Nat) (cs : List Char) : Option (List Slot × List Char) :=
  match n with
  | 0 => none
  | n + 1 => do
    let (word, cs) ← readNumber (2 ^ 32) cs
    let (mask, cs) ← readMask cs
    let slot : Slot := { word := BitVec.ofNat 32 word, mask := mask }
    match stripText [','] cs with
    | some cs => do
      let (slots, cs) ← readSlots n cs
      some (slot :: slots, cs)
    | none => do
      let cs ← stripText [']'] cs
      some ([slot], cs)

/-- `[w0/m0, w1/m1, ...]`, of at most 32 words (R91, R78). -/
def readBurstText (cs : List Char) : Option (Burst × List Char) := do
  let cs ← stripText ['['] cs
  let (slots, cs) ← readSlots 32 cs
  some ({ len := BitVec.ofNat 6 slots.length, slots := slots }, cs)

/-- The autoprecharge operand and the closing bracket; omitted, it is false (R91). -/
def readApEnd (cs : List Char) : Option Bool :=
  if cs = [')'] ∨ cs = ",autoprecharge=false)".toList then some false
  else if cs = ",autoprecharge=true)".toList then some true
  else none

/-- What stands after `<kind>(bank=`, up to and with the number. -/
def readBank (kind : String) (cs : List Char) : Option (BitVec 16 × List Char) := do
  let cs ← stripText kind.toList cs
  let cs ← stripText "(bank=".toList cs
  let (bank, cs) ← readNumber (2 ^ 16) cs
  some (BitVec.ofNat 16 bank, cs)

/-- A 32-bit operand with its name. -/
def readOperand (name : String) (cs : List Char) : Option (BitVec 32 × List Char) := do
  let cs ← stripText name.toList cs
  let (value, cs) ← readNumber (2 ^ 32) cs
  some (BitVec.ofNat 32 value, cs)

/-- `Active(bank=<b>,row=<r>)` (R91). -/
def readActiveText (cs : List Char) : Option Command := do
  let (bank, cs) ← readBank "Active" cs
  let (row, cs) ← readOperand ",row=" cs
  if cs = [')'] then some (.active bank row) else none

/-- `Read(bank=<b>,col=<c>[,autoprecharge=true|false])` (R91). -/
def readReadText (cs : List Char) : Option Command := do
  let (bank, cs) ← readBank "Read" cs
  let (col, cs) ← readOperand ",col=" cs
  let ap ← readApEnd cs
  some (.read bank col ap)

/-- `Write(bank=<b>,col=<c>,burst=<burst>[,autoprecharge=true|false])` (R91). -/
def readWriteText (cs : List Char) : Option Command := do
  let (bank, cs) ← readBank "Write" cs
  let (col, cs) ← readOperand ",col=" cs
  let cs ← stripText ",burst=".toList cs
  let (burst, cs) ← readBurstText cs
  let ap ← readApEnd cs
  some (.write bank col burst ap)

/-- `Precharge(bank=<b>)` and `Precharge(ALL)` (R91). -/
def readPrechargeText (cs : List Char) : Option Command :=
  if cs = "Precharge(ALL)".toList then some .prechargeAll
  else do
    let (bank, cs) ← readBank "Precharge" cs
    if cs = [')'] then some (.precharge bank) else none

/-- `Dummy(constraint=<name of R77>)` (R91). -/
def readDummyText (cs : List Char) : Option Command := do
  let name ← stripText "Dummy(constraint=".toList cs
  let code ← constraintNames.findIdx? fun n => n.toList ++ [')'] = name
  some (.dummy (BitVec.ofNat 5 code))

/-- The command a text spells (R91); the reserved kinds have no spelling. Spaces and line breaks mean nothing. -/
def readCommand (text : List Char) : Option Command :=
  let cs := text.filter fun c => c ≠ ' ' ∧ c ≠ '\n'
  readActiveText cs <|> readReadText cs <|> readWriteText cs <|> readPrechargeText cs <|> readDummyText cs

/-- A program line, `@<cycle>: <command>` (R91). -/
def readLine (text : List Char) : Option (Nat × Command) := do
  let cs ← stripText ['@'] text
  let (cycle, cs) ← readNumber (2 ^ 64) cs
  let cs ← stripText [':'] cs
  let command ← readCommand cs
  some (cycle, command)

/-! ### Programs -/

/-- The port word of a command. -/
def commandWord (c : Command) : PortWord :=
  .cmd c.encode.1 c.encode.2

/-- The port items of the ticks 0 to `ticks - 1` of a program: in S3 of its tick the policy issues each command listed
there, and in every tick it publishes `state` (R91, 95_test_vectors.md section 10). -/
def programItems (state : List Admit) (ticks : Nat) (lines : List (Nat × Command)) : List PortItem :=
  (List.range ticks).flatMap fun c =>
    (lines.filter fun line => line.1 = c).map (fun line => .op (commandWord line.2)) ++
      [.op (encode (.publishState state)), .endTick]

end Sys2Proof.Machine
end

