-- ==== Sys2Proof/Tests/Slice0.lean ====
section
/-! SUPPORT. Tests: expected values are from the vectors of 95_test_vectors.md, named where they are used, or from a rule
by hand; and for every obligation with hypotheses a state and operands that meet them. -/

namespace Sys2Proof.Tests

open Sys2Proof.Machine

/-! ### Helpers -/

/-- The configuration `TC` with MEM_INIT zero. -/
def tc : Cfg := { Config.tc with memInit := .table [] }

/-- `TC` with `tRP = 5`: autoprecharge after a Read is overlapped. -/
def tc5 : Cfg := { tc with lat := { tc.lat with tRP := 5 } }

/-- A bank record. -/
def rec4 (x : BankStatus) (e w : Nat) (ap : Bool) : BankRec :=
  { status := x, endCycle := e, lastWriteEnd := w, autoprecharge := ap }

/-- A timing state of four banks whose bank 0 is given. -/
def one (r : BankRec) : Timing := { Timing.reset 4 with banks := [r, BankRec.reset, BankRec.reset, BankRec.reset] }

/-- A group of scalars of bank 0. -/
def stamp (a b : Nat) : Stamp := { bank := 0, start := a, finish := b }

/-- The engine in S3 of the tick `c`, with one timing state for both copies; a row is open in bank 0 unless it is idle. -/
def mid (c : Nat) (T : Timing) : State :=
  { State.boot tc with
    cycle := c, phase := .policyRunning, P := T, M := T
    phys :=
      { (State.boot tc).phys with
        openRow := [if (bankAt T 0).status = .idle then none else some 5, none, none, none] } }

/-- The engine before the tick `c`. -/
def between (c : Nat) (T : Timing) : State := { mid c T with phase := .betweenTicks }

/-- A state with a command on its way to the module. -/
def onBus (cmd : Command) (s : State) : State := withCommand cmd s

/-- A state that has published. -/
def published (s : State) : State :=
  { s with sched := { s.sched with published := true, pendingState := [.acceptBoth] } }

/-- A state with an item on the port. -/
def withItem (x : PortItem) (s : State) : State := { s with env := { s.env with port := [x] } }

/-- The next state, if there is one. -/
def after (o : Host.Outcome State Fault Refusal) : Option State :=
  match o with
  | .next t => some t
  | .fault _ => none
  | .refused _ => none

/-- The record of the fatal that an operation or a tick raised. -/
def fatalOf (s : State) : Nat × Nat × Nat × Nat × Nat := fatalCodes s.fatal

/-- Four words, all written. -/
def burst4 : Burst := { len := 4, slots := [⟨0x11111111, 0xF⟩, ⟨0x22222222, 0xF⟩, ⟨0x33333333, 5⟩, ⟨0x44444444, 0⟩] }

/-- A transaction header. -/
def hdr (bank : BitVec 16) (row col bytes : BitVec 32) : TxnHeader :=
  { bank := bank, row := row, col := col, bytes := bytes, requester := 0 }

/-! ### WellFormed: each check refuses an ill-formed term -/

theorem test_wf_burst : (Instr.write 0 0 { len := 3, slots := [⟨0, 0⟩] } false).wellFormed = false := by decide

theorem test_wf_write_raw : (Instr.writeRaw 0 0 0 4 [1, 2, 3]).wellFormed = false := by decide

theorem test_wf_preload : (Instr.preload 0 0 0 0 [1]).wellFormed = false := by decide

theorem test_wf_txn_data : (Instr.txnWrite (hdr 0 0 0 2) false [1] []).wellFormed = false := by decide

theorem test_wf_txn_mask : (Instr.txnWrite (hdr 0 0 0 2) true [1, 2] [true]).wellFormed = false := by decide

theorem test_wf_txn_no_mask : (Instr.txnWrite (hdr 0 0 0 2) false [1, 2] [true]).wellFormed = false := by decide

theorem test_wf_publish : (Instr.publishState []).wellFormed = false := by decide

/-! ### Decoding, from words written out from 30_encoding.md -/

/-- 95 section 3 and P1: kind 0, row in bits 63:32. -/
theorem test_decode_active : decode (.cmd 0x0000000500000000 0) = .ok (.active 0 5) := by decide

/-- 95 P2: kind 1, bank 1. -/
theorem test_decode_read : decode (.cmd 0x0000000000010001 0) = .ok (.read 1 0 false) := by decide

/-- 95 P2: kind 2 with autoprecharge; the BURST of one word 0xAAAAAAAA/F: len in bits 5:0, then word and mask (R78). -/
theorem test_decode_write :
    decode (.cmd 0x000000040001000A 0x3EAAAAAAA81) =
      .ok (.write 1 4 { len := 1, slots := [⟨0xAAAAAAAA, 0xF⟩] } true) := by decide +kernel

theorem test_decode_precharge : decode (.cmd 0x0000000000020003 0) = .ok (.precharge 2) := by decide

theorem test_decode_precharge_all : decode (.cmd 0x0000000000000013 0) = .ok .prechargeAll := by decide

/-- 95 P2: the name ActToRead is code 2, in bits 9:5. -/
theorem test_decode_dummy : decode (.cmd 0x0000000000000044 0) = .ok (.dummy 2) := by decide

theorem test_decode_illegal_5 : decode (.cmd 5 0) = .ok .illegalKind5 := by decide

theorem test_decode_illegal_6 : decode (.cmd 6 0) = .ok .illegalKind6 := by decide

theorem test_decode_illegal_7 : decode (.cmd 0xFFFFFFFFFFFFFFFF 0) = .ok .illegalKind7 := by decide

theorem test_decode_constraint_for : decode (.qry 0x00030002) = .ok (.constraintFor 2 3) := by decide

/-- R83: op in 1:0, bank from bit 16, row from 32, col from 64, nbytes from 96. -/
theorem test_decode_read_raw :
    decode (.raw 0x00000008000000080000000200010000 []) = .ok (.readRaw 1 2 8 8) := by decide

theorem test_decode_write_raw :
    decode (.raw 0x00000004000000080000000500000001 [1, 2, 3, 4]) = .ok (.writeRaw 0 5 8 4 [1, 2, 3, 4]) := by decide

theorem test_decode_preload : decode (.raw 0x00000000000000000000000F00020002 []) = .ok (.preload 2 15 0 0 []) := by
  decide

theorem test_decode_raw_illegal : decode (.raw 0xFFFFFFFF000000000000000000000003 []) = .ok .rawIllegalOp := by decide

/-- 95 Q1: R81, isWrite in bit 0, bytes from bit 96, requester from bit 128. -/
theorem test_decode_txn_read :
    decode (.txn 0x00000009000000280000000C0000000700020000 [] []) =
      .ok (.txnRead { bank := 2, row := 7, col := 12, bytes := 40, requester := 9 }) := by decide

theorem test_decode_txn_write :
    decode (.txn 0x0000000000000002000000080000000300010003 [0xA0, 0xA1] [true, false]) =
      .ok (.txnWrite (hdr 1 3 8 2) true [0xA0, 0xA1] [true, false]) := by decide

/-- R84: element 0 in bits 1:0. -/
theorem test_decode_publish : decode (.sst 2 0x6) = .ok (.publishState [.acceptWrite, .acceptRead]) := by decide

/-- R83: a data array of another length than `nbytes` is on no wire. -/
theorem test_decode_rejects : decode (.raw 0x00000004000000000000000000000001 [1]) = .error .dataLength := by decide

/-- The host's words: width 2 in whole bytes, and a 160-bit header. -/
theorem test_table_words :
    decodeTableWord 8 3 = some (.publishState [.acceptNone]) ∧ decodeTableWord 160 0 = some (.txnRead (hdr 0 0 0 0)) ∧
      decodeTableWord 64 0x13 = some .prechargeAll ∧ decodeTableWord 16 0 = none := by decide

/-- R91 and 95 P1. -/
theorem test_text :
    readLine "@22: Write(bank=0,col=8,burst=[0x11111111/F, 0x22222222, 0x33333333/5, 0x44444444/0])".toList =
        some (22, .write 0 8 burst4 false) ∧
      readCommand (commandText (.read 0 8 true)).toList = some (.read 0 8 true) ∧
      readCommand "Dummy(constraint=WriteToRead)".toList = some (.dummy 7) := by decide

/-! ### One step of each operation -/

/-- 95 S1 and scenario A. -/
theorem test_active :
    (after (exec (.active 0 5) (mid 10 (Timing.reset 4)))).map (fun t => (bankAt t.P 0, t.P.lastActive)) =
      some (rec4 .activating 23 0 false, stamp 10 23) := by decide

/-- 95 K2: a cycle early, PreToAct apart, the first test is the spacing. -/
theorem test_active_early :
    (after (exec (.active 0 5) (mid 8 (Timing.reset 4)))).map fatalOf = some (1, 0, 0, 1, 1) := by decide

/-- 95 S3: `endCycle` overwritten, the flag set. -/
theorem test_read :
    (after (exec (.read 0 4 true) (mid 25 { one (rec4 .reading 35 0 false) with lastRead := stamp 23 35 }))).map
        (fun t => (bankAt t.P 0, t.P.lastRead)) =
      some (rec4 .reading 37 0 true, stamp 25 37) := by decide

/-- 95 P3: the record of a Read in an Activating bank. -/
theorem test_read_violation :
    (after (exec (.read 0 0 false) (mid 20 (one (rec4 .activating 23 0 false))))).map fatalOf =
      some (1, 0, 1, 1, 2) := by decide

/-- 95 S4, and 44 R197: after an Active a miss. -/
theorem test_write :
    (after (exec (.write 0 8 burst4 false) (mid 22 (one (rec4 .active 22 0 false))))).map
        (fun t => (bankAt t.P 0, t.P.lastWrite, t.sched.rowHits, t.sched.rowMisses)) =
      some (rec4 .writing 29 29 false, stamp 22 29, 0, 1) := by decide

/-- 95 X8. -/
theorem test_write_burst_length :
    (after (exec (.write 0 8 { len := 3, slots := [⟨0, 0⟩, ⟨0, 0⟩, ⟨0, 0⟩] } false)
      (mid 22 (one (rec4 .active 22 0 false))))).map fatalOf = some (1, 2, 7, 8, 3) := by decide

/-- 95 S8: a Precharge of a Reading bank. -/
theorem test_precharge :
    (after (exec (.precharge 0) (mid 39 (one (rec4 .reading 46 29 false))))).map (fun t => bankAt t.P 0) =
      some (rec4 .precharging 53 29 false) := by decide

/-- 95 S7: a no-op on a Precharging bank. -/
theorem test_precharge_no_op :
    (after (exec (.precharge 0) (mid 50 (one (rec4 .precharging 60 29 false))))).map (fun t => (t.P, t.sched.issued)) =
      some (one (rec4 .precharging 60 29 false), true) := by decide

/-- 95 X6. -/
theorem test_precharge_all :
    (after (exec .prechargeAll (mid 0 (Timing.reset 4)))).map (fun t => fatalOf (closeTick t)) =
      some (1, 1, 5, 7, 0) := by decide

/-- 44 R198: legal in any state, no bookkeeping. -/
theorem test_dummy :
    (after (exec (.dummy 7) (mid 33 (one (rec4 .reading 35 0 false))))).map
        (fun t => (t.P, t.sched.lastCmdKind, t.sched.cmdBus)) =
      some (one (rec4 .reading 35 0 false), [.noCmd, .noCmd, .noCmd, .noCmd], some (.dummy 7)) := by decide

theorem test_illegal_5 :
    (after (exec .illegalKind5 (mid 0 (Timing.reset 4)))).map (fun t => fatalOf (closeTick t)) =
      some (1, 1, 5, 9, 5) := by decide

/-- 95 X7. -/
theorem test_illegal_6 :
    (after (exec .illegalKind6 (mid 0 (Timing.reset 4)))).map (fun t => fatalOf (closeTick t)) =
      some (1, 1, 5, 9, 6) := by decide

theorem test_illegal_7 :
    (after (exec .illegalKind7 (mid 0 (Timing.reset 4)))).map (fun t => fatalOf (closeTick t)) =
      some (1, 1, 5, 9, 7) := by decide

/-- 95 K1. -/
theorem test_query :
    (after (exec (.constraintFor 0 0) (mid 0 (Timing.reset 4)))).map (fun t => t.env.qryOut) = some (some 1) := by decide

/-- 95 K40: the bank is checked. -/
theorem test_query_range :
    (after (exec (.constraintFor 1 4) (mid 0 (Timing.reset 4)))).map fatalOf = some (1, 0, 4, 6, 4) := by decide

/-- 95 M7. -/
theorem test_write_raw :
    (after (exec (.writeRaw 0 5 8 4 [1, 2, 3, 4]) (between 0 (Timing.reset 4)))).map (fun t => t.wordAt 0 5 8) =
      some 0x04030201 := by decide

/-- 95 M10. -/
theorem test_write_raw_range :
    (after (exec (.writeRaw 0 0 62 12 (List.replicate 12 0)) (between 0 (Timing.reset 4)))).map fatalOf =
      some (1, 3, 11, 6, 62) := by decide

/-- 95 M8. -/
theorem test_read_raw :
    (after (exec (.readRaw 1 2 8 8)
      ((between 0 (Timing.reset 4)).setMem (memStore tc.memInit [] 1 2 8 [0xAABBCCDD, 1])))).map
        (fun t => t.env.rawOut) = some (some [0xDD, 0xCC, 0xBB, 0xAA, 1, 0, 0, 0]) := by decide

/-- 95 M11. -/
theorem test_read_raw_length :
    (after (exec (.readRaw 0 0 0 6) (between 0 (Timing.reset 4)))).map fatalOf = some (1, 3, 11, 10, 6) := by decide

/-- 95 M14, its last column. -/
theorem test_preload :
    (after (exec (.preload 2 15 62 8 [1, 2, 3, 4, 5, 6, 7, 8]) (between 0 (Timing.reset 4)))).map
        (fun t => t.wordAt 2 15 63) = some 0x08070605 := by decide

/-- 60 R231. -/
theorem test_raw_illegal :
    (after (exec .rawIllegalOp (between 0 (Timing.reset 4)))).map fatalOf = some (1, 3, 11, 11, 3) := by decide

/-- 95 Q1. -/
theorem test_txn_read :
    (after (exec (.txnRead (hdr 2 7 12 40)) (mid 0 (Timing.reset 4)))).map (fun t => t.env.splitOut) =
      some (some [.read 2 12 false, .read 2 16 false, .read 2 20 false]) := by decide

/-- 95 Q7. -/
theorem test_txn_read_range :
    (after (exec (.txnRead (hdr 0 0 56 40)) (mid 0 (Timing.reset 4)))).map fatalOf = some (1, 2, 8, 6, 56) := by decide

/-- 95 Q5. -/
theorem test_txn_write_mask :
    (after (exec
      (.txnWrite (hdr 1 3 8 8) true [0xA0, 0xA1, 0xA2, 0xA3, 0xA4, 0xA5, 0xA6, 0xA7]
        [true, false, true, true, false, false, false, true]) (mid 0 (Timing.reset 4)))).map
        (fun t => t.env.splitOut) =
      some (some
        [.write 1 8 { len := 4, slots := [⟨0xA3A2A1A0, 0xD⟩, ⟨0xA7A6A5A4, 8⟩, ⟨0, 0⟩, ⟨0, 0⟩] } false]) := by decide

/-- 95 Q4: five bytes. -/
theorem test_txn_write_tail :
    (after (exec (.txnWrite (hdr 0 0 0 5) false [0, 1, 2, 3, 4] []) (mid 0 (Timing.reset 4)))).map
        (fun t => t.env.splitOut) =
      some (some [.write 0 0 { len := 4, slots := [⟨0x03020100, 0xF⟩, ⟨4, 1⟩, ⟨0, 0⟩, ⟨0, 0⟩] } false]) := by decide

/-- 44 R205: the value is on the output at the end of the tick. -/
theorem test_publish :
    (after (exec (.publishState [.acceptRead]) (mid 0 (Timing.reset 4)))).map (fun t => (closeTick t).sched.schedStateOut) =
      some [.acceptRead] := by decide

/-- 95 section 7, contract vectors: a second call. -/
theorem test_publish_twice :
    (after (exec (.publishState [.acceptRead]) (published (mid 0 (Timing.reset 4))))).map fatalOf =
      some (1, 2, 9, 4, 0) := by decide

/-! ### The tick and the module -/

/-- 95 contract vectors: no publishState, and one that is there. -/
theorem test_end_of_tick :
    fatalOf (closeTick (mid 0 (Timing.reset 4))) = (1, 2, 10, 3, 0) ∧
      (closeTick (published (mid 0 (Timing.reset 4)))).cycle = 1 := by decide

/-- 95 contract vectors: two commands in one tick. -/
theorem test_second_command :
    (after (exec (.precharge 0) (onBus (.active 0 5) (mid 10 (Timing.reset 4))))).map fatalOf = some (1, 2, 7, 5, 0) := by
  decide

/-- 95 X2 and P1: the pins and the hand-back of a Write, and the merge of its third word. -/
theorem test_accept_write :
    let t := acceptBus (onBus (.write 0 8 burst4 false) (mid 22 (one (rec4 .active 22 0 false))))
    t.phys.dataPins.map (fun e => (e.ts, e.dpi.tag)) = [(27, .write), (28, .write)] ∧
      t.phys.readin.map (fun e => e.ts) = [29] ∧ t.wordAt 0 5 10 = 0x00330033 := by decide

/-- 95 X1. -/
theorem test_accept_read :
    let t := acceptBus (onBus (.read 0 0 false) (mid 23 (one (rec4 .active 23 0 false))))
    t.phys.dataPins.map (fun e => (e.ts, e.dpi.tag)) = [(33, .read), (34, .read)] ∧
      t.phys.readout.map (fun e => (e.ts, e.burst.slots.length)) = [(35, 4)] := by decide

/-- The pins of 95 X1 as they stand in the tick `c`. -/
def pinsAt (c : Nat) : State :=
  let s := published (mid c { one (rec4 .reading 35 0 false) with lastRead := stamp 23 35 })
  { s with phys := { s.phys with dataPins := [⟨33, ⟨.read, 0⟩⟩, ⟨34, ⟨.read, 0⟩⟩] } }

/-- 95 X4 and X5. -/
theorem test_dummy_annotates :
    (closeTick (onBus (.dummy 7) (pinsAt 33))).out.annotOut = some ⟨.protocolConstraint, 7⟩ ∧
      (closeTick (onBus (.dummy 7) (pinsAt 33))).out.pinsOut = some ⟨.read, 0⟩ ∧
      (closeTick (onBus (.dummy 7) (pinsAt 32))).out.annotOut = none := by decide

/-- 95 S9 in the module's place: it re-validates. -/
theorem test_module_refuses :
    fatalOf (acceptBus (onBus (.read 0 0 false) (mid 20 (one (rec4 .activating 23 0 false))))) = (1, 1, 5, 1, 2) := by
  decide

/-- 95 T3, T4 and T9: the three ends of an autoprecharged access. -/
theorem test_passive :
    passiveBank tc 34 (rec4 .reading 34 0 true) = rec4 .precharging 37 0 false ∧
      passiveBank tc5 34 (rec4 .reading 34 0 true) = rec4 .idle 34 0 false ∧
      passiveBank { tc with lat := perfectLatencies } 3 (rec4 .writing 3 3 true) = rec4 .idle 3 3 false := by decide

/-- 95 M3, M4 and M5. -/
theorem test_merge :
    merge 0x11223344 0xAABBCCDD 5 = 0x11BB33DD ∧ merge 0x11223344 0xAABBCCDD 8 = 0xAA223344 ∧
      merge 0x00001305 0xBBBBBBBB 3 = 0x0000BBBB := by decide

/-- 20 R53, 43 R171: writing what an unlisted byte reads as lists nothing. -/
theorem test_memory_canonical :
    writeByte (.table []) [(7, 1)] 7 0 = [] ∧ writeByte (.table []) [(7, 1)] 3 2 = [(3, 2), (7, 1)] ∧
      readByte (.table [(9, 4)]) [] 9 = 4 := by decide

/-- 60 R232: the last cycle number. -/
theorem test_cycle_overflow : fatalOf (closeTick (published (mid (2 ^ 64 - 2 ^ 34) (Timing.reset 4)))) = (1, 4, 10, 12, 0) := by
  decide

/-- A program's first operation after reset is the one withFetchWord places; 95 K1. -/
theorem test_fetch :
    (after (step (State.reset.withFetchWord 32 0))).map (fun t => (t.env.qryOut, t.phase)) =
      some (some 1, .policyRunning) := by decide

/-! ### Witnesses: every obligation's hypotheses are met -/

theorem witness_DecodeOfEncode :
    (Instr.write 3 8 burst4 true).wellFormed = true ∧
      (Instr.txnWrite (hdr 1 3 8 2) true [0xA0, 0xA1] [true, false]).wellFormed = true ∧
      (Instr.publishState [.acceptNone]).wellFormed = true := by decide

theorem witness_DecodedIsWellFormed : decode (.raw 0x00000002000000000000000000000001 [7, 8]) =
    .ok (.writeRaw 0 0 0 2 [7, 8]) := by decide

/-- Words that differ in every field their kind lacks: kinds 0, 3 with `all`, 4 and 7. -/
theorem witness_FieldsAKindLacksAreIgnored :
    (decode (.cmd 0x0000000500030000 0) = decode (.cmd 0x000000050003FFF8 0)) ∧
      decode (.cmd 0x0000000000000013 0) = decode (.cmd 0xFFFFFFFFFFFFFFFB 0) ∧
      decode (.cmd 0x00000000000000E4 0) = decode (.cmd 0xFFFFFFFFFFFFFCFC 0) ∧
      decode (.cmd 7 0) = decode (.cmd 0xFFFFFFFFFFFFFFFF 0) := by decide

/-- A policy's operation between ticks, a raw one inside a tick, and a word that is none of its port. -/
theorem witness_StepRunsDecoded :
    (withItem (.op (.qry 0)) (between 0 (Timing.reset 4))).env.port = [.op (.qry 0)] ∧
      decode (.qry 0) = .ok (.constraintFor 0 0) ∧ isRaw (.constraintFor 0 0) = false ∧
      running (between 0 (Timing.reset 4)) = true ∧ (between 0 (Timing.reset 4)).phase = .betweenTicks ∧
      decode (.raw 3 []) = .ok .rawIllegalOp ∧ isRaw .rawIllegalOp = true ∧
      running (mid 0 (Timing.reset 4)) = true ∧ (mid 0 (Timing.reset 4)).phase = .policyRunning ∧
      decode (.sst 0 0) = .error .emptyState := by decide

theorem witness_StepAtTickBoundary :
    (withItem .endTick (mid 0 (Timing.reset 4))).env.port = [.endTick] ∧ (mid 0 (Timing.reset 4)).env.port = [] := by
  decide

/-- 95 K6, K4, K7 and K5: the four answers, the cycle at the edge of tRRD. -/
theorem witness_ConstraintTables_active :
    (let T := { one (rec4 .precharging 120 0 false) with lastActive := stamp 100 113 };
      (bankAt T 0).status = .precharging ∧ constraint tc T 101 0 .active = .preToAct) ∧
    (let T := { one (rec4 .active 22 0 false) with lastActive := stamp 9 22 };
      17 < T.lastActive.start + tc.lat.tRRD ∧ (bankAt T 1).status ≠ .precharging ∧
        constraint tc T 17 1 .active = .actToAct ∧ ¬ 18 < T.lastActive.start + tc.lat.tRRD ∧
        (bankAt T 0).status ≠ .idle ∧ constraint tc T 18 0 .active = .actWithOpenRow ∧
        (bankAt T 1).status = .idle ∧ constraint tc T 18 1 .active = .none) := by decide

/-- 95 K13, K15, K12, K9, K18, K16 and K17. -/
theorem witness_ConstraintTables_read :
    (let T := { one (rec4 .reading 35 0 false) with lastRead := stamp 23 35 };
      24 + tc.lat.CAS < T.lastRead.finish ∧ constraint tc T 24 0 .read = .dataBusConflict) ∧
    (let T := one (rec4 .writing 29 29 false);
      (bankAt T 0).status = .writing ∧ constraint tc T 23 1 .read = .dataBusConflict) ∧
    constraint tc (one (rec4 .activating 23 0 false)) 20 0 .read = .actToRead ∧
    constraint tc (Timing.reset 4) 0 0 .read = .noActWithRead ∧
    constraint tc { one (rec4 .reading 34 0 true) with lastRead := stamp 22 34 } 30 0 .read = .autoprechargeRead ∧
    (let T := { one (rec4 .active 29 29 false) with lastWrite := stamp 22 29 };
      33 < T.lastWrite.finish + tc.lat.tWTR ∧ constraint tc T 33 0 .read = .writeToRead ∧
        T.lastWrite.finish + tc.lat.tWTR ≤ 34 ∧ constraint tc T 34 0 .read = .none) := by decide

/-- 95 K25, K21 to K24, K20, K27 and K28. -/
theorem witness_ConstraintTables_write :
    (let T := { one (rec4 .writing 29 29 false) with lastWrite := stamp 22 29 };
      23 + tc.lat.WL < T.lastWrite.finish ∧ constraint tc T 23 0 .write = .dataBusConflict) ∧
    (let T := { one (rec4 .active 46 29 false) with lastRead := stamp 34 46, lastWrite := stamp 22 29 };
      40 + tc.lat.WL < T.lastRead.finish ∧ constraint tc T 40 0 .write = .dataBusConflict ∧
        41 + tc.lat.WL < T.lastRead.finish + tc.lat.tRTW ∧ constraint tc T 41 0 .write = .readToWrite ∧
        constraint tc T 42 0 .write = .readToWrite ∧ constraint tc T 43 0 .write = .none) ∧
    constraint tc (one (rec4 .activating 22 0 false)) 21 0 .write = .actToWrite ∧
    constraint tc (Timing.reset 4) 50 0 .write = .noActWithWrite ∧
    constraint tc { one (rec4 .writing 7 7 true) with lastWrite := stamp 0 7 } 6 0 .write = .autoprechargeWrite := by
  decide

/-- 95 K32, K31, K34, K35 and K37. -/
theorem witness_ConstraintTables_precharge :
    constraint tc (one (rec4 .reading 46 29 false)) 38 0 .precharge = .writeToPre ∧
      constraint tc (one (rec4 .activating 23 0 false)) 15 0 .precharge = .actToPre ∧
      constraint tc (one (rec4 .reading 46 0 false)) 31 0 .precharge = .readToPre ∧
      constraint tc (one (rec4 .reading 46 0 false)) 32 0 .precharge = .none ∧
      constraint tc (one (rec4 .active 29 29 false)) 39 0 .precharge = .none := by decide

/-- 95 K39: the first reserved kind answers Unknown, the kind below it does not. -/
theorem witness_OtherKindsAndCanIssue :
    CmdKind.ofCode 5 = .reserved ∧ CmdKind.ofCode 4 = .dummy ∧
      canIssue tc (Timing.reset 4) 9 0 .active = true ∧ canIssue tc (Timing.reset 4) 8 0 .active = false := by decide

theorem witness_QueryCompletes :
    running (mid 0 (Timing.reset 4)) = true ∧ (3#16).toNat < (mid 0 (Timing.reset 4)).cfg.NB := by decide

/-- One cycle early, and the four ends, overlap at equality among them. -/
theorem witness_PassiveFromReading :
    bankAt (between 33 (one (rec4 .reading 34 0 true))).M 0 = rec4 .reading 34 0 true ∧ 33 < 34 ∧
      bankAt (between 34 (one (rec4 .reading 34 0 false))).M 0 = rec4 .reading 34 0 false ∧ tc.lat.tRP = 14 ∧
      tc.lat.CAS + btt tc < tc.lat.tRP + 1 ∧
      (let c := { tc with lat := { tc.lat with tRP := 11 } };
        c.lat.tRP + 1 ≤ c.lat.CAS + btt c ∧ ¬ c.lat.CAS + btt c < c.lat.tRP + 1) := by decide;

/-- 95 T6, and both sides of `tWR + tRP = 0`. -/
theorem witness_PassiveFromWriting :
    bankAt (between 46 (one (rec4 .writing 47 47 true))).M 0 = rec4 .writing 47 47 true ∧ 46 < 47 ∧
      bankAt (between 47 (one (rec4 .writing 47 47 false))).M 0 = rec4 .writing 47 47 false ∧
      0 < tc.lat.tWR + tc.lat.tRP ∧ perfectLatencies.tWR + perfectLatencies.tRP = 0 := by decide

/-- 95 T1 and T7: the last tick in the state and the first after it. -/
theorem witness_PassiveFromOtherStates :
    bankAt (between 21 (one (rec4 .activating 22 0 false))).M 0 = rec4 .activating 22 0 false ∧
      bankAt (between 22 (one (rec4 .activating 22 0 false))).M 0 = rec4 .activating 22 0 false ∧
      bankAt (between 60 (one (rec4 .precharging 60 29 false))).M 0 = rec4 .precharging 60 29 false ∧
      bankAt (between 60 (one (rec4 .precharging 60 29 false))).M 1 = rec4 .idle 0 0 false ∧
      bankAt (between 22 (one (rec4 .active 22 0 false))).M 0 = rec4 .active 22 0 false := by decide

theorem witness_BanksFollowTheDiagram :
    resetNext (between 22 (one (rec4 .activating 22 0 false))) = false ∧
      ∃ t, step (between 22 (one (rec4 .activating 22 0 false))) = .next t ∧ (bankAt t.M 0).status = .active :=
  ⟨by decide, _, rfl, by decide⟩

/-- 95 K3: the first legal tick. -/
theorem witness_ActiveIssues :
    let s := mid 9 (Timing.reset 4)
    shapeInv s ∧ running s = true ∧ s.sched.issued = false ∧ (3#16).toNat < s.cfg.NB ∧ (15#32).toNat < s.cfg.NR ∧
      (bankAt s.P 3).status = .idle ∧ s.P.lastActive.start + s.cfg.lat.tRRD ≤ s.cycle := by
  unfold shapeInv
  decide

/-- 95 K14: the first legal tick, the last legal column. -/
theorem witness_ReadIssues :
    let s := mid 25 { one (rec4 .reading 35 0 false) with lastRead := stamp 23 35 }
    shapeInv s ∧ running s = true ∧ s.sched.issued = false ∧ (0#16).toNat < s.cfg.NB ∧
      (60#32).toNat + s.cfg.BL ≤ s.cfg.NC ∧ (bankAt s.P 0).status = .reading ∧ (bankAt s.P 0).autoprecharge = false ∧
      (∀ b < s.cfg.NB, (bankAt s.P b).status ≠ .writing) ∧ s.P.lastRead.finish ≤ s.cycle + s.cfg.lat.CAS ∧
      s.P.lastWrite.finish + s.cfg.lat.tWTR ≤ s.cycle := by
  unfold shapeInv
  decide

/-- 95 K26 and K24: the first legal ticks after a Write and after a Read. -/
theorem witness_WriteIssues :
    (let s := mid 24 { one (rec4 .writing 29 29 false) with lastWrite := stamp 22 29 };
      shapeInv s ∧ running s = true ∧ s.sched.issued = false ∧ (0#16).toNat < s.cfg.NB ∧
        (60#32).toNat + s.cfg.BL ≤ s.cfg.NC ∧ burst4.len.toNat = s.cfg.BL ∧ (bankAt s.P 0).status = .writing ∧
        (bankAt s.P 0).autoprecharge = false ∧ s.P.lastWrite.finish ≤ s.cycle + s.cfg.lat.WL ∧
        s.P.lastRead.finish + s.cfg.lat.tRTW ≤ s.cycle + s.cfg.lat.WL) ∧
    (let s := mid 43 { one (rec4 .active 46 29 false) with lastRead := stamp 34 46, lastWrite := stamp 22 29 };
      s.P.lastRead.finish + s.cfg.lat.tRTW = s.cycle + s.cfg.lat.WL ∧
        s.P.lastWrite.finish ≤ s.cycle + s.cfg.lat.WL) := by
  unfold shapeInv
  decide

/-- 95 K33 and K35: the first legal ticks after a Write and in a Reading bank; and the no-op. -/
theorem witness_PrechargeIssues :
    (let s := mid 39 (one (rec4 .reading 46 29 false));
      shapeInv s ∧ running s = true ∧ s.sched.issued = false ∧ (0#16).toNat < s.cfg.NB ∧
        (bankAt s.P 0).lastWriteEnd + s.cfg.lat.tWR ≤ s.cycle ∧ (bankAt s.P 0).status ≠ .activating ∧
        (bankAt s.P 0).endCycle ≤ s.cycle + s.cfg.lat.tRP ∧ (bankAt s.P 0).status = .reading) ∧
    (let s := mid 32 (one (rec4 .reading 46 0 false));
      (bankAt s.P 0).endCycle = s.cycle + s.cfg.lat.tRP ∧ (bankAt s.P 0).lastWriteEnd + s.cfg.lat.tWR ≤ s.cycle) ∧
    (let s := mid 10 (Timing.reset 4);
      (bankAt s.P 0).lastWriteEnd + s.cfg.lat.tWR ≤ s.cycle ∧ (bankAt s.P 0).status = .idle) := by
  unfold shapeInv
  decide

/-- For DummyIssues, PrechargeAllIsFatal, ReservedKindsAreFatal and OperandOutOfRangeIsFatal. -/
theorem witness_DummyIssues_PrechargeAllIsFatal_ReservedKindsAreFatal :
    let s := mid 0 (Timing.reset 4)
    running s = true ∧ s.sched.issued = false ∧ s.phase = .policyRunning := by decide

theorem witness_SecondCommandIsFatal :
    let s := onBus (.active 0 5) (mid 10 (Timing.reset 4))
    running s = true ∧ s.sched.issued = true := by decide

/-- Each clause at the first value past the range. -/
theorem witness_OperandOutOfRangeIsFatal :
    let s := mid 9 (Timing.reset 4)
    running s = true ∧ s.sched.issued = false ∧ s.cfg.NB ≤ (4#16).toNat ∧ (3#16).toNat < s.cfg.NB ∧
      s.cfg.NR ≤ (16#32).toNat ∧ s.cfg.NC < (61#32).toNat + s.cfg.BL ∧ (60#32).toNat + s.cfg.BL ≤ s.cfg.NC ∧
      (3#6).toNat ≠ s.cfg.BL ∧ (5#6).toNat ≠ s.cfg.BL := by decide

/-- Right after reset all four constraints hold (95 section 9). -/
theorem witness_ViolatedConstraintIsFatal :
    let s := mid 0 (Timing.reset 4)
    running s = true ∧ s.sched.issued = false ∧ (0#16).toNat < s.cfg.NB ∧ (15#32).toNat < s.cfg.NR ∧
      (60#32).toNat + s.cfg.BL ≤ s.cfg.NC ∧ burst4.len.toNat = s.cfg.BL ∧
      constraint s.cfg s.P s.cycle 0 .active = .actToAct ∧ constraint s.cfg s.P s.cycle 0 .read = .noActWithRead ∧
      constraint s.cfg s.P s.cycle 0 .write = .noActWithWrite ∧
      constraint s.cfg s.P s.cycle 0 .precharge = .writeToPre := by decide

theorem witness_ModuleAcceptsActive :
    let s := onBus (.active 3 15) (mid 9 (Timing.reset 4))
    shapeInv s ∧ s.sched.cmdBus = some (.active 3 15) ∧ (3#16).toNat < s.cfg.NB ∧ (15#32).toNat < s.cfg.NR ∧
      constraint s.cfg s.M s.cycle 3 .active = .none := by
  unfold shapeInv
  decide

theorem witness_ModuleAcceptsRead :
    let s := onBus (.read 0 60 true) (mid 23 (one (rec4 .active 23 0 false)))
    shapeInv s ∧ s.sched.cmdBus = some (.read 0 60 true) ∧ (0#16).toNat < s.cfg.NB ∧
      (60#32).toNat + s.cfg.BL ≤ s.cfg.NC ∧ constraint s.cfg s.M s.cycle 0 .read = .none ∧
      openRowAt s 0 = some 5 := by
  unfold shapeInv
  decide

/-- The third and fourth slots have mask bits that are 0. -/
theorem witness_ModuleAcceptsWrite :
    let s := onBus (.write 0 60 burst4 true) (mid 22 (one (rec4 .active 22 0 false)))
    shapeInv s ∧ memoryInv s ∧ s.sched.cmdBus = some (.write 0 60 burst4 true) ∧ (0#16).toNat < s.cfg.NB ∧
      (60#32).toNat + s.cfg.BL ≤ s.cfg.NC ∧ burst4.wellFormed = true ∧ burst4.len.toNat = s.cfg.BL ∧
      constraint s.cfg s.M s.cycle 0 .write = .none ∧ openRowAt s 0 = some 5 ∧
      burst4.slots[3]? = some ⟨0x44444444, 0⟩ := by
  unfold shapeInv memoryInv
  decide

theorem witness_ModuleAcceptsPrecharge :
    (let s := onBus (.precharge 0) (mid 39 (one (rec4 .active 29 29 false)));
      shapeInv s ∧ s.sched.cmdBus = some (.precharge 0) ∧ (0#16).toNat < s.cfg.NB ∧
        constraint s.cfg s.M s.cycle 0 .precharge = .none ∧ (bankAt s.M 0).status = .active) ∧
    (let s := onBus (.precharge 0) (mid 50 (one (rec4 .precharging 60 29 false)));
      constraint s.cfg s.M s.cycle 0 .precharge = .none ∧ (bankAt s.M 0).status = .precharging) := by
  unfold shapeInv
  decide

/-- Both sides: a beat on the pins in this tick, and none. -/
theorem witness_DummyAnnotatesABusyBus :
    (let s := onBus (.dummy 7) (pinsAt 33);
      tickReady s ∧ s.phys.annot = none ∧ s.sched.cmdBus = some (.dummy 7) ∧
        s.phys.dataPins = [⟨33, ⟨.read, 0⟩⟩, ⟨34, ⟨.read, 0⟩⟩]) ∧
    (let s := onBus (.dummy 7) (pinsAt 32);
      tickReady s ∧ s.phys.annot = none ∧ s.sched.cmdBus = some (.dummy 7) ∧
        s.phys.dataPins = [⟨33, ⟨.read, 0⟩⟩, ⟨34, ⟨.read, 0⟩⟩]) := by
  unfold tickReady
  decide

/-- 42 R141 steps 5 to 7, each at the first value past the range, and R233: the row of bank 1 is closed. -/
theorem witness_ModuleRefusesAViolation_operands :
    (let s := onBus (.active 4 0) (mid 9 (Timing.reset 4));
      s.fatal.flag = false ∧ s.sched.cmdBus = some (.active 4 0) ∧ s.cfg.NB ≤ (4#16).toNat) ∧
    (let s := onBus (.active 3 16) (mid 9 (Timing.reset 4));
      s.sched.cmdBus = some (.active 3 16) ∧ (3#16).toNat < s.cfg.NB ∧ s.cfg.NR ≤ (16#32).toNat) ∧
    (let s := onBus (.read 3 61 false) (mid 9 (Timing.reset 4));
      s.sched.cmdBus = some (.read 3 61 false) ∧ s.cfg.NC < (61#32).toNat + s.cfg.BL) ∧
    (let s := onBus (.write 3 60 { burst4 with len := 5 } false) (mid 9 (Timing.reset 4));
      s.sched.cmdBus = some (.write 3 60 { burst4 with len := 5 } false) ∧ (60#32).toNat + s.cfg.BL ≤ s.cfg.NC ∧
        (5#6).toNat ≠ s.cfg.BL) ∧
    (let T := { Timing.reset 4 with banks := [BankRec.reset, rec4 .active 22 0 false, BankRec.reset, BankRec.reset] }
      let s := onBus (.read 1 60 false) (mid 23 T)
      let w := onBus (.write 1 60 burst4 false) (mid 23 T);
      s.sched.cmdBus = some (.read 1 60 false) ∧ constraint s.cfg s.M s.cycle 1 .read = .none ∧
        openRowAt s 1 = none ∧ w.sched.cmdBus = some (.write 1 60 burst4 false) ∧ burst4.len.toNat = w.cfg.BL ∧
        constraint w.cfg w.M w.cycle 1 .write = .none ∧ openRowAt w 1 = none) := by decide

theorem witness_ModuleRefusesAViolation :
    let s := onBus (.read 0 0 false) (mid 20 (one (rec4 .activating 23 0 false)))
    s.fatal.flag = false ∧ s.sched.cmdBus = some (.read 0 0 false) ∧ hasCommit (.read 0 0 false) = true ∧
      operandFault s.cfg (.read 0 0 false) = none ∧ constraint s.cfg s.M s.cycle 0 .read = .actToRead := by decide

/-- With nothing on the transaction port and no reply, and with both. -/
theorem witness_TickOpens :
    (let s := between 0 (Timing.reset 4);
      running s = true ∧ s.phase = .betweenTicks ∧ s.out.replyOut = none ∧ s.env.txnPort.head?.join = none) ∧
    (let s :=
        { between 7 (Timing.reset 4) with
          out := { OutRegs.invalid with replyOut := some { isWrite := true, burst := burst4 } }
          env :=
            { (State.boot tc).env with
              txnPort :=
                [some { isWrite := false, hasMask := false, header := hdr 0 0 0 16, data := [], bmask := [] }] } };
      running s = true ∧ s.phase = .betweenTicks ∧ s.out.replyOut = some { isWrite := true, burst := burst4 } ∧
        (s.env.txnPort.head?.join).isSome = true) := by decide

/-- The tick `c` with a beat for 35 on the pins, a read burst for `o` and a write burst for `i`. -/
def due (c o i : Nat) : State :=
  let s := published (mid c (Timing.reset 4))
  { s with
    phys := { s.phys with dataPins := [⟨35, ⟨.read, 0⟩⟩], readout := [⟨o, burst4⟩], readin := [⟨i, burst4⟩] } }

/-- With the beat and the read burst due, with the beat and the write burst due, and with nothing due. -/
theorem witness_TickCloses :
    ∀ x ∈ [(35, 35, 40), (35, 40, 35), (34, 35, 40)],
      let s := due x.1 x.2.1 x.2.2
      let a := acceptBus s
      tickReady s ∧ a.fatal.flag = false ∧ (∀ x ∈ a.phys.readout, ∀ y ∈ a.phys.readin, x.ts ≠ y.ts) ∧
        a.phys.dataPins = [⟨35, ⟨.read, 0⟩⟩] ∧ a.phys.readout = [⟨x.2.1, burst4⟩] ∧
        a.phys.readin = [⟨x.2.2, burst4⟩] := by
  unfold tickReady
  decide

/-- 42 R152: the reply of each. -/
theorem test_reply :
    (closeTick (due 35 35 40)).out.replyOut = some { isWrite := false, burst := burst4 } ∧
      (closeTick (due 35 40 35)).out.replyOut = some { isWrite := true, burst := burst4 } ∧
      (closeTick (due 34 35 40)).out.replyOut = none := by decide

theorem witness_PublishCompletes :
    let s := mid 0 (Timing.reset 4)
    running s = true ∧ s.sched.published = false ∧ [Admit.acceptRead].length = sstElems s.cfg := by decide

theorem witness_PublishExactlyOnce :
    (let s := published (mid 0 (Timing.reset 4));
      running s = true ∧ s.sched.published = true ∧ [Admit.acceptRead].length = sstElems s.cfg) ∧
    (let s := mid 0 (Timing.reset 4);
      running s = true ∧ s.phase = .policyRunning ∧ s.sched.published = false ∧ (acceptBus s).fatal.flag = false ∧
        s.phys.dataPins = [] ∧ s.phys.readout = [] ∧ s.phys.readin = []) := by decide

/-- Each queue's head one tick late with the queues before it on time, and the last cycle. -/
theorem witness_LateHeadOrLastCycleIsFatal :
    (let s := due 36 36 36;
      running s = true ∧ s.phase = .policyRunning ∧ (acceptBus s).fatal.flag = false ∧
        (acceptBus s).phys.dataPins = [⟨35, ⟨.read, 0⟩⟩] ∧ 35 < s.cycle) ∧
    (let s := due 36 35 36;
      let s := { s with phys := { s.phys with dataPins := [] } };
      (∀ e ∈ s.phys.dataPins, s.cycle ≤ e.ts) ∧ (acceptBus s).phys.readout = [⟨35, burst4⟩] ∧ 35 < s.cycle) ∧
    (let s := due 36 36 35;
      let s := { s with phys := { s.phys with dataPins := [] } };
      (∀ e ∈ s.phys.readout, s.cycle ≤ e.ts) ∧ (acceptBus s).phys.readin = [⟨35, burst4⟩] ∧ 35 < s.cycle) ∧
    (let s := published (mid (2 ^ 64 - 2 ^ 34) (Timing.reset 4));
      running s = true ∧ s.phase = .policyRunning ∧ (acceptBus s).fatal.flag = false ∧ s.phys.dataPins = [] ∧
        s.phys.readout = [] ∧ s.phys.readin = [] ∧ s.sched.published = true ∧ s.cycle = 2 ^ 64 - 2 ^ 34) := by decide

/-- 95 M9: the last columns of the last row; for ReadRawCompletes, WriteRawCompletes and PreloadIsWriteRaw. -/
theorem witness_ReadRaw_WriteRaw_Preload :
    let s := between 0 (Timing.reset 4)
    memoryInv s ∧ s.configError = none ∧ running s = true ∧ (3#16).toNat < s.cfg.NB ∧ (15#32).toNat < s.cfg.NR ∧
      (8#32).toNat % 4 = 0 ∧ (62#32).toNat + (8#32).toNat / 4 ≤ s.cfg.NC ∧
      ([1, 2, 3, 4, 5, 6, 7, 8] : List Byte).length = (8#32).toNat := by
  unfold memoryInv
  decide

/-- 95 M10, M11 and M12, each at the first value past the range. -/
theorem witness_RawFatals :
    let s := between 0 (Timing.reset 4)
    running s = true ∧ s.cfg.NB ≤ (4#16).toNat ∧ (3#16).toNat < s.cfg.NB ∧ s.cfg.NR ≤ (16#32).toNat ∧
      (15#32).toNat < s.cfg.NR ∧ (6#32).toNat % 4 ≠ 0 ∧ (12#32).toNat % 4 = 0 ∧
      s.cfg.NC < (62#32).toNat + (12#32).toNat / 4 := by decide

/-- The mask 0x8 and its expansion to bytes. -/
theorem witness_MergeFormula : ∀ i < 32, (0xFF000000#32).getLsbD i = (8#4).getLsbD (i / 8) := by decide

theorem witness_BurstRoundTrip :
    Memory.wf (.table []) [(7, 1)] ∧ burst4.slots[2]? = some ⟨0x33333333, 5⟩ := by decide

/-- 95 Q1, and a transaction that ends with the row. -/
theorem witness_TxnReadSplits :
    let s := mid 0 (Timing.reset 4)
    shapeInv s ∧ running s = true ∧ (hdr 2 7 52 40).bank.toNat < s.cfg.NB ∧ (hdr 2 7 52 40).row.toNat < s.cfg.NR ∧
      (hdr 2 7 52 40).bytes.toNat ≤ 3 * (4 * s.cfg.BL) ∧
      3 * (4 * s.cfg.BL) < (hdr 2 7 52 40).bytes.toNat + 4 * s.cfg.BL ∧
      (hdr 2 7 52 40).col.toNat + 3 * s.cfg.BL ≤ s.cfg.NC := by
  unfold shapeInv
  decide

/-- 95 Q2: 22 bytes in two Writes. -/
theorem witness_TxnWriteSplits :
    let s := mid 0 (Timing.reset 4)
    shapeInv s ∧ running s = true ∧ (hdr 2 7 56 22).bank.toNat < s.cfg.NB ∧ (hdr 2 7 56 22).row.toNat < s.cfg.NR ∧
      (hdr 2 7 56 22).bytes.toNat ≤ 2 * (4 * s.cfg.BL) ∧
      2 * (4 * s.cfg.BL) < (hdr 2 7 56 22).bytes.toNat + 4 * s.cfg.BL ∧
      (hdr 2 7 56 22).col.toNat + 2 * s.cfg.BL ≤ s.cfg.NC := by
  unfold shapeInv
  decide

/-- 95 K40, Q7 and Q8, each at the first value past the range. -/
theorem witness_QueryOrSplitOutOfRangeIsFatal :
    let s := mid 0 (Timing.reset 4)
    shapeInv s ∧ running s = true ∧ s.cfg.NB ≤ (4#16).toNat ∧ s.cfg.NB ≤ (hdr 4 0 0 16).bank.toNat ∧
      (hdr 3 16 0 16).bank.toNat < s.cfg.NB ∧ s.cfg.NR ≤ (hdr 3 16 0 16).row.toNat ∧
      (hdr 3 15 61 16).row.toNat < s.cfg.NR ∧ (hdr 3 15 61 16).bytes.toNat ≤ 1 * (4 * s.cfg.BL) ∧
      1 * (4 * s.cfg.BL) < (hdr 3 15 61 16).bytes.toNat + 4 * s.cfg.BL ∧
      s.cfg.NC < (hdr 3 15 61 16).col.toNat + 1 * s.cfg.BL := by
  unfold shapeInv
  decide

/-- With MEM_INIT open, and with a table that lists one byte. -/
theorem witness_ResetLeaves :
    Config.tc.memInit = .unspecified ∧ (15 < 2 ^ 32) ∧ (63 < 2 ^ 32) ∧
      (let c : Cfg := { tc with memInit := .table [(9, 4)] };
        c.memInit = .table [(9, 4)] ∧ (State.boot c).byteAt 9 = 4 ∧ (State.boot c).byteAt 8 = 0) := by decide

/-- A bundle that stands for `TC`. -/
def bundle : Bundle :=
  { family := .supported, NB := 4, NR := 16, NC := 64, BL := 4, BPC := 8, profile := .custom Config.tc.lat
    profileTable := [], topology := .shared, pagePolicy := .openPage, schedKind := .selects 0, debugString := []
    memInit := .unspecified }

/-- Reset of an engine that a fatal stopped, with a bundle that is taken and with one that is not. -/
theorem witness_ResetTakesConfiguration :
    (withItem (.reset bundle) (withFatal .engine .endOfTick .cycleOverflow 0 (between 0 (Timing.reset 4)))).env.port =
        [.reset bundle] ∧
      configure bundle = .ok Config.tc ∧ configure { bundle with NB := 0 } = .error .zeroBankCount := by decide

/-- A legal bundle of each profile, and the configuration it gives. -/
theorem witness_ConfigurationErrors_legal :
    bundle.profile = .custom Config.tc.lat ∧ configure bundle = .ok Config.tc ∧
      configure { bundle with profile := .perfect } =
        .ok { Config.tc with lat := ⟨0, 0, 0, 0, 0, 0, 0, 0⟩ } ∧
      (let b := { bundle with profile := .named "DDR", profileTable := [("other", tc5.lat), ("DDR", Config.tc.lat)] };
        ("DDR", Config.tc.lat) ∈ b.profileTable ∧
          (∀ entry ∈ b.profileTable, entry.1 = "DDR" → entry.2 = Config.tc.lat) ∧ configure b = .ok Config.tc) := by
  decide

/-- Each error, and a bundle on either side of a range. -/
theorem witness_ConfigurationErrors :
    { bundle with family := .other 1 }.family ≠ .supported ∧
      configure { bundle with profile := .named "DDR", profileTable := [("other", tc5.lat)] } = .error .unknownProfile ∧
      configure { bundle with NB := 0 } = .error .zeroBankCount ∧ bundle.NB ≠ 0 ∧
      configure { bundle with NB := 65537 } = .error .badParameter ∧
      (configure { bundle with NB := 65536 }).isOk = true ∧
      configure { bundle with BPC := 3 } = .error .badParameter ∧
      configure { bundle with schedKind := .selectsNone 0 } = .error .badParameter ∧
      (configure { bundle with profile := .perfect }).isOk = true := by decide

/-- A Write just issued in the tick 22, its tick about to end, with a beat of an earlier Read on the pins. -/
def busy : State :=
  let T : Timing := { one (rec4 .reading 23 0 false) with lastRead := stamp 11 23, lastActive := stamp 0 11 }
  let s := withItem .endTick (published (mid 22 T))
  let s := onBus (.write 0 8 burst4 true) { s with P := commit tc 22 (.write 0 8 burst4 true) T }
  { s with
    phys :=
      { s.phys with
        mem := [(7, 1)], dataPins := [⟨22, ⟨.read, 0⟩⟩]
        readout := [⟨23, { len := 4, slots := [⟨0, 0xF⟩, ⟨0, 0xF⟩, ⟨0, 0xF⟩, ⟨0, 0xF⟩] }⟩] } }

/-- The tick ends in a next state: the module has taken the Write. -/
theorem witness_step_busy :
    resetNext busy = false ∧ running busy = true ∧
      ∃ t, step busy = .next t ∧ bankAt t.M 0 = rec4 .writing 29 29 true ∧ t.cycle = 23 :=
  ⟨by decide, by decide, _, rfl, by decide, by decide⟩

/-- For StepKeepsMemoryCanonical, StepKeepsShape, StepKeepsRowMarkers, StepKeepsFlags, StepKeepsWidths and
StepKeepsOutputs. -/
theorem witness_StepKeeps_busy :
    memoryInv busy ∧ shapeInv busy ∧ rowInv busy ∧ flagInv busy.P ∧ flagInv busy.M ∧ widthInv busy ∧ annotInv busy ∧
      haltedInv busy := by
  unfold memoryInv shapeInv rowInv flagInv widthInv timingNear nearCycle annotInv haltedInv
  decide

/-- For StepKeepsMirror and ModuleNeverRaisesIssueChecks. -/
theorem witness_StepKeepsMirror_busy : mirrorInv busy :=
  fun _ => ⟨rfl, rfl, fun _ => ⟨by decide, by decide⟩⟩

theorem witness_StepKeepsBusOrder_busy : busOrderInv busy := by
  unfold busOrderInv lastWriteInv queueInv
  decide

/-- For ModuleNeverRaisesIssueChecks: the fatal of a tick that published nothing. -/
theorem witness_ModuleNeverRaisesIssueChecks :
    let s := mid 0 (Timing.reset 4)
    running s = true ∧ ∃ t, step s = .next t ∧ t.fatal.flag = true :=
  ⟨by decide, _, rfl, by decide⟩

/-- For OnlyResetEndsAStop: after a fatal, and without a configuration. -/
theorem witness_OnlyResetEndsAStop :
    (let s := withFatal .engine .endOfTick .cycleOverflow 0 (between 0 (Timing.reset 4));
      s.fatal.flag = true ∧ resetNext s = false ∧ ∃ t, step s = .next t) ∧
    (let s := resetInError .zeroBankCount (between 0 (Timing.reset 4));
      s.configError ≠ none ∧ resetNext s = false ∧ ∃ t, step s = .next t) :=
  ⟨⟨rfl, rfl, _, rfl⟩, by decide, rfl, _, rfl⟩

theorem witness_OperationsKeepToTheirState :
    (∃ t, exec (.dummy 7) (mid 0 (Timing.reset 4)) = .next t) ∧ isRaw (.dummy 7) = false ∧
      (∃ t, exec (.readRaw 0 0 0 4) (between 0 (Timing.reset 4)) = .next t) ∧ isRaw (.readRaw 0 0 0 4) = true :=
  ⟨⟨_, rfl⟩, rfl, ⟨_, rfl⟩, rfl⟩

/-- For ConfigurationIsFixed. -/
theorem witness_ConfigurationIsFixed :
    resetNext (between 0 (Timing.reset 4)) = false ∧ ∃ t, step (between 0 (Timing.reset 4)) = .next t :=
  ⟨rfl, _, rfl⟩

theorem witness_ResetMeetsInvariants : cfgValid tc = true := by decide

end Sys2Proof.Tests
end

/-! Statements of 20_memory.md: a burst written to the bank arrays and read back. -/

namespace Sys2Proof.Proofs.Memory

open Sys2Proof.Machine

/-- A word of a masked write reads back as the merge of its slot with the prior word (43_burst_buffer.md R171). -/
theorem readWord_memWrite_inside {mi : MemInit} {m : Memory} (h : Memory.wf mi m) (b r c : Nat) (slots : List Slot)
    {i : Nat} {slot : Slot} (hi : slots[i]? = some slot) :
    readWord mi (memWrite mi m b r c slots) (wordAddr b r (c + i)) =
      merge (readWord mi m (wordAddr b r (c + i))) slot.word slot.mask := by
  have byte : ∀ j < 4, byteOf (readWord mi (memWrite mi m b r c slots) (wordAddr b r (c + i))) j =
      byteOf (merge (readWord mi m (wordAddr b r (c + i))) slot.word slot.mask) j := fun j hj => by
    rw [byteOf_readWord _ _ _ _ hj, readByte_memWrite_inside h _ _ _ _ _ _ hi _ hj, byteOf_merge _ _ _ _ hj,
      byteOf_readWord _ _ _ _ hj]
  exact word_ext (byte 0 (by decide)) (byte 1 (by decide)) (byte 2 (by decide)) (byte 3 (by decide))

/-- Settles O40: word `i` of the region reads back as a merge, which `byteOf_merge` splits by mask bit. -/
theorem burstRoundTrip : Obligations.BurstRoundTrip := by
  intro mi m b r c slots hwf i slot hi
  obtain ⟨hlt, -⟩ := List.getElem?_eq_some_iff.1 hi
  refine ⟨_, memRead_getElem mi _ b r c slots.length i hlt, fun j hj => ?_⟩
  rw [readWord_memWrite_inside hwf b r c slots hi, byteOf_merge _ _ _ _ hj]

end Sys2Proof.Proofs.Memory

/-! Statements of 40_timing_constraint_checker.md: the constraint of each command kind, and `canIssue`. -/

namespace Sys2Proof.Proofs.Constraints

open Sys2Proof.Machine

/-- "Any bank is Writing" (40 R103), by the number of the bank. -/
theorem anyWriting_iff (T : Timing) :
    anyWriting T = true ↔ ∃ b < T.banks.length, (bankAt T b).status = .writing := by
  simp only [anyWriting, List.any_eq_true, decide_eq_true_eq]
  constructor
  · rintro ⟨r, hr, hw⟩
    obtain ⟨b, hb, rfl⟩ := List.getElem_of_mem hr
    exact ⟨b, hb, by rwa [bankAt_of_lt hb]⟩
  · rintro ⟨b, hb, hw⟩
    exact ⟨bankAt T b, bankAt_mem hb, hw⟩

/-- A status with a row open passes the two status tests of Read and Write (40 R103, R105). -/
theorem rowOpen_passes {x : BankStatus} (h : x = .active ∨ x = .reading ∨ x = .writing) :
    x ≠ .activating ∧ ¬ (x = .idle ∨ x = .precharging) := by
  rcases h with rfl | rfl | rfl <;> decide

/-- A status with no row open passes the `Activating` test of Read and Write (40 R103, R105). -/
theorem noRow_passes {x : BankStatus} (h : x = .idle ∨ x = .precharging) : x ≠ .activating := by
  rcases h with rfl | rfl <;> decide

/-- Settles O7: each answer by the tests before it failing (`if_neg`) and its own holding (`if_pos`). -/
theorem constraintTables : Obligations.ConstraintTables := by
  intro cfg T c b
  refine ⟨?active, ?read, ?write, ?precharge⟩
  case active =>
    simp only [constraint, constraintActive]
    refine ⟨fun hp => if_pos hp, fun hp he => ?_, fun hp he hi => ?_, fun he hi => ?_⟩
    · rw [if_neg hp, if_pos he]
    · rw [if_neg hp, if_neg he, if_pos hi]
    · rw [if_neg (by simp [hi]), if_neg he, if_neg (not_not.2 hi)]
  case read =>
    simp only [constraint, constraintRead, ← anyWriting_iff]
    refine ⟨fun hb => if_pos hb, fun hb ha => ?_, fun hb hn => ?_, fun hb ho => ?_⟩
    · rw [if_neg hb, if_pos ha]
    · rw [if_neg hb, if_neg (noRow_passes hn), if_pos hn]
    · obtain ⟨hact, hrow⟩ := rowOpen_passes (ho.imp_right .inl)
      rw [if_neg hb, if_neg hact, if_neg hrow]
      refine ⟨fun hap => if_pos hap, fun hap hw => ?_, fun hap hw => ?_⟩
      · rw [if_neg (Bool.eq_false_iff.1 hap), if_pos hw]
      · rw [if_neg (Bool.eq_false_iff.1 hap), if_neg (Nat.not_lt.2 hw)]
  case write =>
    simp only [constraint, constraintWrite]
    refine ⟨fun hb => if_pos hb, fun hb ht => ?_, fun hb ht ha => ?_, fun hb ht hn => ?_, fun hb ht ho => ?_⟩
    · rw [if_neg hb, if_pos ht]
    · rw [if_neg hb, if_neg ht, if_pos ha]
    · rw [if_neg hb, if_neg ht, if_neg (noRow_passes hn), if_pos hn]
    · obtain ⟨hact, hrow⟩ := rowOpen_passes ho
      rw [if_neg hb, if_neg ht, if_neg hact, if_neg hrow]
      exact ⟨fun hap => if_pos hap, fun hap => if_neg (Bool.eq_false_iff.1 hap)⟩
  case precharge =>
    simp only [constraint, constraintPrecharge]
    refine ⟨fun hw => if_pos hw, fun hw ha => ?_, fun hw hr he => ?_, fun hw ha he => ?_⟩
    · rw [if_neg hw, if_pos ha]
    · rw [if_neg hw, if_neg (by simp [hr]), if_pos ⟨hr, he⟩]
    · rw [if_neg hw, if_neg ha, if_neg fun ⟨hr, hlt⟩ => Nat.not_le.2 hlt (he hr)]

/-- The four checked kinds never answer `Unknown` (40 R101, R103, R105, R107), nor does Dummy (R109). -/
theorem constraint_eq_unknown_iff (cfg : Cfg) (T : Timing) (c b : Nat) (kind : CmdKind) :
    constraint cfg T c b kind = .unknown ↔ kind = .reserved := by
  cases kind with
  | active => simp only [constraint, constraintActive]; split_ifs <;> simp
  | read => simp only [constraint, constraintRead]; split_ifs <;> simp
  | write => simp only [constraint, constraintWrite]; split_ifs <;> simp
  | precharge => simp only [constraint, constraintPrecharge]; split_ifs <;> simp
  | dummy => simp [constraint]
  | reserved => simp [constraint]

/-- The reserved kind codes of R72. -/
theorem ofCode_eq_reserved_iff (k : BitVec 3) : CmdKind.ofCode k = .reserved ↔ 5 ≤ k.toNat := by
  revert k
  decide

/-- Code 0 is the code of `None` alone (30 R77). -/
theorem code_eq_zero_iff (x : Constraint) : x.code = 0 ↔ x = .none := by
  cases x <;> decide

/-- Settles O8: the constraint of a kind code is `Unknown` by its kind, and the code that `canIssue` looks at is 0 for
`None` alone. -/
theorem otherKindsAndCanIssue : Obligations.OtherKindsAndCanIssue := by
  intro cfg T c b
  refine ⟨rfl, fun k => commit_of_not_hasCommit rfl cfg c T, fun k => ?_, fun kind => ?_⟩
  · rw [constraint_eq_unknown_iff, ofCode_eq_reserved_iff]
  · rw [canIssue, decide_eq_true_eq, code_eq_zero_iff]

end Sys2Proof.Proofs.Constraints

/-! Statements of 41_bank_state_machine.md: the passive transitions of S1, on `P`, on `M` and on the row markers. -/

namespace Sys2Proof.Proofs.Banks

open Sys2Proof.Machine

/-! ### The transition of one record, by its status and `endCycle` -/

section Record

variable {cfg : Cfg} {c : Nat} {r : BankRec}

/-- Before `endCycle` no state ends (41 R122). -/
theorem passiveBank_of_lt (h : c < r.endCycle) : passiveBank cfg c r = r := by
  have hn : ¬ r.endCycle ≤ c := Nat.not_le.2 h
  unfold passiveBank
  split
  · rfl
  · rfl
  all_goals exact if_neg hn

/-- `Idle` and `Active` have no passive transition (41 R133). -/
theorem passiveBank_of_stable (h : r.status = .idle ∨ r.status = .active) : passiveBank cfg c r = r := by
  rcases h with h | h <;> simp only [passiveBank, h]

theorem passiveBank_activating (hs : r.status = .activating) (he : r.endCycle ≤ c) :
    passiveBank cfg c r = { r with status := .active } := by
  simp only [passiveBank, hs, if_pos he, passiveActivating]

theorem passiveBank_reading (hs : r.status = .reading) (he : r.endCycle ≤ c) :
    passiveBank cfg c r = passiveReading cfg r := by
  simp only [passiveBank, hs, if_pos he]

theorem passiveBank_writing (hs : r.status = .writing) (he : r.endCycle ≤ c) :
    passiveBank cfg c r = passiveWriting cfg r := by
  simp only [passiveBank, hs, if_pos he]

theorem passiveBank_precharging (hs : r.status = .precharging) (he : r.endCycle ≤ c) :
    passiveBank cfg c r = { r with status := .idle } := by
  simp only [passiveBank, hs, if_pos he, passivePrecharging]

theorem passiveReading_stays_open (ha : r.autoprecharge = false) :
    passiveReading cfg r = { r with status := .active } :=
  if_neg (Bool.eq_false_iff.1 ha)

/-- The precharge is over when the burst is (41 R130). -/
theorem passiveReading_closes (ha : r.autoprecharge = true) (hp : cfg.lat.tRP + 1 ≤ cfg.lat.CAS + btt cfg) :
    passiveReading cfg r = { r with status := .idle, autoprecharge := false } :=
  (if_pos ha).trans (if_pos hp)

/-- The precharge outlasts the burst (41 R130). -/
theorem passiveReading_precharges (ha : r.autoprecharge = true) (hp : cfg.lat.CAS + btt cfg < cfg.lat.tRP + 1) :
    passiveReading cfg r =
      { r with
        status := .precharging, autoprecharge := false
        endCycle := r.endCycle + (cfg.lat.tRP + 1 - cfg.lat.CAS - btt cfg) } :=
  (if_pos ha).trans (if_neg (Nat.not_le.2 hp))

theorem passiveWriting_stays_open (ha : r.autoprecharge = false) :
    passiveWriting cfg r = { r with status := .active } :=
  if_neg (Bool.eq_false_iff.1 ha)

/-- Recovery and precharge take no time (41 R131). -/
theorem passiveWriting_closes (ha : r.autoprecharge = true) (hp : cfg.lat.tWR + cfg.lat.tRP = 0) :
    passiveWriting cfg r = { r with status := .idle, autoprecharge := false } :=
  (if_pos ha).trans (if_pos hp)

/-- Recovery and precharge follow the burst (41 R131). -/
theorem passiveWriting_precharges (ha : r.autoprecharge = true) (hp : 0 < cfg.lat.tWR + cfg.lat.tRP) :
    passiveWriting cfg r =
      { r with
        status := .precharging, autoprecharge := false
        endCycle := r.endCycle + cfg.lat.tWR + cfg.lat.tRP } :=
  (if_pos ha).trans (if_neg (Nat.ne_of_gt hp))

end Record

/-! ### S1 on a bank and its row marker -/

@[simp] theorem phaseS1_P (s : State) : (phaseS1 s).P = passive s.cfg s.cycle s.P := by
  simp [phaseS1]

@[simp] theorem phaseS1_M (s : State) : (phaseS1 s).M = passive s.cfg s.cycle s.M := by
  simp [phaseS1]

/-- A row marker after S1 is cleared exactly where its bank enters `Idle` (10 R27). -/
theorem openRowAt_phaseS1 (s : State) (b : Nat) :
    openRowAt (phaseS1 s) b = if entersIdle s.cfg s.cycle (bankAt s.M b) then none else openRowAt s b := by
  unfold openRowAt
  rw [← passiveRows_getD]
  simp [phaseS1]

theorem entersIdle_iff (cfg : Cfg) (c : Nat) (r : BankRec) :
    entersIdle cfg c r = true ↔ r.status ≠ .idle ∧ (passiveBank cfg c r).status = .idle := by
  simp [entersIdle]

section Bank

variable {s : State} {b : Nat} {r r' : BankRec}

/-- A bank that does not enter `Idle` keeps its row marker. -/
theorem phaseS1_keeps_row (hM : bankAt s.M b = r) (hp : passiveBank s.cfg s.cycle r = r')
    (hi : r'.status = .idle → r.status = .idle) :
    bankAt (phaseS1 s).M b = r' ∧ openRowAt (phaseS1 s) b = openRowAt s b := by
  have hn : ¬ entersIdle s.cfg s.cycle r = true := by
    rw [entersIdle_iff, hp]
    exact fun ⟨hne, he⟩ => hne (hi he)
  rw [phaseS1_M, bankAt_passive, openRowAt_phaseS1, hM, hp, if_neg hn]
  exact ⟨rfl, rfl⟩

/-- A bank that has no transition keeps its record and its row marker. -/
theorem phaseS1_stays (hM : bankAt s.M b = r) (hp : passiveBank s.cfg s.cycle r = r) :
    bankAt (phaseS1 s).M b = r ∧ openRowAt (phaseS1 s) b = openRowAt s b :=
  phaseS1_keeps_row hM hp id

/-- A bank that enters `Idle` loses its row marker (41 R130 to R132). -/
theorem phaseS1_closes_row (hM : bankAt s.M b = r) (hp : passiveBank s.cfg s.cycle r = r') (hne : r.status ≠ .idle)
    (hi : r'.status = .idle) :
    bankAt (phaseS1 s).M b = r' ∧ openRowAt (phaseS1 s) b = none := by
  have he : entersIdle s.cfg s.cycle r = true := (entersIdle_iff _ _ _).2 ⟨hne, by rw [hp, hi]⟩
  rw [phaseS1_M, bankAt_passive, openRowAt_phaseS1, hM, hp, if_pos he]
  exact ⟨rfl, rfl⟩

/-- S1 runs one function on both copies, so equal records stay equal (10 R26, 41 R121). -/
theorem phaseS1_mirrors (hM : bankAt s.M b = r) (hP : bankAt s.P b = r) :
    bankAt (phaseS1 s).P b = bankAt (phaseS1 s).M b := by
  rw [phaseS1_P, phaseS1_M, bankAt_passive, bankAt_passive, hP, hM]

end Bank

/-- S1 changes nothing but the two copies and the row markers. -/
theorem phaseS1_frame (s : State) :
    phaseS1 s =
      { s with
        P := (phaseS1 s).P, M := (phaseS1 s).M
        phys := { s.phys with openRow := (phaseS1 s).phys.openRow } } :=
  rfl

/-! ### The statements -/

/-- Settles O10: a case per branch of the transition, its record from `passiveReading` and its row marker from where
the record goes. -/
theorem passiveFromReading : Obligations.PassiveFromReading := by
  intro s b r hM hs
  have hne : r.status ≠ .idle := by simp [hs]
  refine ⟨fun hc => ?early, fun he ha => ?unflagged, fun he ha hp => ?closes, fun he ha hp => ?precharges,
    phaseS1_mirrors hM⟩
  case early => exact phaseS1_stays hM (passiveBank_of_lt hc)
  all_goals have hr := passiveBank_reading (cfg := s.cfg) hs he
  case unflagged => exact phaseS1_keeps_row hM (hr.trans (passiveReading_stays_open ha)) (by simp)
  case closes => exact phaseS1_closes_row hM (hr.trans (passiveReading_closes ha hp)) hne rfl
  case precharges => exact phaseS1_keeps_row hM (hr.trans (passiveReading_precharges ha hp)) (by simp)

/-- Settles O11: a case per branch of the transition, its record from `passiveWriting` and its row marker from where
the record goes. -/
theorem passiveFromWriting : Obligations.PassiveFromWriting := by
  intro s b r hM hs
  have hne : r.status ≠ .idle := by simp [hs]
  refine ⟨fun hc => ?early, fun he ha => ?unflagged, fun he ha hp => ?closes, fun he ha hp => ?precharges,
    phaseS1_mirrors hM⟩
  case early => exact phaseS1_stays hM (passiveBank_of_lt hc)
  all_goals have hw := passiveBank_writing (cfg := s.cfg) hs he
  case unflagged => exact phaseS1_keeps_row hM (hw.trans (passiveWriting_stays_open ha)) (by simp)
  case closes => exact phaseS1_closes_row hM (hw.trans (passiveWriting_closes ha hp)) hne rfl
  case precharges => exact phaseS1_keeps_row hM (hw.trans (passiveWriting_precharges ha hp)) (by simp)

/-- Settles O12: the two transitions that end at `endCycle`, the two reasons for having none, and the frame of S1. -/
theorem passiveFromOtherStates : Obligations.PassiveFromOtherStates := by
  intro s b r hM
  refine ⟨fun hs he => ?activating, fun hs he => ?precharging, fun _ hc => ?early, fun hs => ?stable,
    phaseS1_mirrors hM, rfl, rfl, phaseS1_frame s⟩
  case activating => exact phaseS1_keeps_row hM (passiveBank_activating hs he) (by simp)
  case precharging => exact phaseS1_closes_row hM (passiveBank_precharging hs he) (by simp [hs]) rfl
  case early => exact phaseS1_stays hM (passiveBank_of_lt hc)
  case stable => exact phaseS1_stays hM (passiveBank_of_stable hs)

end Sys2Proof.Proofs.Banks

/-! Statements of 43_burst_buffer.md: the raw writes of the host. -/

namespace Sys2Proof.Proofs.Raw

open Sys2Proof.Machine

/-! ### The range of a raw access -/

/-- The checks of R184 pass for a whole number of words inside a row. -/
theorem rawFault_none_iff (cfg : Cfg) (bank : BitVec 16) (row col nbytes : BitVec 32) :
    rawFault cfg bank row col nbytes = none ↔
      bank.toNat < cfg.NB ∧ row.toNat < cfg.NR ∧ nbytes.toNat % 4 = 0 ∧ col.toNat + nbytes.toNat / 4 ≤ cfg.NC := by
  unfold rawFault
  split_ifs <;> simp <;> omega

/-! ### The bytes of stored words -/

theorem bytesOfWords_cons_getElem_lt (w : Word) (rest : List Word) {k : Nat} (hk : k < 4) :
    (bytesOfWords (w :: rest))[k]? = some (byteOf w k) := by
  match k, hk with
  | 0, _ | 1, _ | 2, _ | 3, _ => rfl

theorem bytesOfWords_cons_getElem_add (w : Word) (rest : List Word) (k : Nat) :
    (bytesOfWords (w :: rest))[k + 4]? = (bytesOfWords rest)[k]? := rfl

/-- Byte `k` of the stored words stands `k` bytes after the first (20_memory.md R54). -/
theorem readByte_memStore_inside {mi : MemInit} {m : Memory} (h : Memory.wf mi m) (b r c : Nat) (ws : List Word)
    {k : Nat} {v : Byte} (hk : (bytesOfWords ws)[k]? = some v) :
    readByte mi (memStore mi m b r c ws) (wordAddr b r c + k) = v := by
  induction ws generalizing m c k with
  | nil => simp [bytesOfWords] at hk
  | cons w rest ih =>
    have hw := writeWord_wf h (wordAddr b r c) w
    have hc := wordAddr_add b r c 1
    rw [memStore]
    rcases Nat.lt_or_ge k 4 with hlt | hge
    · have hv : byteOf w k = v := by simpa [bytesOfWords_cons_getElem_lt w rest hlt] using hk
      rw [readByte_memStore_outside hw b r (c + 1) rest (by omega), readByte_writeWord_inside h _ w k hlt, hv]
    · obtain ⟨j, rfl⟩ := Nat.exists_eq_add_of_le' hge
      have hnext := ih hw (c + 1) (bytesOfWords_cons_getElem_add w rest j ▸ hk)
      rwa [hc, show wordAddr b r c + 4 * 1 + j = wordAddr b r c + (j + 4) by omega] at hnext

/-! ### A raw write -/

section Write

variable {s : State} {b : BitVec 16} {r c n : BitVec 32} {data : List Byte}

/-- A raw write that passes its checks stores its words and changes nothing else (43 R182). -/
theorem rawWrite_of_rawFault_none (hf : rawFault s.cfg b r c n = none) :
    rawWrite b r c n data s =
      s.setMem (memStore s.cfg.memInit s.phys.mem b.toNat r.toNat c.toNat (wordsOfBytes (n.toNat / 4) data)) := by
  simp only [rawWrite, hf]

/-- Every byte of the range reads as given. -/
theorem rawWrite_byteAt_inside (hm : memoryInv s) (hf : rawFault s.cfg b r c n = none) (hd : data.length = n.toNat)
    {k : Nat} {v : Byte} (hk : data[k]? = some v) :
    (rawWrite b r c n data s).byteAt (wordAddr b.toNat r.toNat c.toNat + k) = v := by
  obtain ⟨-, -, hwords, -⟩ := (rawFault_none_iff ..).1 hf
  have hbytes := bytesOfWords_wordsOfBytes (n.toNat / 4) data (by omega)
  rw [rawWrite_of_rawFault_none hf]
  exact readByte_memStore_inside hm _ _ _ _ (hbytes.symm ▸ hk)

theorem rawWrite_memoryKeptOutside (hm : memoryInv s) (hf : rawFault s.cfg b r c n = none) :
    memoryKeptOutside s (rawWrite b r c n data s) b.toNat r.toNat c.toNat (n.toNat / 4) := by
  intro a ha
  rw [rawWrite_of_rawFault_none hf]
  exact readByte_memStore_outside hm _ _ _ _ (by rwa [wordsOfBytes_length])

end Write

/-! ### The two operations -/

theorem exec_writeRaw (b : BitVec 16) (r c n : BitVec 32) (data : List Byte) (s : State) :
    exec (.writeRaw b r c n data) s = .next (whileRunning (rawWrite b r c n data) s) := rfl

theorem exec_preload (b : BitVec 16) (r c n : BitVec 32) (data : List Byte) (s : State) :
    exec (.preload b r c n data) s = .next (whileRunning (rawWrite b r c n data) s) := rfl

/-- Settles O37: both operations are the guarded `rawWrite`, and in a running engine that is `rawWrite` itself. -/
theorem preloadIsWriteRaw : Obligations.PreloadIsWriteRaw := by
  intro s b r c n data
  refine ⟨by rw [exec_preload, exec_writeRaw], fun hm hrun hb hr hn hc hd => ?_⟩
  have hf := (rawFault_none_iff s.cfg b r c n).2 ⟨hb, hr, hn, hc⟩
  refine ⟨rawWrite b r c n data s, ?completes, ?frame, fun k v hk => rawWrite_byteAt_inside hm hf hd hk,
    rawWrite_memoryKeptOutside hm hf⟩
  case completes => rw [exec_preload, whileRunning_running hrun]
  case frame =>
    rw [rawWrite_of_rawFault_none hf]
    rfl

end Sys2Proof.Proofs.Raw

/-! Statements of 30_encoding.md: what the decoder makes of the encoder's words and of every other word. -/

namespace Sys2Proof.Proofs.Encoding

open Sys2Proof.Machine

theorem ofBool_beq_one (x : Bool) : (BitVec.ofBool x == 1#1) = x := by
  cases x <;> rfl

/-- Settles O1: a case per row of the opcode table, each field by the law of its word. -/
theorem decodeOfEncode : Obligations.DecodeOfEncode := by
  intro i hw
  cases i with
  | active bank row => simp [encode, decode, decodeCmd]
  | read bank col ap => simp [encode, decode, decodeCmd, ofBool_beq_one]
  | write bank col burst ap =>
    simp [encode, decode, decodeCmd, ofBool_beq_one, decodeBurst_encodeBurst burst hw]
  | precharge bank => simp [encode, decode, decodeCmd]
  | prechargeAll => simp [encode, decode, decodeCmd]
  | dummy cons => simp [encode, decode, decodeCmd]
  | illegalKind5 => simp [encode, decode, decodeCmd]
  | illegalKind6 => simp [encode, decode, decodeCmd]
  | illegalKind7 => simp [encode, decode, decodeCmd]
  | constraintFor kind bank => simp [encode, decode, decodeQry, qryWord_kind, qryWord_bank]
  | readRaw bank row col nbytes => simp [encode, decode, decodeRaw]
  | writeRaw bank row col nbytes data =>
    have hlen : data.length = nbytes.toNat := by simpa [Instr.wellFormed] using hw
    simp [encode, decode, decodeRaw, hlen]
  | preload bank row col nbytes data =>
    have hlen : data.length = nbytes.toNat := by simpa [Instr.wellFormed] using hw
    simp [encode, decode, decodeRaw, hlen]
  | rawIllegalOp => simp [encode, decode, decodeRaw]
  | txnRead header => simp [encode, decode, decodeTxn]
  | txnWrite header hasMask data bmask =>
    obtain ⟨hlen, hmask⟩ : data.length = header.bytes.toNat ∧ maskWellFormed header.bytes hasMask bmask = true := by
      simpa [Instr.wellFormed] using hw
    simp [encode, decode, decodeTxn, hlen, hmask, ofBool_beq_one]
  | publishState state =>
    cases state with
    | nil => simp [Instr.wellFormed] at hw
    | cons a rest => exact congrArg (fun x => Except.ok (Instr.publishState x)) (decodeSst_encodeSst (a :: rest))

/-- The BURST bus gives as many slots as its length field says, at most 32 (30_encoding.md R78). -/
theorem decodeBurst_wellFormed (w : BitVec 1158) : (decodeBurst w).wellFormed = true := by
  simp [decodeBurst, Burst.wellFormed]

theorem decodeCmd_wellFormed (w : BitVec 64) (u : BitVec 1158) : (decodeCmd w u).wellFormed = true := by
  simp only [decodeCmd]
  split
  case h_3 => exact decodeBurst_wellFormed u
  case h_4 => split <;> rfl
  all_goals rfl

theorem decodeRaw_wellFormed {w : BitVec 128} {data : List Byte} {i : Instr} (h : decodeRaw w data = .ok i) :
    i.wellFormed = true := by
  simp only [decodeRaw] at h
  split at h
  case h_1 => cases h; rfl
  case h_4 => cases h; rfl
  all_goals
    split at h
    · rename_i hlen
      cases h
      exact beq_iff_eq.2 hlen
    · cases h

theorem decodeTxn_wellFormed {w : BitVec 160} {data : List Byte} {bmask : List Bool} {i : Instr}
    (h : decodeTxn w data bmask = .ok i) : i.wellFormed = true := by
  simp only [decodeTxn] at h
  split_ifs at h with hread hlen hmask
  · cases h
    rfl
  · cases h
    exact Bool.and_eq_true_iff.2 ⟨beq_iff_eq.2 (not_not.1 hlen), hmask⟩

/-- Settles O2: port by port; the arrays are checked by the decoder, the slots and elements counted by it. -/
theorem decodedIsWellFormed : Obligations.DecodedIsWellFormed := by
  intro p i h
  cases p with
  | cmd w burst => cases h; exact decodeCmd_wellFormed w burst
  | qry w => cases h; rfl
  | raw w data => exact decodeRaw_wellFormed h
  | txn w data bmask => exact decodeTxn_wellFormed h
  | sst elems w =>
    cases elems with
    | zero => cases h
    | succ n => cases h; rfl

/-- Settles O4: once the kind is known, the decoder looks at the fields of that kind alone. -/
theorem fieldsAKindLacksAreIgnored : Obligations.FieldsAKindLacksAreIgnored := by
  intro w w' burst burst' kind hkind hap hall hcons hbank haddr hburst
  refine ⟨congrArg Except.ok ?_, _, rfl⟩
  simp only [decodeCmd, ← hkind]
  split
  case h_1 hk =>
    have hle : kind ≤ 2 := hk.trans_le (by decide)
    rw [hbank (.inl hle), haddr hle]
  case h_2 hk =>
    have hle : kind ≤ 2 := hk.trans_le (by decide)
    rw [hap (.inl hk), hbank (.inl hle), haddr hle]
  case h_3 hk =>
    have hle : kind ≤ 2 := hk.trans_le (by decide)
    rw [hap (.inr hk), hbank (.inl hle), haddr hle, hburst hk]
  case h_4 hk =>
    rw [← hall hk]
    split
    · rfl
    · rename_i hone
      have hzero : w.extractLsb' 4 1 = 0#1 :=
        (BitVec.eq_zero_or_eq_one _).resolve_right fun h => hone (beq_iff_eq.2 h)
      rw [hbank (.inr ⟨hk, hzero⟩)]
  case h_5 hk => rw [hcons hk]
  all_goals rfl

/-- Settles O3: the words of 95_test_vectors.md section 3, evaluated. -/
theorem specWordsDecode : Obligations.SpecWordsDecode := by
  unfold Obligations.SpecWordsDecode
  decide

/-- Settles O60: the tables by evaluation, the record's flag by its two values. -/
theorem numericCodes : Obligations.NumericCodes := by
  refine ⟨by decide, by decide, by decide, by decide, by decide, by decide, by decide, by decide, by decide, ?_⟩
  rintro ⟨flag, c, o, v, d⟩
  cases flag <;> rfl

end Sys2Proof.Proofs.Encoding

/-! What the parts of a tick do to the state, said once for the statements below: the drains, acceptance and reset. -/

namespace Sys2Proof.Proofs.Parts

open Sys2Proof.Machine

/-! ### The drains -/

/-- What a drain leaves of a queue: the head leaves if it is due (42 R150). -/
def drained {α : Type} (ts : α → Nat) (c : Nat) (q : List α) : List α :=
  match q with
  | [] => []
  | e :: rest => if ts e = c then rest else e :: rest

theorem mem_of_mem_drained {α : Type} {ts : α → Nat} {c : Nat} {q : List α} {e : α} (h : e ∈ drained ts c q) :
    e ∈ q := by
  cases q with
  | nil => exact h
  | cons x rest =>
    simp only [drained] at h
    split at h
    · exact List.mem_cons_of_mem _ h
    · exact h

theorem drained_of_due {α : Type} {ts : α → Nat} {c : Nat} {q rest : List α} {e : α} (hq : q = e :: rest)
    (h : ts e = c) : drained ts c q = rest := by
  subst hq
  exact if_pos h

theorem drained_of_not_due {α : Type} {ts : α → Nat} {c : Nat} {q : List α}
    (h : ∀ e rest, q = e :: rest → ts e ≠ c) : drained ts c q = q := by
  cases q with
  | nil => rfl
  | cons e rest => exact if_neg (h e rest rfl)

/-- A strictly sorted queue with no late entry stays so in the next cycle. -/
theorem drained_sorted {α : Type} {ts : α → Nat} {c : Nat} {q : List α} (hs : q.Pairwise (fun x y => ts x < ts y))
    (hc : ∀ e ∈ q, c ≤ ts e) :
    (drained ts c q).Pairwise (fun x y => ts x < ts y) ∧ (∀ e ∈ drained ts c q, c + 1 ≤ ts e) ∧
      ∀ e ∈ drained ts c q, e ∈ q :=
  drain_sorted ts hs hc (fun _ _ => drained_of_due) drained_of_not_due

/-- The pins' drain touches `dataPins` alone, a late head stopping it. -/
@[simp] theorem drainPins_phys (s : State) :
    (drainPins s).phys = { s.phys with dataPins := drained PinItem.ts s.cycle s.phys.dataPins } := by
  unfold drainPins drained
  cases hq : s.phys.dataPins with
  | nil => simp [← hq]
  | cons e rest =>
    dsimp only
    split_ifs with hlate hdue hdue
    · omega
    · simp [← hq]
    · simp
    · simp [← hq]

@[simp] theorem drainReadout_phys (s : State) :
    (drainReadout s).phys = { s.phys with readout := drained BurstItem.ts s.cycle s.phys.readout } := by
  unfold drainReadout drained
  cases hq : s.phys.readout with
  | nil => simp [← hq]
  | cons e rest =>
    dsimp only
    split_ifs with hlate hdue hdue
    · omega
    · simp [← hq]
    · simp
    · simp [← hq]

@[simp] theorem drainReadin_phys (s : State) :
    (drainReadin s).phys = { s.phys with readin := drained BurstItem.ts s.cycle s.phys.readin } := by
  unfold drainReadin drained
  cases hq : s.phys.readin with
  | nil => simp [← hq]
  | cons e rest =>
    dsimp only
    split_ifs with hlate hdue hdue
    · omega
    · simp [← hq]
    · simp
    · simp [← hq]

/-- A cycle ends with its number raised, or with the overflow fatal (60 R232). -/
theorem advanceCycle_of_ne {s : State} (h : s.cycle ≠ maxCycle) :
    advanceCycle s =
      ((s.setCycle (s.cycle + 1)).setPhase .betweenTicks).setPhys { s.phys with annot := none } :=
  if_neg h

theorem advanceCycle_of_eq {s : State} (h : s.cycle = maxCycle) :
    advanceCycle s = raiseFatal .engine .endOfTick .cycleOverflow 0 s :=
  if_pos h

theorem checkPublished_of_published {s : State} (h : s.sched.published = true) : checkPublished s = s :=
  if_pos h

theorem checkPublished_of_unpublished {s : State} (h : s.sched.published = false) :
    checkPublished s = raiseFatal .scheduler .endOfTick .publishMissing 0 s :=
  if_neg (Bool.eq_false_iff.1 h)

/-! ### The phases of a tick -/

theorem openTick_of_policyRunning {s : State} (h : s.phase = .policyRunning) : openTick s = s := by
  simp only [openTick, h]

theorem closeTick_of_betweenTicks {s : State} (h : s.phase = .betweenTicks) : closeTick s = s := by
  simp only [closeTick, h]

theorem openTick_starts {s : State} (h : s.phase = .betweenTicks) (hr : running s = true) :
    openTick s = startTick s := by
  simp only [openTick, h, whileRunning_running hr]

theorem closeTick_completes {s : State} (h : s.phase = .policyRunning) (hr : running s = true) :
    closeTick s = completeTick s := by
  simp only [closeTick, h, whileRunning_running hr]

/-- A tick opens in a running engine between ticks, and not otherwise. -/
theorem openTick_cases (s : State) :
    openTick s = s ∨ running s = true ∧ s.phase = .betweenTicks ∧ openTick s = startTick s := by
  cases hp : s.phase with
  | policyRunning => exact .inl (openTick_of_policyRunning hp)
  | betweenTicks =>
    by_cases hr : running s = true
    · exact .inr ⟨hr, rfl, openTick_starts hp hr⟩
    · exact .inl (by simp only [openTick, hp, whileRunning_stopped (Bool.eq_false_iff.2 hr)])

/-- A tick closes in a running engine whose policy runs, and not otherwise. -/
theorem closeTick_cases (s : State) :
    closeTick s = s ∨ running s = true ∧ s.phase = .policyRunning ∧ closeTick s = completeTick s := by
  cases hp : s.phase with
  | betweenTicks => exact .inl (closeTick_of_betweenTicks hp)
  | policyRunning =>
    by_cases hr : running s = true
    · exact .inr ⟨hr, rfl, closeTick_completes hp hr⟩
    · exact .inl (by simp only [closeTick, hp, whileRunning_stopped (Bool.eq_false_iff.2 hr)])

/-! ### Acceptance -/

/-- What the command on its way keeps of the state, acceptance of the tick keeps. -/
theorem acceptBus_keeps {I : State → Prop} {s : State} (hs : I s)
    (haccept : ∀ cmd, s.sched.cmdBus = some cmd → I (accept cmd s)) : I (acceptBus s) := by
  unfold acceptBus
  split
  · exact hs
  · exact haccept _ (by assumption)

theorem acceptDummy_openRow (k : BitVec 5) (s : State) : (acceptDummy k s).phys.openRow = s.phys.openRow := by
  unfold acceptDummy
  split <;> rfl

theorem acceptDummy_mem (k : BitVec 5) (s : State) : (acceptDummy k s).phys.mem = s.phys.mem := by
  unfold acceptDummy
  split <;> rfl

/-- Acceptance leaves `M` alone or is the commit of a command that `M` allows (42 R141, R114). -/
theorem accept_M {s : State} (hf : s.fatal.flag = false) (cmd : Command) :
    (accept cmd s).M = s.M ∨
      hasCommit cmd = true ∧ constraint s.cfg s.M s.cycle (bankOf cmd).toNat (kindOf cmd) = .none ∧
        (accept cmd s).M = commit s.cfg s.cycle cmd s.M := by
  rcases accept_cases hf cmd with
    ⟨v, d, e, _⟩ | ⟨k, rfl, e⟩ |
      ⟨hc, _, hk, ⟨e, _⟩ | ⟨b, r, rfl, e⟩ | ⟨b, c, ap, row, rfl, _, e⟩ | ⟨b, c, u, ap, row, rfl, _, e⟩ |
        ⟨b, rfl, e⟩⟩
  · exact .inl (by rw [e]; rfl)
  · exact .inl (by rw [e, acceptDummy_M])
  · exact .inl (by rw [e]; rfl)
  all_goals exact .inr ⟨hc, hk, by rw [e]; rfl⟩

/-- Acceptance leaves memory alone or is a masked write (42 R145). -/
theorem accept_mem {s : State} (hf : s.fatal.flag = false) (cmd : Command) :
    (accept cmd s).phys.mem = s.phys.mem ∨
      ∃ b r c slots, (accept cmd s).phys.mem = memWrite s.cfg.memInit s.phys.mem b r c slots := by
  rcases accept_cases hf cmd with
    ⟨v, d, e, _⟩ | ⟨k, rfl, e⟩ |
      ⟨_, _, _, ⟨e, _⟩ | ⟨b, r, rfl, e⟩ | ⟨b, c, ap, row, rfl, _, e⟩ | ⟨b, c, u, ap, row, rfl, _, e⟩ |
        ⟨b, rfl, e⟩⟩ <;> rw [e]
  case inr.inl => exact .inl (acceptDummy_mem k s)
  case inr.inr.inr.inr.inr.inl => exact .inr ⟨_, _, _, _, rfl⟩
  all_goals exact .inl rfl

theorem accept_openRow_length {s : State} (hf : s.fatal.flag = false) (cmd : Command) :
    (accept cmd s).phys.openRow.length = s.phys.openRow.length := by
  rcases accept_cases hf cmd with
    ⟨v, d, e, _⟩ | ⟨k, rfl, e⟩ |
      ⟨_, _, _, ⟨e, _⟩ | ⟨b, r, rfl, e⟩ | ⟨b, c, ap, row, rfl, _, e⟩ | ⟨b, c, u, ap, row, rfl, _, e⟩ |
        ⟨b, rfl, e⟩⟩ <;> rw [e]
  case inr.inl => rw [acceptDummy_openRow]
  case inr.inr.inr.inl => exact List.length_set ..
  all_goals rfl

/-- The fatals of acceptance: of its checks, or of an access to a bank with no row open (42 R141, 60 R233). -/
theorem accept_raises {s : State} (hf : s.fatal.flag = false) (cmd : Command) :
    (accept cmd s).fatal = s.fatal ∨
      (∃ v d, accept cmd s = withFatal .physical .accept v d s ∧ v ≠ .noActiveRow ∧ v ≠ .queueLate ∧
        (v = .unknownCommand ∨ v = .prechargeAllUnsupported ∨ hasCommit cmd = true ∧
          (operandFault s.cfg cmd ≠ none ∨ constraint s.cfg s.M s.cycle (bankOf cmd).toNat (kindOf cmd) ≠ .none))) ∨
      accept cmd s = withFatal .bank .access .noActiveRow (bankOf cmd).toNat s ∧ hasCommit cmd = true ∧
        operandFault s.cfg cmd = none ∧ constraint s.cfg s.M s.cycle (bankOf cmd).toNat (kindOf cmd) = .none ∧
        openRowAt s (bankOf cmd).toNat = none ∧ (kindOf cmd = .read ∨ kindOf cmd = .write) := by
  rcases accept_cases hf cmd with
    ⟨v, d, e, hcommit, hother, hrow, hlate⟩ | ⟨k, rfl, e⟩ |
      ⟨hc, ho, hk, ⟨e, hrow, hkind⟩ | ⟨b, r, rfl, e⟩ | ⟨b, c, ap, row, rfl, _, e⟩ |
        ⟨b, c, u, ap, row, rfl, _, e⟩ | ⟨b, rfl, e⟩⟩
  · refine .inr (.inl ⟨v, d, e, hrow, hlate, ?_⟩)
    cases hc : hasCommit cmd with
    | true => exact .inr (.inr ⟨rfl, hcommit hc⟩)
    | false => exact (hother hc).imp_right .inl
  · exact .inl (by rw [e, acceptDummy_fatal])
  · exact .inr (.inr ⟨e, hc, ho, hk, hrow, hkind⟩)
  all_goals exact .inl (by rw [e]; rfl)

theorem recordIn_live {Q : Component → Invariant → Prop} {s : State} (h : s.fatal.flag = false) : recordIn Q s := by
  intro hf
  simp [h] at hf

theorem recordIn_congr {Q : Component → Invariant → Prop} {s t : State} (h : t.fatal = s.fatal) (hs : recordIn Q s) :
    recordIn Q t := by
  unfold recordIn at *
  rwa [h]

/-! ### Reset -/

/-- The two things a reset can be (70 R250, R251, 60 R223). -/
theorem resetBundle_cases (b : Bundle) (s : State) :
    (∃ cfg, configure b = .ok cfg ∧ cfgValid cfg = true ∧ resetBundle b s = resetWith cfg s) ∨
      ∃ e, configure b = .error e ∧ resetBundle b s = resetInError e s := by
  unfold resetBundle
  cases hc : configure b with
  | ok cfg => exact .inl ⟨cfg, rfl, (configure_ok hc).1, rfl⟩
  | error e => exact .inr ⟨e, rfl, rfl⟩

/-- What a reset keeps: what does not look at the ports and holds at the reset values, of a legal configuration or of
the present one with the error recorded. -/
theorem resetBundle_keeps {I : State → Prop} (henv : ∀ s e, I s → I (s.setEnv e))
    (hboot : ∀ cfg, cfgValid cfg = true → I (State.boot cfg))
    (herror : ∀ s e, I s → I { State.boot s.cfg with configError := some e }) (s : State) (b : Bundle) (h : I s) :
    I (resetBundle b s) := by
  rcases resetBundle_cases b s with ⟨cfg, _, hv, e⟩ | ⟨err, _, e⟩ <;> rw [e]
  · exact henv _ _ (hboot cfg hv)
  · exact henv _ _ (herror s err h)

/-! ### What every step keeps -/

/-- The five things a step is made of keep a predicate on states. -/
structure KeptByStep (I : State → Prop) : Prop where
  env : ∀ s e, I s → I (s.setEnv e)
  reset : ∀ s b, I s → I (resetBundle b s)
  opens : ∀ s, I s → I (openTick s)
  closes : ∀ s, I s → I (closeTick s)
  exec : ∀ i s t, I s → (running s = true → s.phase = if isRaw i then .betweenTicks else .policyRunning) →
    exec i s = .next t → I t

namespace KeptByStep

variable {I : State → Prop} {s t : State}

theorem step (k : KeptByStep I) (hs : I s) (h : step s = .next t) : I t :=
  step_keeps k.env k.reset k.opens k.closes k.exec hs h

/-- Which fatals can be recorded, while an invariant holds: those of the operations, and those of a tick's end. -/
theorem record (k : KeptByStep I) {Q : Component → Invariant → Prop}
    (hend : ∀ s, running s = true → s.phase = .policyRunning → I s → recordIn Q (completeTick s))
    (hpolicy : ∀ c v, (c = .scheduler ∨ c = .predictive) →
      (v = .secondCommandInTick ∨ v = .outOfRange ∨ v = .burstLength ∨ v = .constraintViolated ∨ v = .publishTwice) →
      Q c v)
    (hraw : ∀ v, (v = .outOfRange ∨ v = .rawLength ∨ v = .rawOp) → Q .bank v) (hr : running s = true) (hs : I s)
    (h : Machine.step s = .next t) : recordIn Q t := by
  refine (step_keeps (I := fun s => I s ∧ recordIn Q s) (fun s e h => ⟨k.env s e h.1, h.2⟩) ?reset
    (fun s h => ⟨k.opens s h.1, recordIn_congr (openTick_fatal s) h.2⟩) ?closes
    (fun i s t h hp hx => ⟨k.exec i s t h.1 hp hx, recordIn_exec hpolicy hraw h.2 hp hx⟩)
    ⟨hs, recordIn_live ((running_iff s).1 hr).1⟩ h).2
  case reset =>
    intro s b h
    refine ⟨k.reset s b h.1, ?_⟩
    rcases resetBundle_cases b s with ⟨cfg, _, _, e⟩ | ⟨err, _, e⟩ <;> rw [e] <;> exact recordIn_live rfl
  case closes =>
    intro s h
    refine ⟨k.closes s h.1, ?_⟩
    rcases closeTick_cases s with e | ⟨hr, hp, e⟩ <;> rw [e]
    · exact h.2
    · exact hend s hr hp h.1

end KeptByStep

end Sys2Proof.Proofs.Parts

/-! Statements about every operation and every step: what `exec` runs, what it leaves alone, and what a step does with
the next item of the port (00_scope.md R12, 42_physical_module.md R156, 60_exceptions.md R220, R223). -/

namespace Sys2Proof.Proofs.Operations

open Sys2Proof.Machine Sys2Proof.Proofs.Parts

/-! ### What an operation does -/

/-- The action of an operation on an engine that performs it. -/
def action (i : Instr) (s : State) : State :=
  match i with
  | .active bank row => issue (.active bank row) s
  | .read bank col ap => issue (.read bank col ap) s
  | .write bank col burst ap => issue (.write bank col burst ap) s
  | .precharge bank => issue (.precharge bank) s
  | .prechargeAll => issueUnchecked .prechargeAll s
  | .dummy cons => issueUnchecked (.dummy cons) s
  | .illegalKind5 => issueUnchecked (.illegal 5) s
  | .illegalKind6 => issueUnchecked (.illegal 6) s
  | .illegalKind7 => issueUnchecked (.illegal 7) s
  | .constraintFor kind bank => query kind bank s
  | .readRaw bank row col nbytes => rawRead bank row col nbytes s
  | .writeRaw bank row col nbytes data => rawWrite bank row col nbytes data s
  | .preload bank row col nbytes data => rawWrite bank row col nbytes data s
  | .rawIllegalOp => raiseFatal .bank .raw .rawOp 3 s
  | .txnRead header => answerSplit header (splitReads s.cfg header) s
  | .txnWrite header hasMask data bmask => answerSplit header (splitWrites s.cfg header hasMask data bmask) s
  | .publishState state => publish state s

/-- A running engine performs every operation but a PUBLISH_STATE of another shape (30_encoding.md R84). -/
theorem exec_running {s : State} (hr : running s = true) {i : Instr}
    (hshape : ∀ state, i = .publishState state → state.length = sstElems s.cfg) :
    exec i s = .next (action i s) := by
  have live (f : State → State) : whileRunning f s = f s := whileRunning_running hr f
  cases i with
  | readRaw bank row col nbytes =>
    have hc : s.configError.isNone = true := by simp [((running_iff s).1 hr).2]
    exact congrArg Host.Outcome.next (if_pos hc)
  | publishState state =>
    exact (if_pos (hshape state rfl)).trans (congrArg Host.Outcome.next (live _))
  | _ => exact congrArg Host.Outcome.next (live _)

/-- An operation that is performed is its action, in a running engine or as a raw read, or has no effect. -/
theorem exec_cases {i : Instr} {s t : State} (h : exec i s = .next t) :
    t = s ∨ running s = true ∧ t = action i s ∨
      ∃ b r c n, i = .readRaw b r c n ∧ s.configError = none ∧ t = rawRead b r c n s := by
  have guarded (f : State → State) (hf : whileRunning f s = t) : t = s ∨ running s = true ∧ t = f s := by
    unfold whileRunning at hf
    split at hf
    · exact .inr ⟨by assumption, hf.symm⟩
    · exact .inl hf.symm
  have left {f : State → State} (hf : whileRunning f s = t) (he : f s = action i s) :
      t = s ∨ running s = true ∧ t = action i s ∨
        ∃ b r c n, i = .readRaw b r c n ∧ s.configError = none ∧ t = rawRead b r c n s :=
    (guarded f hf).imp_right fun hg => .inl (he ▸ hg)
  cases i with
  | readRaw bank row col nbytes =>
    have hf : whileConfigured (rawRead bank row col nbytes) s = t := by cases h; rfl
    unfold whileConfigured at hf
    split at hf
    · exact .inr (.inr ⟨_, _, _, _, rfl, by simp_all, hf.symm⟩)
    · exact .inl hf.symm
  | publishState state =>
    simp only [exec, execPublishState] at h
    split at h
    · exact left (by cases h; rfl) rfl
    · cases h
  | _ => exact left (by cases h; rfl) rfl

/-! ### What an operation leaves alone -/

@[simp] theorem action_cfg (i : Instr) (s : State) : (action i s).cfg = s.cfg := by
  cases i <;> simp [action]

@[simp] theorem action_configError (i : Instr) (s : State) : (action i s).configError = s.configError := by
  cases i <;> simp [action]

@[simp] theorem action_cycle (i : Instr) (s : State) : (action i s).cycle = s.cycle := by
  cases i <;> simp [action]

@[simp] theorem action_M (i : Instr) (s : State) : (action i s).M = s.M := by
  cases i <;> simp [action]

/-- No operation writes the module's state, but that a raw write stores in memory (42 R156, 43 R182). -/
theorem action_phys (i : Instr) (s : State) :
    (action i s).phys = { s.phys with mem := (action i s).phys.mem } := by
  have write (b : BitVec 16) (r c n : BitVec 32) (d : List Byte) :
      (rawWrite b r c n d s).phys = { s.phys with mem := (rawWrite b r c n d s).phys.mem } := by
    unfold rawWrite
    split
    · simp
    · rfl
  cases i with
  | writeRaw b r c n d => exact write b r c n d
  | preload b r c n d => exact write b r c n d
  | _ => simp [action]

/-- Every operation but a raw write leaves memory alone. -/
theorem action_mem {i : Instr} (s : State)
    (h : ∀ b r c n data, i ≠ .writeRaw b r c n data ∧ i ≠ .preload b r c n data) :
    (action i s).phys.mem = s.phys.mem := by
  cases i with
  | writeRaw b r c n d => exact absurd rfl (h b r c n d).1
  | preload b r c n d => exact absurd rfl (h b r c n d).2
  | _ => simp [action]

/-- What holds of the state and of the action's result holds after the operation. -/
theorem exec_of_action (Q : State → Prop) {i : Instr} {s t : State} (h : exec i s = .next t) (hs : Q s)
    (ha : Q (action i s)) : Q t := by
  rcases exec_cases h with rfl | ⟨_, rfl⟩ | ⟨b, r, c, n, rfl, _, rfl⟩
  · exact hs
  · exact ha
  · exact ha

theorem exec_cfg {i : Instr} {s t : State} (h : exec i s = .next t) : t.cfg = s.cfg :=
  exec_of_action (fun t => t.cfg = s.cfg) h rfl (action_cfg i s)

theorem exec_configError {i : Instr} {s t : State} (h : exec i s = .next t) : t.configError = s.configError :=
  exec_of_action (fun t => t.configError = s.configError) h rfl (action_configError i s)

theorem exec_cycle {i : Instr} {s t : State} (h : exec i s = .next t) : t.cycle = s.cycle :=
  exec_of_action (fun t => t.cycle = s.cycle) h rfl (action_cycle i s)

theorem exec_M {i : Instr} {s t : State} (h : exec i s = .next t) : t.M = s.M :=
  exec_of_action (fun t => t.M = s.M) h rfl (action_M i s)

theorem exec_phys {i : Instr} {s t : State} (h : exec i s = .next t) :
    t.phys = { s.phys with mem := t.phys.mem } :=
  exec_of_action (fun t => t.phys = { s.phys with mem := t.phys.mem }) h rfl (action_phys i s)

/-- A raw operation changes memory, its answer and the fatal with the outputs, and nothing else (43 R180). -/
theorem rawAction_frame {i : Instr} (h : isRaw i = true) (s : State) :
    action i s =
      { s with
        phys := { s.phys with mem := (action i s).phys.mem }, fatal := (action i s).fatal, out := (action i s).out
        env := { s.env with rawOut := (action i s).env.rawOut } } := by
  have raise (c : Component) (o : Operation) (v : Invariant) (d : Nat) :
      raiseFatal c o v d s =
        { s with
          phys := { s.phys with mem := (raiseFatal c o v d s).phys.mem }
          fatal := (raiseFatal c o v d s).fatal, out := (raiseFatal c o v d s).out
          env := { s.env with rawOut := (raiseFatal c o v d s).env.rawOut } } := by
    unfold raiseFatal
    split <;> rfl
  have write (b : BitVec 16) (r c n : BitVec 32) (d : List Byte) :
      rawWrite b r c n d s =
        { s with
          phys := { s.phys with mem := (rawWrite b r c n d s).phys.mem }
          fatal := (rawWrite b r c n d s).fatal, out := (rawWrite b r c n d s).out
          env := { s.env with rawOut := (rawWrite b r c n d s).env.rawOut } } := by
    unfold rawWrite
    split
    · exact raise ..
    · rfl
  cases i with
  | readRaw b r c n =>
    simp only [action, rawRead]
    split
    · exact raise ..
    · rfl
  | writeRaw b r c n d => exact write b r c n d
  | preload b r c n d => exact write b r c n d
  | rawIllegalOp => exact raise ..
  | _ => cases h

/-- Settles O57: `exec` has no effect or is the action, whose frame is that of the operation's kind. -/
theorem operationsKeepToTheirState : Obligations.OperationsKeepToTheirState := by
  intro i s t h
  refine ⟨fun hi => ⟨exec_M h, ?phys, exec_cycle h⟩, fun hi => ?raw, fun hi => ?mem⟩
  case phys =>
    refine exec_of_action (fun t => t.phys = s.phys) h rfl ?_
    rw [action_phys, action_mem s (by rintro b r c n d; constructor <;> rintro rfl <;> cases hi)]
  case raw =>
    exact exec_of_action
      (Q := fun t =>
        t =
          { s with
            phys := { s.phys with mem := t.phys.mem }, fatal := t.fatal, out := t.out
            env := { s.env with rawOut := t.env.rawOut } })
      h rfl (rawAction_frame hi s)
  case mem =>
    have hmem : t.phys.mem = s.phys.mem := exec_of_action (fun t => t.phys.mem = s.phys.mem) h rfl (action_mem s hi)
    intro a
    rw [State.byteAt, exec_cfg h, hmem, State.byteAt]

/-! ### The item on the port -/

section Port

variable {s : State} {w : PortWord} {rest : List PortItem}

theorem step_op (hp : s.env.port = .op w :: rest) {i : Instr} (hd : decode w = .ok i) :
    step s = exec i (prepare i (consume rest s)) := by
  simp only [step, fetch, hp, hd]

theorem step_undecodable (hp : s.env.port = .op w :: rest) {e : DecodeError} (hd : decode w = .error e) :
    step s = .refused (.portWord e) := by
  simp only [step, fetch, hp, hd]

theorem step_endTick (hp : s.env.port = .endTick :: rest) : step s = .next (finishTick (consume rest s)) := by
  simp only [step, fetch, hp]

theorem step_empty (hp : s.env.port = []) : step s = .next (finishTick (consume [] s)) := by
  simp only [step, fetch, hp]

theorem step_reset {b : Bundle} (hp : s.env.port = .reset b :: rest) :
    step s = .next (resetBundle b (consume rest s)) := by
  simp only [step, fetch, hp]

end Port

/-- Settles O5: a word's step by whether it decodes, and each phase of a tick by the phase the engine is in. -/
theorem stepRunsDecoded : Obligations.StepRunsDecoded := by
  intro s w rest hp s'
  refine ⟨fun i hd hi => ?raw, fun i hd hi => ?policy, fun e hd => step_undecodable hp hd,
    fun h => openTick_of_policyRunning h, fun h => closeTick_of_betweenTicks h, fun h hr => openTick_starts h hr,
    fun h hr => closeTick_completes h hr⟩
  case raw => exact (step_op hp hd).trans (congrArg (exec i) (if_pos hi))
  case policy => exact (step_op hp hd).trans (congrArg (exec i) (if_neg (Bool.eq_false_iff.1 hi)))

/-- Settles O6: a tick boundary and an empty port both finish a tick. -/
theorem stepAtTickBoundary : Obligations.StepAtTickBoundary := by
  rintro s rest (hp | ⟨hp, rfl⟩)
  · exact step_endTick hp
  · exact step_empty hp

/-! ### The configuration -/

@[simp] theorem openTick_cfg (s : State) : (openTick s).cfg = s.cfg :=
  openTick_keeps (I := fun t => t.cfg = s.cfg) (fun t _ _ h => (startTick_cfg t).trans h) rfl

@[simp] theorem openTick_configError (s : State) : (openTick s).configError = s.configError :=
  openTick_keeps (I := fun t => t.configError = s.configError) (fun t _ _ h => (startTick_configError t).trans h) rfl

@[simp] theorem completeTick_cfg (s : State) : (completeTick s).cfg = s.cfg := by
  simp [completeTick]

@[simp] theorem completeTick_configError (s : State) : (completeTick s).configError = s.configError := by
  simp [completeTick]

@[simp] theorem closeTick_cfg (s : State) : (closeTick s).cfg = s.cfg :=
  closeTick_keeps (I := fun t => t.cfg = s.cfg) (fun t _ _ h => (completeTick_cfg t).trans h) rfl

@[simp] theorem closeTick_configError (s : State) : (closeTick s).configError = s.configError :=
  closeTick_keeps (I := fun t => t.configError = s.configError)
    (fun t _ _ h => (completeTick_configError t).trans h) rfl

theorem prepare_cfg (i : Instr) (s : State) : (prepare i s).cfg = s.cfg := by
  unfold prepare
  split <;> simp

theorem prepare_configError (i : Instr) (s : State) : (prepare i s).configError = s.configError := by
  unfold prepare
  split <;> simp

/-- A step that is no reset runs a tick to its end, or an operation in its phase. -/
theorem step_cases_of_no_reset {s t : State} (hn : resetNext s = false) (h : step s = .next t) :
    (∃ rest, t = finishTick (consume rest s)) ∨
      ∃ i rest, exec i (prepare i (consume rest s)) = .next t := by
  rcases step_cases h with htick | ⟨b, rest, hr, _⟩ | ⟨w, i, rest, _, _, hx⟩
  · exact .inl htick
  · simp [hn] at hr
  · exact .inr ⟨i, rest, hx⟩

/-- Settles O58: neither the phases of a tick nor an operation writes the configuration. -/
theorem configurationIsFixed : Obligations.ConfigurationIsFixed := by
  intro s t hn h
  rcases step_cases_of_no_reset hn h with ⟨rest, rfl⟩ | ⟨i, rest, hx⟩
  · simp [finishTick, consume]
  · rw [exec_cfg hx, exec_configError hx, prepare_cfg, prepare_configError]
    exact ⟨rfl, rfl⟩

/-! ### A stopped engine -/

theorem not_running_iff (s : State) : running s = false ↔ s.fatal.flag = true ∨ s.configError ≠ none := by
  simp [← Bool.not_eq_true, running_iff, or_iff_not_imp_left]

theorem openTick_stopped {s : State} (h : running s = false) : openTick s = s := by
  unfold openTick
  split
  · rfl
  · exact whileRunning_stopped h _

theorem closeTick_stopped {s : State} (h : running s = false) : closeTick s = s := by
  unfold closeTick
  split
  · rfl
  · exact whileRunning_stopped h _

theorem prepare_stopped {s : State} (h : running s = false) (i : Instr) : prepare i s = s := by
  unfold prepare
  split
  · exact closeTick_stopped h
  · exact openTick_stopped h

/-- A stopped engine answers a raw read at most, and not without a configuration (43 R185, 60 R223). -/
theorem exec_stopped {i : Instr} {s t : State} (hr : running s = false) (h : exec i s = .next t) :
    t = s ∨ s.configError = none ∧ ∃ bytes, t = s.setEnv { s.env with rawOut := some bytes } := by
  rcases exec_cases h with rfl | ⟨hrun, _⟩ | ⟨b, r, c, n, _, hc, rfl⟩
  · exact .inl rfl
  · simp [hr] at hrun
  · have hf : s.fatal.flag = true := ((not_running_iff s).1 hr).resolve_right (not_not.2 hc)
    unfold rawRead
    split
    · exact .inl (raiseFatal_halted hf ..)
    · exact .inr ⟨hc, _, rfl⟩

/-- No operation sets a stopped engine going. -/
theorem running_of_exec {i : Instr} {s t : State} (h : exec i s = .next t) (hr : running t = true) :
    running s = true := by
  by_contra hs
  have hs : running s = false := Bool.eq_false_iff.2 hs
  rcases exec_stopped hs h with rfl | ⟨_, bytes, rfl⟩ <;> exact absurd hr (Bool.eq_false_iff.1 hs)

/-- Settles O56: no phase of a tick runs, and no operation but a raw read has an effect. -/
theorem onlyResetEndsAStop : Obligations.OnlyResetEndsAStop := by
  intro s t hstop hn h
  have hr (rest : List PortItem) : running (consume rest s) = false := (not_running_iff s).2 hstop
  rcases step_cases_of_no_reset hn h with ⟨rest, rfl⟩ | ⟨i, rest, hx⟩
  · rw [finishTick, openTick_stopped (hr rest), closeTick_stopped (hr rest)]
    exact ⟨rfl, rfl, rfl, rfl, fun _ => rfl⟩
  · rw [prepare_stopped (hr rest)] at hx
    rcases exec_stopped (hr rest) hx with rfl | ⟨hc, bytes, rfl⟩
    · exact ⟨rfl, rfl, rfl, rfl, fun _ => rfl⟩
    · exact ⟨rfl, rfl, rfl, rfl, fun hne => absurd hc hne⟩

end Sys2Proof.Proofs.Operations

/-! Two of the invariants of Safety.lean, the canonical memory and the sizes with a legal configuration
(10_state.md R21, R27, R34, R35): each holds at reset, and every step keeps it. -/

namespace Sys2Proof.Proofs.Invariants

open Sys2Proof.Machine Sys2Proof.Proofs.Parts Sys2Proof.Proofs.Operations

/-! ### The bank arrays -/

theorem memoryInv_boot (cfg : Cfg) : memoryInv (State.boot cfg) :=
  wf_nil _

theorem memoryInv_accept {s : State} (hf : s.fatal.flag = false) (cmd : Command) (h : memoryInv s) :
    memoryInv (accept cmd s) := by
  unfold memoryInv at *
  rw [accept_cfg]
  rcases accept_mem hf cmd with e | ⟨b, r, c, slots, e⟩ <;> rw [e]
  · exact h
  · exact memWrite_wf h _ _ _ _

theorem memoryInv_rawWrite (b : BitVec 16) (r c n : BitVec 32) (d : List Byte) {s : State} (h : memoryInv s) :
    memoryInv (rawWrite b r c n d s) := by
  unfold rawWrite
  split
  · simpa [memoryInv] using h
  · exact memStore_wf h _ _ _ _

theorem memoryInv_action (i : Instr) {s : State} (h : memoryInv s) : memoryInv (action i s) := by
  cases i with
  | writeRaw b r c n d => exact memoryInv_rawWrite b r c n d h
  | preload b r c n d => exact memoryInv_rawWrite b r c n d h
  | _ => simpa [memoryInv, action] using h

theorem memoryInv_completeTick {s : State} (hr : running s = true) (h : memoryInv s) : memoryInv (completeTick s) := by
  refine completeTick_keeps (fun _ h => h) (fun cmd s hf _ h => memoryInv_accept hf cmd h) ?pins ?readout ?readin
    (fun _ h => h) ?check ?advance ((running_iff s).1 hr).1 h
  case advance =>
    intro s _ h
    unfold advanceCycle
    split <;> simpa [memoryInv] using h
  all_goals
    intro s _ h
    simpa [memoryInv] using h

theorem memoryInv_kept : KeptByStep memoryInv where
  env _ _ h := h
  reset := resetBundle_keeps (fun _ _ h => h) (fun cfg _ => memoryInv_boot cfg) fun s _ _ => memoryInv_boot s.cfg
  opens _ := openTick_keeps fun s _ _ h => by simpa [memoryInv] using h
  closes _ := closeTick_keeps fun _ hr _ h => memoryInv_completeTick hr h
  exec i _ _ h _ hx := exec_of_action _ hx h (memoryInv_action i h)

/-- Settles O47: acceptance and raw writes store words, and everything else leaves memory alone. -/
theorem stepKeepsMemoryCanonical : Obligations.StepKeepsMemoryCanonical := fun _ _ => memoryInv_kept.step

/-! ### Sizes and the configuration -/

theorem shapeInv_boot {cfg : Cfg} (h : cfgValid cfg = true) : shapeInv (State.boot cfg) := by
  simpa [shapeInv, State.boot, Timing.reset] using h

theorem shapeInv_startTick {s : State} (h : shapeInv s) : shapeInv (startTick s) := by
  obtain ⟨hv, hP, hM, hrow, hlast, hout, _⟩ := h
  unfold shapeInv
  rw [startTick_sched]
  simp_all

theorem shapeInv_accept {s : State} (hf : s.fatal.flag = false) (cmd : Command) (h : shapeInv s) :
    shapeInv (accept cmd s) := by
  obtain ⟨hv, hP, hM, hrow, hrest⟩ := h
  have hlen : (accept cmd s).M.banks.length = s.M.banks.length := by
    rcases accept_M hf cmd with e | ⟨_, _, e⟩ <;> simp [e]
  unfold shapeInv
  rw [accept_cfg, accept_P, accept_sched, accept_openRow_length hf, hlen]
  exact ⟨hv, hP, hM, hrow, hrest⟩

theorem shapeInv_completeTick {s : State} (hr : running s = true) (h : shapeInv s) : shapeInv (completeTick s) := by
  refine completeTick_keeps (fun _ h => h) (fun cmd s hf _ h => shapeInv_accept hf cmd h) ?pins ?readout ?readin
    ?outputs ?check ?advance ((running_iff s).1 hr).1 h
  case outputs =>
    rintro s ⟨hv, hP, hM, hrow, hlast, hout, hpend⟩
    refine ⟨hv, hP, hM, hrow, hlast, ?_, hpend⟩
    simp only [schedulerOutputs, State.setOut_sched, State.setSched_sched, State.setOut_cfg, State.setSched_cfg]
    split
    · exact hpend (by assumption)
    · exact hout
  case advance =>
    intro s _ h
    unfold advanceCycle
    split <;> simpa [shapeInv] using h
  all_goals
    intro s _ h
    simpa [shapeInv] using h

theorem shapeInv_issue (cmd : Command) {s : State} (hr : running s = true) (h : shapeInv s) :
    shapeInv (issue cmd s) := by
  rcases issue_cases ((running_iff s).1 hr).1 cmd with ⟨c, o, v, d, e, _⟩ | ⟨_, _, _, e⟩ <;> rw [e]
  · exact h
  · simpa [shapeInv, sendCommand, noteCommand] using h

theorem shapeInv_issueUnchecked (cmd : Command) {s : State} (hr : running s = true) (h : shapeInv s) :
    shapeInv (issueUnchecked cmd s) := by
  rcases issueUnchecked_cases ((running_iff s).1 hr).1 cmd with ⟨d, e⟩ | ⟨_, e⟩ <;> rw [e] <;> exact h

/-- A raise leaves every array as it was. -/
theorem shapeInv_raise {c : Component} {o : Operation} {v : Invariant} {d : Nat} {s : State} (h : shapeInv s) :
    shapeInv (raiseFatal c o v d s) := by
  simpa [shapeInv] using h

theorem shapeInv_query (k : BitVec 3) (b : BitVec 16) {s : State} (h : shapeInv s) : shapeInv (query k b s) := by
  unfold query
  split
  · exact shapeInv_raise h
  · exact h

theorem shapeInv_publish {x : List Admit} {s : State} (hx : x.length = sstElems s.cfg) (h : shapeInv s) :
    shapeInv (publish x s) := by
  unfold publish
  split
  · exact shapeInv_raise h
  · obtain ⟨hv, hP, hM, hrow, hlast, hout, _⟩ := h
    exact ⟨hv, hP, hM, hrow, hlast, hout, fun _ => hx⟩

theorem shapeInv_rawWrite (b : BitVec 16) (r c n : BitVec 32) (d : List Byte) {s : State} (h : shapeInv s) :
    shapeInv (rawWrite b r c n d s) := by
  unfold rawWrite
  split
  · exact shapeInv_raise h
  · exact h

theorem shapeInv_exec {i : Instr} {s t : State} (h : shapeInv s)
    (hphase : running s = true → s.phase = if isRaw i then .betweenTicks else .policyRunning)
    (hx : exec i s = .next t) : shapeInv t := by
  refine exec_keeps (I := shapeInv) (fun cmd s hr _ h => shapeInv_issue cmd hr h)
    (fun cmd s _ hr _ h => shapeInv_issueUnchecked cmd hr h) (fun k b s _ h => shapeInv_query k b h) ?split
    (fun x s _ hx h => shapeInv_publish hx h) ?read (fun b r c n d s _ h => shapeInv_rawWrite b r c n d h)
    (fun s _ h => shapeInv_raise h) h hphase hx
  all_goals
    intros
    simpa [shapeInv]

theorem shapeInv_kept : KeptByStep shapeInv where
  env _ _ h := h
  reset := resetBundle_keeps (fun _ _ h => h) (fun _ hv => shapeInv_boot hv) fun _ _ h => shapeInv_boot h.1
  opens _ := openTick_keeps fun _ _ _ h => shapeInv_startTick h
  closes _ := closeTick_keeps fun _ hr _ h => shapeInv_completeTick hr h
  exec _ _ _ := shapeInv_exec

/-- Settles O48: bank records and markers are updated in place, and the two admission values have the fixed length. -/
theorem stepKeepsShape : Obligations.StepKeepsShape := fun _ _ => shapeInv_kept.step

end Sys2Proof.Proofs.Invariants

/-! Invariants of the two timing states: the bank diagram, the mirror, the row markers and the flags
(10_state.md R26, 41_bank_state_machine.md R120, R135, 42_physical_module.md R142, R155). -/

namespace Sys2Proof.Proofs.TimingInvariants

open Sys2Proof.Machine Sys2Proof.Proofs.Parts Sys2Proof.Proofs.Operations Sys2Proof.Proofs.Invariants

/-! ### The bank diagram -/

theorem completeTick_M (s : State) : (completeTick s).M = (acceptBus (policyReturns s)).M :=
  phaseS4_M _

/-- With no command on its way a tick's end leaves `M` alone. -/
theorem completeTick_M_of_no_command {s : State} (h : s.sched.cmdBus = none) : (completeTick s).M = s.M := by
  rw [completeTick_M, acceptBus_policyReturns, acceptBus, h]
  rfl

theorem edge_openTick (s : State) (b : Nat) :
    edge (bankAt s.M b).status (bankAt (openTick s).M b).status = true := by
  rcases openTick_cases s with e | ⟨_, _, e⟩ <;> rw [e]
  · exact edge_refl _
  · rw [startTick_M, bankAt_passive]
    exact edge_passiveBank ..

theorem edge_closeTick (s : State) (b : Nat) :
    edge (bankAt s.M b).status (bankAt (closeTick s).M b).status = true := by
  rcases closeTick_cases s with e | ⟨hr, _, e⟩ <;> rw [e]
  · exact edge_refl _
  · rw [completeTick_M]
    refine acceptBus_keeps (I := fun t => edge (bankAt s.M b).status (bankAt t.M b).status = true) (edge_refl _)
      fun cmd _ => ?_
    have hf : (policyReturns s).fatal.flag = false := ((running_iff s).1 hr).1
    rcases accept_M hf cmd with e | ⟨hc, hk, e⟩ <;> rw [e]
    · exact edge_refl _
    · exact edge_commit hc hk b

theorem startTick_cmdBus (s : State) : (startTick s).sched.cmdBus = none := by
  rw [startTick_sched]

/-- A tick that opens and closes in one step has no command, so its one edge is the passive one. -/
theorem edge_finishTick (s : State) (b : Nat) :
    edge (bankAt s.M b).status (bankAt (finishTick s).M b).status = true := by
  rw [finishTick]
  rcases openTick_cases s with e | ⟨_, _, e⟩
  · rw [e]
    exact edge_closeTick s b
  · have hM : (closeTick (startTick s)).M = (startTick s).M := by
      rcases closeTick_cases (startTick s) with e | ⟨_, _, e⟩ <;> rw [e]
      exact completeTick_M_of_no_command (startTick_cmdBus s)
    rw [e, hM, ← e]
    exact edge_openTick s b

theorem edge_prepare (i : Instr) (s : State) (b : Nat) :
    edge (bankAt s.M b).status (bankAt (prepare i s).M b).status = true := by
  unfold prepare
  split
  · exact edge_closeTick s b
  · exact edge_openTick s b

/-- Settles O13: a step runs the passive transitions, or one commit that `M` allows, and no operation writes `M`. -/
theorem banksFollowTheDiagram : Obligations.BanksFollowTheDiagram := by
  intro s t hn h b
  rcases step_cases_of_no_reset hn h with ⟨rest, rfl⟩ | ⟨i, rest, hx⟩
  · exact edge_finishTick (consume rest s) b
  · rw [exec_M hx]
    exact edge_prepare i (consume rest s) b

/-! ### The mirror -/

theorem mirrorInv_boot (cfg : Cfg) : mirrorInv (State.boot cfg) := fun _ => rfl

theorem mirrorInv_stopped {s : State} (h : running s = false) : mirrorInv s := by
  intro hr
  simp [h] at hr

theorem mirrorInv_raise {c : Component} {o : Operation} {v : Invariant} {d : Nat} {s : State} :
    mirrorInv (raiseFatal c o v d s) :=
  mirrorInv_stopped (by simp [running])

theorem mirrorInv_withFatal {c : Component} {o : Operation} {v : Invariant} {d : Nat} {s : State} :
    mirrorInv (withFatal c o v d s) :=
  mirrorInv_stopped rfl

theorem mirrorInv_between_iff {s : State} (hp : s.phase = .betweenTicks) :
    mirrorInv s ↔ (running s = true → s.P = s.M) := by
  simp only [mirrorInv, hp]

theorem mirrorInv_of_no_command {s : State} (hp : s.phase = .policyRunning) (hb : s.sched.cmdBus = none)
    (h : s.P = s.M) : mirrorInv s := by
  intro _
  simp only [hp, hb, h]

theorem mirrorInv_of_command {s : State} {cmd : Command} (hp : s.phase = .policyRunning)
    (hb : s.sched.cmdBus = some cmd) (h : busInv s cmd) : mirrorInv s := by
  intro _
  simp only [hp, hb, h]

theorem busInv_of_mirrorInv {s : State} {cmd : Command} (h : mirrorInv s) (hr : running s = true)
    (hp : s.phase = .policyRunning) (hb : s.sched.cmdBus = some cmd) : busInv s cmd := by
  have hm := h hr
  simpa only [hp, hb] using hm

/-- Before the tick's command is issued the copies are equal. -/
theorem mirrors_of_not_issued {s : State} (h : mirrorInv s) (hr : running s = true) (hp : s.phase = .policyRunning)
    (hi : s.sched.issued = false) : s.P = s.M := by
  cases hb : s.sched.cmdBus with
  | none =>
    have hm := h hr
    simpa only [hp, hb] using hm
  | some cmd =>
    obtain ⟨hissued, _⟩ := busInv_of_mirrorInv h hr hp hb
    simp [hi] at hissued

theorem mirrorInv_openTick {s : State} (h : mirrorInv s) : mirrorInv (openTick s) := by
  rcases openTick_cases s with e | ⟨hr, hp, e⟩ <;> rw [e]
  · exact h
  · have heq : s.P = s.M := (mirrorInv_between_iff hp).1 h hr
    exact mirrorInv_of_no_command (startTick_phase s) (startTick_cmdBus s) (by rw [startTick_P, startTick_M, heq])

theorem completeTick_P (s : State) : (completeTick s).P = s.P := by
  simp [completeTick]

theorem mirrorInv_closeTick {s : State} (h : mirrorInv s) : mirrorInv (closeTick s) := by
  intro hrun
  have hphase := closeTick_phase hrun
  refine (mirrorInv_between_iff hphase).2 (fun _ => ?_) hrun
  rcases closeTick_cases s with e | ⟨hr, hp, e⟩
  · rw [e] at hphase hrun ⊢
    exact (mirrorInv_between_iff hphase).1 h hrun
  · rw [e] at hrun ⊢
    obtain ⟨ha, _⟩ := completeTick_live ((running_iff _).1 hrun).1
    rw [completeTick_M, completeTick_P, acceptBus_mirrors hr hp h ha]

theorem mirrorInv_issue (cmd : Command) {s : State} (hr : running s = true) (hp : s.phase = .policyRunning)
    (h : mirrorInv s) : mirrorInv (issue cmd s) := by
  rcases issue_cases ((running_iff s).1 hr).1 cmd with ⟨c, o, v, d, e, _⟩ | ⟨hi, ho, hc, e⟩ <;> rw [e]
  · exact mirrorInv_withFatal
  · have heq := mirrors_of_not_issued h hr hp hi
    obtain ⟨_, hk⟩ := (commitFault_none_iff ..).1 hc
    exact mirrorInv_of_command (cmd := cmd) hp rfl
      ⟨rfl, congrArg (commit s.cfg s.cycle cmd) heq, fun _ => ⟨ho, heq ▸ hk⟩⟩

theorem mirrorInv_issueUnchecked {cmd : Command} (hc : hasCommit cmd = false) {s : State} (hr : running s = true)
    (hp : s.phase = .policyRunning) (h : mirrorInv s) : mirrorInv (issueUnchecked cmd s) := by
  rcases issueUnchecked_cases ((running_iff s).1 hr).1 cmd with ⟨d, e⟩ | ⟨hi, e⟩ <;> rw [e]
  · exact mirrorInv_withFatal
  · have heq := mirrors_of_not_issued h hr hp hi
    have hcommit := commit_of_not_hasCommit hc s.cfg s.cycle s.M
    exact mirrorInv_of_command (cmd := cmd) hp rfl ⟨rfl, heq.trans hcommit.symm, fun hc' => by simp [hc] at hc'⟩

theorem mirrorInv_exec {i : Instr} {s t : State} (h : mirrorInv s)
    (hphase : running s = true → s.phase = if isRaw i then .betweenTicks else .policyRunning)
    (hx : exec i s = .next t) : mirrorInv t := by
  refine exec_keeps (I := mirrorInv) (fun cmd s => mirrorInv_issue cmd) (fun cmd s hc => mirrorInv_issueUnchecked hc)
    ?query ?split ?publish ?read ?write (fun s _ _ => mirrorInv_raise) h hphase hx
  case query => intro k b s _ h; unfold query; split <;> [exact mirrorInv_raise; exact h]
  case split => intro hd cs s _ h; unfold answerSplit; split <;> [exact mirrorInv_raise; exact h]
  case publish => intro x s _ _ h; unfold publish; split <;> [exact mirrorInv_raise; exact h]
  case read => intro b r c n s h; unfold rawRead; split <;> [exact mirrorInv_raise; exact h]
  case write => intro b r c n d s _ h; unfold rawWrite; split <;> [exact mirrorInv_raise; exact h]

theorem mirrorInv_kept : KeptByStep mirrorInv where
  env _ _ h := h
  reset := resetBundle_keeps (fun _ _ h => h) (fun cfg _ => mirrorInv_boot cfg) fun _ _ _ => mirrorInv_stopped rfl
  opens _ := mirrorInv_openTick
  closes _ := mirrorInv_closeTick
  exec _ _ _ := mirrorInv_exec

/-- Settles O49: both copies take the same passive transitions, and `M` the commit that `P` took in the tick. -/
theorem stepKeepsMirror : Obligations.StepKeepsMirror := fun _ _ => mirrorInv_kept.step

/-! ### The checks an issue helper has made -/

/-- The fatals of acceptance that an issue helper's own checks rule out (42 R142). -/
def issueCheck (c : Component) (v : Invariant) : Prop :=
  c = .physical ∧ (v = .constraintViolated ∨ v = .outOfRange ∨ v = .burstLength)

/-- The module raises none of them for a command that `P` has committed. -/
theorem noIssueCheck_completeTick {s : State} (hr : running s = true) (hp : s.phase = .policyRunning)
    (hm : mirrorInv s) : recordIn (fun c v => ¬ issueCheck c v) (completeTick s) := by
  have hf : (policyReturns s).fatal.flag = false := ((running_iff s).1 hr).1
  refine recordIn_phaseS4 (by simp [issueCheck]) (by simp [issueCheck]) (by simp [issueCheck]) ?_
  refine acceptBus_keeps (I := recordIn fun c v => ¬ issueCheck c v) (recordIn_live hf) fun cmd hb => ?_
  obtain ⟨_, _, hchecks⟩ := busInv_of_mirrorInv hm hr hp hb
  rcases accept_raises hf cmd with e | ⟨v, d, e, _, _, rfl | rfl | ⟨hc, hfails⟩⟩ | ⟨e, _⟩
  · exact recordIn_congr e (recordIn_live hf)
  · exact e ▸ recordIn_withFatal (by simp [issueCheck])
  · exact e ▸ recordIn_withFatal (by simp [issueCheck])
  · obtain ⟨ho, hk⟩ := hchecks hc
    exact (hfails.elim (· ho) (· hk)).elim
  · exact e ▸ recordIn_withFatal (by simp [issueCheck])

/-- Settles O50: beside the mirror, the record of a fatal is never one of an issue helper's checks. -/
theorem moduleNeverRaisesIssueChecks : Obligations.ModuleNeverRaisesIssueChecks := fun _ _ hm hr h =>
  mirrorInv_kept.record (fun _ => noIssueCheck_completeTick)
    (by rintro c v (rfl | rfl) _ <;> simp [issueCheck]) (by simp [issueCheck]) hr hm h

/-! ### The row markers -/

theorem rowInv_boot (cfg : Cfg) : rowInv (State.boot cfg) := by
  intro b hb
  have hb : b < cfg.NB := hb
  simp [openRowAt, bankAt, State.boot, Timing.reset, List.getD, hb, BankRec.reset]

theorem bank_lt_of_operandFault {cfg : Cfg} {cmd : Command} (hc : hasCommit cmd = true)
    (h : operandFault cfg cmd = none) : (bankOf cmd).toNat < cfg.NB := by
  cases cmd with
  | active b r => exact ((operandFault_active_none_iff ..).1 h).1
  | read b c ap => exact ((operandFault_read_none_iff ..).1 h).1
  | write b c u ap => exact ((operandFault_write_none_iff ..).1 h).1
  | precharge b => exact (operandFault_precharge_none_iff ..).1 h
  | prechargeAll => cases hc
  | dummy k => cases hc
  | illegal k => cases hc

/-- A Read or Write that the constraints allow finds its bank with a row open (40 R103, R105). -/
theorem not_idle_of_access {cfg : Cfg} {T : Timing} {c b : Nat} {kind : CmdKind} (hkind : kind = .read ∨ kind = .write)
    (h : constraint cfg T c b kind = .none) : (bankAt T b).status ≠ .idle := by
  have hopen : (bankAt T b).status = .active ∨ (bankAt T b).status = .reading ∨ (bankAt T b).status = .writing := by
    rcases hkind with rfl | rfl
    · obtain ⟨_, _, ho, _⟩ := constraintRead_none h
      exact ho
    · obtain ⟨_, _, ho, _⟩ := constraintWrite_none h
      exact ho
  rcases hopen with h | h | h <;> simp [h]

theorem rowInv_congr {s t : State} (hcfg : t.cfg = s.cfg) (hM : t.M = s.M) (hrow : t.phys.openRow = s.phys.openRow)
    (h : rowInv s) : rowInv t := by
  unfold rowInv openRowAt at *
  rwa [hcfg, hM, hrow]

theorem rowInv_completeTick {s : State} (hr : running s = true) (hs : shapeInv s) (h : rowInv s) :
    rowInv (completeTick s) := by
  have ha : rowInv (acceptBus (policyReturns s)) :=
    acceptBus_keeps h fun cmd _ => rowInv_accept (s := policyReturns s) hs h ((running_iff s).1 hr).1 cmd
  exact rowInv_congr (phaseS4_cfg _) (phaseS4_M _) (phaseS4_openRow _) ha

theorem rowInv_exec {i : Instr} {s t : State} (h : rowInv s) (hx : exec i s = .next t) : rowInv t :=
  rowInv_congr (exec_cfg hx) (exec_M hx) (by rw [exec_phys hx]) h

/-- No access finds its bank without a row (60 R237). -/
theorem rowOpen_completeTick {s : State} (hr : running s = true) (h : rowInv s) :
    recordIn (fun _ v => v ≠ .noActiveRow) (completeTick s) := by
  have hf : (policyReturns s).fatal.flag = false := ((running_iff s).1 hr).1
  refine recordIn_phaseS4 (by simp) (by simp) (by simp) ?_
  refine acceptBus_keeps (recordIn_live hf) fun cmd hb => ?_
  rcases accept_raises hf cmd with e | ⟨v, d, e, hv, _⟩ | ⟨_, hc, ho, hk, hnone, hkind⟩
  · exact recordIn_congr e (recordIn_live hf)
  · exact e ▸ recordIn_withFatal hv
  · exact absurd ((h _ (bank_lt_of_operandFault hc ho)).1 hnone) (not_idle_of_access hkind hk)

theorem rowInv_kept : KeptByStep fun s => shapeInv s ∧ rowInv s where
  env _ _ h := h
  reset :=
    resetBundle_keeps (fun _ _ h => h) (fun cfg hv => ⟨shapeInv_boot hv, rowInv_boot cfg⟩)
      fun s _ h => ⟨shapeInv_boot h.1.1, rowInv_boot s.cfg⟩
  opens _ h := ⟨shapeInv_kept.opens _ h.1, openTick_keeps (I := rowInv) (fun _ _ _ => rowInv_startTick) h.2⟩
  closes _ :=
    closeTick_keeps (I := fun s => shapeInv s ∧ rowInv s) fun _ hr _ h =>
      ⟨shapeInv_completeTick hr h.1, rowInv_completeTick hr h.1 h.2⟩
  exec _ _ _ h hp hx := ⟨shapeInv_exec h.1 hp hx, rowInv_exec h.2 hx⟩

/-- Settles O51: the markers stay beside the banks, so that no accepted access meets a closed row. -/
theorem stepKeepsRowMarkers : Obligations.StepKeepsRowMarkers := fun _ _ hs hrow h =>
  ⟨(rowInv_kept.step ⟨hs, hrow⟩ h).2,
    fun hr =>
      rowInv_kept.record (fun _ hr _ h => rowOpen_completeTick hr h.2)
        (by rintro c v _ (rfl | rfl | rfl | rfl | rfl) <;> simp) (by simp) hr ⟨hs, hrow⟩ h⟩

/-! ### The autoprecharge flags -/

theorem flagInv_reset (n : Nat) : flagInv (Timing.reset n) := by
  intro r hr ha
  obtain ⟨_, rfl⟩ := List.mem_replicate.1 hr
  cases ha

theorem flagInv_completeTick {s : State} (hr : running s = true) (h : flagInv s.M) : flagInv (completeTick s).M := by
  rw [completeTick_M]
  refine acceptBus_keeps (I := fun s => flagInv s.M) h fun cmd _ => ?_
  rcases accept_M (s := policyReturns s) ((running_iff s).1 hr).1 cmd with e | ⟨_, _, e⟩ <;> rw [e]
  · exact h
  · exact flagInv_commit h

theorem flagInv_issue (cmd : Command) {s : State} (hr : running s = true) (h : flagInv s.P) :
    flagInv (issue cmd s).P := by
  rcases issue_cases ((running_iff s).1 hr).1 cmd with ⟨c, o, v, d, e, _⟩ | ⟨_, _, _, e⟩ <;> rw [e]
  · exact h
  · exact flagInv_commit h

theorem flagInv_exec {i : Instr} {s t : State} (h : flagInv s.P)
    (hphase : running s = true → s.phase = if isRaw i then .betweenTicks else .policyRunning)
    (hx : exec i s = .next t) : flagInv t.P := by
  refine exec_keeps (I := fun s => flagInv s.P) (fun cmd s hr _ => flagInv_issue cmd hr) ?_ ?_ ?_ ?_ ?_ ?_ ?_
    h hphase hx
  all_goals
    intros
    simpa

theorem flagInv_kept : KeptByStep fun s => flagInv s.P ∧ flagInv s.M where
  env _ _ h := h
  reset :=
    resetBundle_keeps (fun _ _ h => h) (fun _ _ => ⟨flagInv_reset _, flagInv_reset _⟩)
      fun _ _ _ => ⟨flagInv_reset _, flagInv_reset _⟩
  opens _ :=
    openTick_keeps (I := fun s => flagInv s.P ∧ flagInv s.M) fun s _ _ h => by
      rw [startTick_P, startTick_M]
      exact ⟨flagInv_passive h.1, flagInv_passive h.2⟩
  closes _ :=
    closeTick_keeps (I := fun s => flagInv s.P ∧ flagInv s.M) fun s hr _ h =>
      ⟨(completeTick_P s).symm ▸ h.1, flagInv_completeTick hr h.2⟩
  exec _ _ _ h hp hx := ⟨flagInv_exec h.1 hp hx, (exec_M hx).symm ▸ h.2⟩

/-- Settles O52: passive transitions and commits keep the flags, and nothing else writes a timing state. -/
theorem stepKeepsFlags : Obligations.StepKeepsFlags := fun _ _ hP hM => flagInv_kept.step ⟨hP, hM⟩

end Sys2Proof.Proofs.TimingInvariants

/-! Invariants of the module's queues and outputs: bus order, widths of cycle numbers, annotations and the outputs of a
halted engine (42_physical_module.md R148 to R153, 60_exceptions.md R220, R232). -/

namespace Sys2Proof.Proofs.QueueInvariants

open Sys2Proof.Machine Sys2Proof.Proofs.Parts Sys2Proof.Proofs.Operations Sys2Proof.Proofs.Invariants
open Sys2Proof.Proofs.TimingInvariants

/-! ### The end of a tick that no fatal stopped -/

/-- The module's state after a tick that no fatal stopped. -/
theorem completeTick_phys_of_live {s : State} (h : (completeTick s).fatal.flag = false) :
    let a := acceptBus (policyReturns s)
    (completeTick s).phys =
      { a.phys with
        dataPins := drained PinItem.ts s.cycle a.phys.dataPins
        readout := drained BurstItem.ts s.cycle a.phys.readout
        readin := drained BurstItem.ts s.cycle a.phys.readin
        annot := none } := by
  obtain ⟨_, _, _, _, _, hc, e⟩ := completeTick_live h
  rw [e, advanceCycle_of_ne (by simpa using hc)]
  simp

theorem completeTick_cycle_of_live {s : State} (h : (completeTick s).fatal.flag = false) :
    (completeTick s).cycle = s.cycle + 1 := by
  obtain ⟨_, _, _, _, _, hc, e⟩ := completeTick_live h
  rw [e, advanceCycle_of_ne (by simpa using hc)]
  simp

/-! ### The order of the bus -/

theorem queueInv_boot (cfg : Cfg) : queueInv (State.boot cfg) := by
  simp [queueInv, State.boot]

theorem lastWriteInv_boot (cfg : Cfg) : lastWriteInv (State.boot cfg) := by
  simp [lastWriteInv, State.boot, Timing.reset, BankRec.reset, Stamp.reset]

theorem passiveReading_status_ne (cfg : Cfg) (r : BankRec) : (passiveReading cfg r).status ≠ .writing := by
  unfold passiveReading
  split_ifs <;> simp

theorem passiveWriting_status_ne (cfg : Cfg) (r : BankRec) : (passiveWriting cfg r).status ≠ .writing := by
  unfold passiveWriting
  split_ifs <;> simp

/-- No passive transition enters `Writing` (41 R129 to R132). -/
theorem passiveBank_of_writing {cfg : Cfg} {c : Nat} {r : BankRec} (h : (passiveBank cfg c r).status = .writing) :
    passiveBank cfg c r = r := by
  rcases Nat.lt_or_ge c r.endCycle with hlt | hdue
  · exact Banks.passiveBank_of_lt hlt
  cases hs : r.status with
  | idle => exact Banks.passiveBank_of_stable (.inl hs)
  | active => exact Banks.passiveBank_of_stable (.inr hs)
  | activating => simp [Banks.passiveBank_activating hs hdue] at h
  | reading => exact absurd (Banks.passiveBank_reading hs hdue ▸ h) (passiveReading_status_ne _ _)
  | writing => exact absurd (Banks.passiveBank_writing hs hdue ▸ h) (passiveWriting_status_ne _ _)
  | precharging => simp [Banks.passiveBank_precharging hs hdue] at h

/-- The last write's bank outlives the passive transitions of a tick before its end (42 R153). -/
theorem lastWriteInv_startTick {s : State} (h : lastWriteInv s) : lastWriteInv (startTick s) := by
  obtain ⟨hend, hlast⟩ := h
  rw [lastWriteInv, startTick_M, startTick_cycle]
  simp only [passive, List.forall_mem_map]
  refine ⟨fun r hr hw => ?_, fun hc => ?_⟩
  · have hstay : passiveBank s.cfg s.cycle r = r := passiveBank_of_writing hw
    rw [hstay] at hw ⊢
    exact hend r hr hw
  · obtain ⟨r, hr, hw, he⟩ := hlast hc
    have hstay : passiveBank s.cfg s.cycle r = r := Banks.passiveBank_of_lt (he ▸ hc)
    exact ⟨r, List.mem_map.2 ⟨r, hr, hstay⟩, hw, he⟩

theorem queueInv_startTick {s : State} (h : queueInv s) : queueInv (startTick s) := by
  simpa [queueInv] using h

theorem lastWriteInv_next {s t : State} (hM : t.M = s.M) (hc : t.cycle = s.cycle + 1) (h : lastWriteInv s) :
    lastWriteInv t := by
  obtain ⟨hend, hlast⟩ := h
  rw [lastWriteInv, hM, hc]
  exact ⟨hend, fun hlt => hlast (by omega)⟩

/-- The drains of a tick leave the queues in order for the next one. -/
theorem queueInv_next {s t : State} (hM : t.M = s.M) (hc : t.cycle = s.cycle + 1)
    (hp : t.phys.dataPins = drained PinItem.ts s.cycle s.phys.dataPins)
    (ho : t.phys.readout = drained BurstItem.ts s.cycle s.phys.readout)
    (hi : t.phys.readin = drained BurstItem.ts s.cycle s.phys.readin) (h : queueInv s) : queueInv t := by
  obtain ⟨sp, so, si, bp, bo, bi, hne⟩ := h
  obtain ⟨sp', lp, mp⟩ := drained_sorted sp fun e he => (bp e he).1
  obtain ⟨so', lo, mo⟩ := drained_sorted so fun e he => (bo e he).1
  obtain ⟨si', li, mi⟩ := drained_sorted si fun e he => (bi e he).1
  rw [queueInv, hM, hc, hp, ho, hi]
  exact ⟨sp', so', si', fun e he => ⟨lp e he, (bp e (mp e he)).2⟩, fun e he => ⟨lo e he, (bo e (mo e he)).2⟩,
    fun e he => ⟨li e he, (bi e (mi e he)).2⟩, fun x hx y hy => hne x (mo x hx) y (mi y hy)⟩

/-- Acceptance that raises no fatal keeps the bus in order. -/
theorem busOrder_acceptBus {s : State} (hv : cfgValid s.cfg = true) (hf : s.fatal.flag = false)
    (h : lastWriteInv s ∧ queueInv s) (ha : (acceptBus s).fatal.flag = false) :
    lastWriteInv (acceptBus s) ∧ queueInv (acceptBus s) :=
  acceptBus_keeps (I := fun a => a.fatal.flag = false → lastWriteInv a ∧ queueInv a) (fun _ => h)
    (fun cmd _ => busOrder_accept hv h.1 h.2 hf cmd) ha

theorem busOrderInv_stopped {s : State} (hv : cfgValid s.cfg = true) (h : running s = false) : busOrderInv s :=
  ⟨hv, fun hr => by simp [h] at hr⟩

theorem busOrderInv_startTick {s : State} (hr : running s = true) (h : busOrderInv s) : busOrderInv (startTick s) := by
  obtain ⟨hv, hbus⟩ := h
  obtain ⟨hw, hq⟩ := hbus hr
  exact ⟨by rwa [startTick_cfg], fun _ => ⟨lastWriteInv_startTick hw, queueInv_startTick hq⟩⟩

theorem busOrderInv_completeTick {s : State} (hr : running s = true) (h : busOrderInv s) :
    busOrderInv (completeTick s) := by
  obtain ⟨hv, hbus⟩ := h
  refine ⟨by rwa [completeTick_cfg], fun hrun => ?_⟩
  have hlive := ((running_iff _).1 hrun).1
  have hc := completeTick_cycle_of_live hlive
  have hphys := completeTick_phys_of_live hlive
  obtain ⟨ha, _⟩ := completeTick_live hlive
  obtain ⟨hw, hq⟩ := busOrder_acceptBus (s := policyReturns s) hv ((running_iff s).1 hr).1 (hbus hr) ha
  have hcycle : (completeTick s).cycle = (acceptBus (policyReturns s)).cycle + 1 := by simpa using hc
  exact ⟨lastWriteInv_next (completeTick_M s) hcycle hw,
    queueInv_next (completeTick_M s) hcycle (by simp [hphys]) (by simp [hphys]) (by simp [hphys]) hq⟩

theorem busOrderInv_exec {i : Instr} {s t : State} (h : busOrderInv s) (hx : exec i s = .next t) : busOrderInv t := by
  obtain ⟨hv, hbus⟩ := h
  refine ⟨by rwa [exec_cfg hx], fun hrun => ?_⟩
  obtain ⟨hw, hq⟩ := hbus (running_of_exec hx hrun)
  have hphys := exec_phys hx
  rw [lastWriteInv, queueInv, exec_M hx, exec_cycle hx, hphys]
  exact ⟨hw, hq⟩

theorem busOrderInv_kept : KeptByStep busOrderInv where
  env _ _ h := h
  reset :=
    resetBundle_keeps (fun _ _ h => h) (fun cfg hv => ⟨hv, fun _ => ⟨lastWriteInv_boot cfg, queueInv_boot cfg⟩⟩)
      fun _ _ h => busOrderInv_stopped h.1 rfl
  opens _ := openTick_keeps fun _ hr _ h => busOrderInv_startTick hr h
  closes _ := closeTick_keeps fun _ hr _ h => busOrderInv_completeTick hr h
  exec _ _ _ h _ hx := busOrderInv_exec h hx

/-- The records S4 can write when no entry of a queue is late (60 R232, R239). -/
theorem recordIn_phaseS4_onTime {Q : Component → Invariant → Prop} (hmissing : Q .scheduler .publishMissing)
    (hover : Q .engine .cycleOverflow) {s : State} (hf : s.fatal.flag = false)
    (hp : ∀ e ∈ s.phys.dataPins, s.cycle ≤ e.ts) (ho : ∀ e ∈ s.phys.readout, s.cycle ≤ e.ts)
    (hi : ∀ e ∈ s.phys.readin, s.cycle ≤ e.ts) : recordIn Q (phaseS4 s) := by
  obtain ⟨hd, e⟩ := phaseS4_onTime hf hp ho hi
  rw [e]
  have hout : recordIn Q (schedulerOutputs (drainReadin (drainReadout (drainPins s)))) :=
    recordIn_congr hd (recordIn_live hf)
  have hcheck : recordIn Q (checkPublished (schedulerOutputs (drainReadin (drainReadout (drainPins s))))) := by
    unfold checkPublished
    split
    · exact hout
    · exact recordIn_raise hmissing hout
  unfold whileLive
  split
  · exact hcheck
  · unfold advanceCycle
    split
    · exact recordIn_raise hover hcheck
    · exact hcheck

/-- In a tick that keeps the bus in order no head of a queue is late (42 R150). -/
theorem neverLate_completeTick {s : State} (hr : running s = true) (h : busOrderInv s) :
    recordIn (fun _ v => v ≠ .queueLate) (completeTick s) := by
  obtain ⟨hv, hbus⟩ := h
  have hf : (policyReturns s).fatal.flag = false := ((running_iff s).1 hr).1
  rw [completeTick]
  cases ha : (acceptBus (policyReturns s)).fatal.flag with
  | false =>
    obtain ⟨_, hq⟩ := busOrder_acceptBus (s := policyReturns s) hv hf (hbus hr) ha
    obtain ⟨_, _, _, bp, bo, bi, _⟩ := hq
    exact recordIn_phaseS4_onTime (by simp) (by simp) ha (fun e he => (bp e he).1) (fun e he => (bo e he).1)
      fun e he => (bi e he).1
  | true =>
    rw [phaseS4_halted ha]
    refine acceptBus_keeps (recordIn_live hf) fun cmd _ => ?_
    rcases accept_raises hf cmd with e | ⟨v, d, e, _, hv, _⟩ | ⟨e, _⟩
    · exact recordIn_congr e (recordIn_live hf)
    · exact e ▸ recordIn_withFatal hv
    · exact e ▸ recordIn_withFatal (by simp)

/-- Settles O53: acceptance appends past every entry, a drain takes due heads only, and the clock goes up by one. -/
theorem stepKeepsBusOrder : Obligations.StepKeepsBusOrder := fun _ _ hbus h =>
  ⟨busOrderInv_kept.step hbus h,
    fun hr =>
      busOrderInv_kept.record (fun _ hr _ => neverLate_completeTick hr)
        (by rintro c v _ (rfl | rfl | rfl | rfl | rfl) <;> simp) (by simp) hr hbus h⟩

/-! ### The widths of cycle numbers -/

theorem timingNear_reset (n : Nat) : timingNear 0 (Timing.reset n) := by
  simp [timingNear, nearCycle, Timing.reset, BankRec.reset, Stamp.reset]

theorem widthInv_boot {cfg : Cfg} (hv : cfgValid cfg = true) : widthInv (State.boot cfg) :=
  ⟨hv, Nat.zero_le _, timingNear_reset _, timingNear_reset _, by simp [State.boot], by simp [State.boot],
    by simp [State.boot]⟩

theorem widthInv_startTick {s : State} (h : widthInv s) : widthInv (startTick s) := by
  obtain ⟨hv, hc, hP, hM, hp, ho, hi⟩ := h
  rw [widthInv, startTick_cfg, startTick_cycle, startTick_P, startTick_M, startTick_phys]
  exact ⟨hv, hc, timingNear_passive hv hP, timingNear_passive hv hM, hp, ho, hi⟩

/-- The ends of the two accesses are near: a latency and a burst later (60 R232). -/
theorem accessEnd_near {cfg : Cfg} (hv : cfgValid cfg = true) (c : Nat) :
    nearCycle c (c + cfg.lat.CAS + btt cfg) ∧ nearCycle c (c + cfg.lat.WL + btt cfg) := by
  obtain ⟨_, _, _, _, _, _, _, _, _, _, _, _, _, _, _, _, _, _, hcas, hwl⟩ := (cfgValid_iff cfg).1 hv
  obtain ⟨_, hb⟩ := btt_range hv
  unfold nearCycle
  omega

theorem pinItems_near {c first n : Nat} {tag : PinTag} (h : nearCycle c (first + n)) :
    ∀ e ∈ pinItems first n tag, nearCycle c e.ts := by
  intro e he
  obtain ⟨_, hlt⟩ := mem_pinItems he
  unfold nearCycle at *
  omega

/-- What acceptance appends to the queues lies near. -/
theorem accept_queues_near {s : State} (hv : cfgValid s.cfg = true) (hf : s.fatal.flag = false) (cmd : Command)
    (hp : ∀ e ∈ s.phys.dataPins, nearCycle s.cycle e.ts) (ho : ∀ e ∈ s.phys.readout, nearCycle s.cycle e.ts)
    (hi : ∀ e ∈ s.phys.readin, nearCycle s.cycle e.ts) :
    (∀ e ∈ (accept cmd s).phys.dataPins, nearCycle s.cycle e.ts) ∧
      (∀ e ∈ (accept cmd s).phys.readout, nearCycle s.cycle e.ts) ∧
      ∀ e ∈ (accept cmd s).phys.readin, nearCycle s.cycle e.ts := by
  obtain ⟨hread, hwrite⟩ := accessEnd_near hv s.cycle
  rcases accept_cases hf cmd with
    ⟨v, d, e, _⟩ | ⟨k, rfl, e⟩ |
      ⟨_, _, _, ⟨e, _⟩ | ⟨b, r, rfl, e⟩ | ⟨b, c, ap, row, rfl, _, e⟩ | ⟨b, c, u, ap, row, rfl, _, e⟩ |
        ⟨b, rfl, e⟩⟩ <;> rw [e]
  case inr.inl =>
    unfold acceptDummy
    split <;> exact ⟨hp, ho, hi⟩
  case inr.inr.inr.inr.inl =>
    exact ⟨List.forall_mem_append.2 ⟨hp, pinItems_near hread⟩,
      List.forall_mem_append.2 ⟨ho, List.forall_mem_singleton.2 hread⟩, hi⟩
  case inr.inr.inr.inr.inr.inl =>
    exact ⟨List.forall_mem_append.2 ⟨hp, pinItems_near hwrite⟩, ho,
      List.forall_mem_append.2 ⟨hi, List.forall_mem_singleton.2 hwrite⟩⟩
  all_goals exact ⟨hp, ho, hi⟩

theorem widthInv_accept {s : State} (hf : s.fatal.flag = false) (cmd : Command) (h : widthInv s) :
    widthInv (accept cmd s) := by
  obtain ⟨hv, hc, hP, hM, hp, ho, hi⟩ := h
  rw [widthInv, accept_cfg, accept_cycle, accept_P]
  refine ⟨hv, hc, hP, ?_, accept_queues_near hv hf cmd hp ho hi⟩
  rcases accept_M hf cmd with e | ⟨_, _, e⟩ <;> rw [e]
  · exact hM
  · exact timingNear_commit hv hM

theorem widthInv_advanceCycle {s : State} (h : widthInv s) : widthInv (advanceCycle s) := by
  by_cases hmax : s.cycle = maxCycle
  · rw [advanceCycle_of_eq hmax]
    simpa [widthInv] using h
  · obtain ⟨hv, hc, hP, hM, hp, ho, hi⟩ := h
    rw [advanceCycle_of_ne hmax]
    exact ⟨hv, Nat.lt_of_le_of_ne hc hmax, timingNear_succ hP, timingNear_succ hM, fun e he => nearCycle_succ (hp e he),
      fun e he => nearCycle_succ (ho e he), fun e he => nearCycle_succ (hi e he)⟩

theorem widthInv_completeTick {s : State} (hr : running s = true) (h : widthInv s) : widthInv (completeTick s) := by
  refine completeTick_keeps (fun _ h => h) (fun cmd s hf _ h => widthInv_accept hf cmd h) ?pins ?readout ?readin
    (fun _ h => h) ?check (fun s _ h => widthInv_advanceCycle h) ((running_iff s).1 hr).1 h
  case check =>
    intro s _ h
    simpa [widthInv] using h
  all_goals
    rintro s _ ⟨hv, hc, hP, hM, hp, ho, hi⟩
    rw [widthInv]
    simp only [drainPins_cfg, drainPins_cycle, drainPins_P, drainPins_M, drainPins_phys, drainReadout_cfg,
      drainReadout_cycle, drainReadout_P, drainReadout_M, drainReadout_phys, drainReadin_cfg, drainReadin_cycle,
      drainReadin_P, drainReadin_M, drainReadin_phys]
  case pins => exact ⟨hv, hc, hP, hM, fun e he => hp e (mem_of_mem_drained he), ho, hi⟩
  case readout => exact ⟨hv, hc, hP, hM, hp, fun e he => ho e (mem_of_mem_drained he), hi⟩
  case readin => exact ⟨hv, hc, hP, hM, hp, ho, fun e he => hi e (mem_of_mem_drained he)⟩

theorem widthInv_issue (cmd : Command) {s : State} (hr : running s = true) (h : widthInv s) :
    widthInv (issue cmd s) := by
  rcases issue_cases ((running_iff s).1 hr).1 cmd with ⟨c, o, v, d, e, _⟩ | ⟨_, _, _, e⟩ <;> rw [e]
  · exact h
  · obtain ⟨hv, hc, hP, hrest⟩ := h
    exact ⟨hv, hc, timingNear_commit hv hP, hrest⟩

theorem widthInv_exec {i : Instr} {s t : State} (h : widthInv s)
    (hphase : running s = true → s.phase = if isRaw i then .betweenTicks else .policyRunning)
    (hx : exec i s = .next t) : widthInv t := by
  refine exec_keeps (I := widthInv) (fun cmd s hr _ => widthInv_issue cmd hr) ?unchecked ?query ?split ?publish ?read
    ?write ?raise h hphase hx
  case write =>
    intro b r c n d s _ h
    unfold rawWrite
    split
    · simpa [widthInv] using h
    · exact h
  all_goals
    intros
    simpa [widthInv]

theorem widthInv_kept : KeptByStep widthInv where
  env _ _ h := h
  reset := resetBundle_keeps (fun _ _ h => h) (fun _ hv => widthInv_boot hv) fun _ _ h => widthInv_boot h.1
  opens _ := openTick_keeps fun _ _ _ h => widthInv_startTick h
  closes _ := closeTick_keeps fun _ hr _ h => widthInv_completeTick hr h
  exec _ _ _ := widthInv_exec

/-- Settles O54: every stored number is the cycle number with latencies of 32 bits and a burst added, and the clock
stops at its last number. -/
theorem stepKeepsWidths : Obligations.StepKeepsWidths := fun _ _ => widthInv_kept.step

/-! ### Annotations and the outputs of a halted engine -/

theorem annotInv_boot (cfg : Cfg) : annotInv (State.boot cfg) :=
  ⟨fun _ => rfl, fun h => by cases h⟩

theorem haltedInv_boot (cfg : Cfg) : haltedInv (State.boot cfg) := fun _ => rfl

theorem haltedInv_live {s : State} (h : s.fatal.flag = false) : haltedInv s := by
  intro hf
  simp [h] at hf

/-- A raise makes the outputs invalid, or a fatal was recorded before (60 R220, R224). -/
theorem raiseFatal_out (c : Component) (o : Operation) (v : Invariant) (d : Nat) (s : State) :
    raiseFatal c o v d s = s ∨ (raiseFatal c o v d s).out = OutRegs.invalid := by
  cases hf : s.fatal.flag with
  | true => exact .inl (raiseFatal_halted hf ..)
  | false => exact .inr (by rw [raiseFatal_live hf]; rfl)

/-- An operation leaves the record and the outputs alone, or makes the outputs invalid. -/
theorem action_out (i : Instr) (s : State) :
    (action i s).fatal = s.fatal ∧ (action i s).out = s.out ∨ (action i s).out = OutRegs.invalid := by
  have raise (c : Component) (o : Operation) (v : Invariant) (d : Nat) :
      (raiseFatal c o v d s).fatal = s.fatal ∧ (raiseFatal c o v d s).out = s.out ∨
        (raiseFatal c o v d s).out = OutRegs.invalid :=
    (raiseFatal_out c o v d s).imp_left fun e => by rw [e]; exact ⟨rfl, rfl⟩
  have issued (cmd : Command) :
      (issue cmd s).fatal = s.fatal ∧ (issue cmd s).out = s.out ∨ (issue cmd s).out = OutRegs.invalid := by
    unfold issue useSlot checkAndPost postAndSend
    split
    · exact raise ..
    · split
      · exact raise ..
      · split
        · exact raise ..
        · exact .inl ⟨rfl, rfl⟩
  have unchecked (cmd : Command) :
      (issueUnchecked cmd s).fatal = s.fatal ∧ (issueUnchecked cmd s).out = s.out ∨
        (issueUnchecked cmd s).out = OutRegs.invalid := by
    unfold issueUnchecked useSlot
    split
    · exact raise ..
    · exact .inl ⟨rfl, rfl⟩
  cases i with
  | active b r => exact issued _
  | read b c ap => exact issued _
  | write b c u ap => exact issued _
  | precharge b => exact issued _
  | prechargeAll => exact unchecked _
  | dummy k => exact unchecked _
  | illegalKind5 => exact unchecked _
  | illegalKind6 => exact unchecked _
  | illegalKind7 => exact unchecked _
  | constraintFor k b => simp only [action, query]; split <;> [exact raise ..; exact .inl ⟨rfl, rfl⟩]
  | readRaw b r c n => simp only [action, rawRead]; split <;> [exact raise ..; exact .inl ⟨rfl, rfl⟩]
  | writeRaw b r c n d => simp only [action, rawWrite]; split <;> [exact raise ..; exact .inl ⟨rfl, rfl⟩]
  | preload b r c n d => simp only [action, rawWrite]; split <;> [exact raise ..; exact .inl ⟨rfl, rfl⟩]
  | rawIllegalOp => exact raise ..
  | txnRead h => simp only [action, answerSplit]; split <;> [exact raise ..; exact .inl ⟨rfl, rfl⟩]
  | txnWrite h m d bm => simp only [action, answerSplit]; split <;> [exact raise ..; exact .inl ⟨rfl, rfl⟩]
  | publishState x => simp only [action, publish]; split <;> [exact raise ..; exact .inl ⟨rfl, rfl⟩]

theorem exec_out {i : Instr} {s t : State} (h : exec i s = .next t) :
    t.fatal = s.fatal ∧ t.out = s.out ∨ t.out = OutRegs.invalid :=
  exec_of_action (fun t => t.fatal = s.fatal ∧ t.out = s.out ∨ t.out = OutRegs.invalid) h (.inl ⟨rfl, rfl⟩)
    (action_out i s)

theorem haltedInv_exec {i : Instr} {s t : State} (h : haltedInv s) (hx : exec i s = .next t) : haltedInv t := by
  rcases exec_out hx with ⟨hf, ho⟩ | ho
  · rw [haltedInv, hf, ho]
    exact h
  · exact fun _ => ho

theorem annotInv_exec {i : Instr} {s t : State} (h : annotInv s) (hx : exec i s = .next t) : annotInv t := by
  obtain ⟨hannot, hbeside⟩ := h
  refine ⟨fun hr => ?_, fun hsome => ?_⟩
  · rw [exec_phys hx]
    exact hannot (running_of_exec hx hr)
  · rcases exec_out hx with ⟨_, ho⟩ | ho <;> rw [ho] at hsome ⊢
    · exact hbeside hsome
    · cases hsome

/-- What stops a live part of a tick is a raise, so that the outputs are invalid. -/
theorem haltedInv_raise {c : Component} {o : Operation} {v : Invariant} {d : Nat} {s : State} (h : haltedInv s) :
    haltedInv (raiseFatal c o v d s) := by
  rcases raiseFatal_out c o v d s with e | e
  · exact e.symm ▸ h
  · exact fun _ => e

theorem haltedInv_whileLive {f : State → State} (hlive : ∀ s, s.fatal.flag = false → haltedInv (f s)) {s : State}
    (h : haltedInv s) : haltedInv (whileLive f s) := by
  cases hf : s.fatal.flag with
  | true => rwa [whileLive_halted hf]
  | false =>
    rw [whileLive_live hf]
    exact hlive s hf

theorem haltedInv_phaseS4 {s : State} (h : haltedInv s) : haltedInv (phaseS4 s) := by
  refine haltedInv_whileLive ?advance <| haltedInv_whileLive ?check <|
    haltedInv_whileLive ?outputs <| haltedInv_whileLive ?readin <|
      haltedInv_whileLive ?readout <| haltedInv_whileLive ?pins h
  all_goals intro s hf
  case advance => unfold advanceCycle; split <;> [exact haltedInv_raise (haltedInv_live hf); exact haltedInv_live hf]
  case check => unfold checkPublished; split <;> [exact haltedInv_live hf; exact haltedInv_raise (haltedInv_live hf)]
  case outputs => exact haltedInv_live (s := schedulerOutputs s) hf
  case readin =>
    unfold drainReadin
    split
    · exact haltedInv_live hf
    · split_ifs <;> [exact haltedInv_raise (haltedInv_live hf); exact haltedInv_live hf; exact haltedInv_live hf]
  case readout =>
    unfold drainReadout
    split
    · exact haltedInv_live hf
    · split_ifs <;> [exact haltedInv_raise (haltedInv_live hf); exact haltedInv_live hf; exact haltedInv_live hf]
  case pins =>
    unfold drainPins
    split
    · exact haltedInv_live hf
    · split_ifs <;> [exact haltedInv_raise (haltedInv_live hf); exact haltedInv_live hf; exact haltedInv_live hf]

theorem haltedInv_completeTick {s : State} (hr : running s = true) : haltedInv (completeTick s) := by
  have hf : (policyReturns s).fatal.flag = false := ((running_iff s).1 hr).1
  refine haltedInv_phaseS4 (acceptBus_keeps (haltedInv_live hf) fun cmd _ => ?_)
  rcases accept_raises hf cmd with e | ⟨v, d, e, _⟩ | ⟨e, _⟩
  · exact haltedInv_live (by rw [e, hf])
  · exact e ▸ fun _ => rfl
  · exact e ▸ fun _ => rfl

/-- The bus is busy when the head of `dataPins` is due (42 R149). -/
theorem busBusy_iff (s : State) :
    busBusy s = true ↔ ∃ e rest, s.phys.dataPins = e :: rest ∧ e.ts = s.cycle := by
  unfold busBusy
  cases s.phys.dataPins with
  | nil => simp
  | cons e rest => simp

/-- An annotation is set by a Dummy on a busy bus, and by nothing else (42 R147). -/
theorem accept_annot {s : State} (hf : s.fatal.flag = false) (cmd : Command) :
    (accept cmd s).phys.annot = s.phys.annot ∨ busBusy (accept cmd s) = true := by
  rcases accept_cases hf cmd with
    ⟨v, d, e, _⟩ | ⟨k, rfl, e⟩ |
      ⟨_, _, _, ⟨e, _⟩ | ⟨b, r, rfl, e⟩ | ⟨b, c, ap, row, rfl, _, e⟩ | ⟨b, c, u, ap, row, rfl, _, e⟩ |
        ⟨b, rfl, e⟩⟩ <;> rw [e]
  case inr.inl =>
    unfold acceptDummy
    split
    · exact .inr (by assumption)
    · exact .inl rfl
  all_goals exact .inl rfl

/-- A drain of the pins that raises nothing shows the annotation, and a beat if the bus is busy (42 R151). -/
theorem drainPins_out_of_live {s : State} (h : (drainPins s).fatal.flag = false) :
    (drainPins s).out.annotOut = s.phys.annot.map (fun k => { tag := .protocolConstraint, kind := k }) ∧
      (busBusy s = true → (drainPins s).out.pinsOut.isSome = true) := by
  rw [busBusy_iff]
  unfold drainPins at h ⊢
  cases hq : s.phys.dataPins with
  | nil => simp
  | cons e rest =>
    simp only [hq] at h
    dsimp only
    split_ifs at h ⊢ with hlate hdue
    · simp at h
    · exact ⟨rfl, fun _ => rfl⟩
    · refine ⟨rfl, ?_⟩
      rintro ⟨x, xs, hx, hts⟩
      cases hx
      exact absurd hts hdue

theorem drainReadout_out_of_live {s : State} (h : (drainReadout s).fatal.flag = false) :
    (drainReadout s).out = { s.out with replyOut := (drainReadout s).out.replyOut } := by
  unfold drainReadout at h ⊢
  split at h
  · rfl
  · split_ifs at h ⊢ <;> [simp at h; rfl; rfl]

theorem drainReadin_out_of_live {s : State} (h : (drainReadin s).fatal.flag = false) :
    (drainReadin s).out = { s.out with replyOut := (drainReadin s).out.replyOut } := by
  unfold drainReadin at h ⊢
  split at h
  · rfl
  · split_ifs at h ⊢ <;> [simp at h; rfl; rfl]

/-- The pin outputs of a tick that no fatal stopped are those of its drain of the pins. -/
theorem completeTick_out_of_live {s : State} (h : (completeTick s).fatal.flag = false) :
    (completeTick s).out.pinsOut = (drainPins (acceptBus (policyReturns s))).out.pinsOut ∧
      (completeTick s).out.annotOut = (drainPins (acceptBus (policyReturns s))).out.annotOut := by
  obtain ⟨_, _, h2, h3, _, hc, e⟩ := completeTick_live h
  have ho := drainReadout_out_of_live h2
  have hi := drainReadin_out_of_live h3
  rw [e, advanceCycle_of_ne (by simpa using hc)]
  simp only [schedulerOutputs, State.setPhys_out, State.setPhase_out, State.setCycle_out, State.setOut_out]
  rw [hi, ho]
  exact ⟨rfl, rfl⟩

theorem annotInv_completeTick {s : State} (hr : running s = true) (h : annotInv s) : annotInv (completeTick s) := by
  obtain ⟨hannot, _⟩ := h
  have hnone := hannot hr
  have hf : (policyReturns s).fatal.flag = false := ((running_iff s).1 hr).1
  cases hlive : (completeTick s).fatal.flag with
  | true =>
    rw [annotInv, haltedInv_completeTick hr hlive]
    exact ⟨fun hrun => absurd hrun (not_running_of_fatal hlive), fun hsome => by cases hsome⟩
  | false =>
    obtain ⟨_, hpins, _⟩ := completeTick_live hlive
    obtain ⟨heq, hbusy⟩ := drainPins_out_of_live hpins
    obtain ⟨ep, ea⟩ := completeTick_out_of_live hlive
    refine ⟨fun _ => by rw [completeTick_phys_of_live hlive], fun hsome => ?_⟩
    rw [ep]
    rw [ea, heq] at hsome
    refine hbusy ?_
    refine acceptBus_keeps (I := fun a => (a.phys.annot.map _).isSome = true → busBusy a = true) ?_ (fun cmd _ => ?_)
      hsome
    · simp [hnone]
    · rcases accept_annot hf cmd with e | e
      · simp [e, hnone]
      · exact fun _ => e

theorem annotInv_kept : KeptByStep fun s => annotInv s ∧ haltedInv s where
  env _ _ h := h
  reset :=
    resetBundle_keeps (fun _ _ h => h) (fun cfg _ => ⟨annotInv_boot cfg, haltedInv_boot cfg⟩)
      fun s _ _ => ⟨⟨fun _ => rfl, (annotInv_boot s.cfg).2⟩, haltedInv_boot s.cfg⟩
  opens s h := by
    rcases openTick_cases s with e | ⟨_, _, e⟩ <;> rw [e]
    · exact h
    · obtain ⟨⟨_, hbeside⟩, hhalted⟩ := h
      rw [annotInv, haltedInv, startTick_out, startTick_fatal, startTick_phys]
      exact ⟨⟨fun _ => rfl, hbeside⟩, hhalted⟩
  closes s h := by
    rcases closeTick_cases s with e | ⟨hr, _, e⟩ <;> rw [e]
    · exact h
    · exact ⟨annotInv_completeTick hr h.1, haltedInv_completeTick hr⟩
  exec _ _ _ h _ hx := ⟨annotInv_exec h.1 hx, haltedInv_exec h.2 hx⟩

/-- Settles O55: only a Dummy on a busy bus annotates, the same tick's drain shows it beside the beat, and every raise
makes the outputs invalid. -/
theorem stepKeepsOutputs : Obligations.StepKeepsOutputs := fun _ _ ha hh => annotInv_kept.step ⟨ha, hh⟩

end Sys2Proof.Proofs.QueueInvariants

/-! Statements of 70_reset_and_hazards.md and 60_exceptions.md section 3: the reset values, what a reset does, and which
configuration a bundle gives. -/

namespace Sys2Proof.Proofs.Reset

open Sys2Proof.Machine Sys2Proof.Proofs.Parts Sys2Proof.Proofs.Operations Sys2Proof.Proofs.Invariants
open Sys2Proof.Proofs.TimingInvariants Sys2Proof.Proofs.QueueInvariants

/-! ### The reset values -/

theorem getD_replicate_default {α : Type} (n i : Nat) (x : α) : (List.replicate n x).getD i x = x := by
  by_cases h : i < n <;> simp [List.getD, h]

theorem memFind_eq_none_iff {m : Memory} {a : Nat} : memFind m a = none ↔ ∀ cell ∈ m, cell.1 ≠ a := by
  induction m with
  | nil => simp [memFind]
  | cons cell rest ih =>
    rw [memFind, List.forall_mem_cons]
    split
    · simp_all
    · simp_all

/-- A table gives the value that all its entries of an address have. -/
theorem memFind_of_unique {m : Memory} {a : Nat} {v : Byte} (hmem : (a, v) ∈ m)
    (huniq : ∀ cell ∈ m, cell.1 = a → cell.2 = v) : memFind m a = some v := by
  cases h : memFind m a with
  | none => exact absurd rfl (memFind_eq_none_iff.1 h _ hmem)
  | some w => exact congrArg some (huniq _ (memFind_mem h) rfl)

theorem byteAt_boot_table {cfg : Cfg} {cells : List Host.Cell} (h : cfg.memInit = .table cells) (a : Nat) :
    (State.boot cfg).byteAt a = (memFind cells a).getD 0 := by
  change readByte cfg.memInit [] a = _
  rw [readByte_nil, h]
  rfl

theorem wordAt_boot_unspecified {cfg : Cfg} (h : cfg.memInit = .unspecified) {b r c : Nat} (hr : r < 2 ^ 32)
    (hc : c < 2 ^ 32) : (State.boot cfg).wordAt b r c = Config.memInit b r c := by
  change readWord cfg.memInit [] _ = _
  rw [h]
  exact readWord_nil_unspecified b r c hr hc

/-- Settles O44: the fields by the definition of the reset state, the arrays element by element, and memory from what an
empty list reads as. -/
theorem resetLeaves : Obligations.ResetLeaves := by
  intro cfg s
  refine ⟨rfl, rfl, rfl, rfl, rfl, List.length_replicate, fun b => getD_replicate_default _ b _, rfl, rfl, rfl,
    List.length_replicate, fun b => getD_replicate_default _ b _, rfl, rfl, rfl, rfl, rfl, rfl, rfl, rfl, rfl, rfl, rfl,
    List.length_replicate, fun x hx => List.eq_of_mem_replicate hx, List.length_replicate,
    fun b => getD_replicate_default _ b _, rfl, rfl, rfl, rfl, fun h b r c hr hc => wordAt_boot_unspecified h hr hc,
    fun cells h a => ⟨fun v hmem huniq => ?listed, fun hnone => ?unlisted⟩⟩
  case listed => rw [byteAt_boot_table h, memFind_of_unique hmem huniq, Option.getD_some]
  case unlisted => rw [byteAt_boot_table h, memFind_eq_none_iff.2 hnone, Option.getD_none]

/-- Settles O59: each invariant at reset, beside the proof that steps keep it. -/
theorem resetMeetsInvariants : Obligations.ResetMeetsInvariants := by
  refine ⟨by decide, fun cfg hv => ?_⟩
  exact ⟨memoryInv_boot cfg, shapeInv_boot hv, mirrorInv_boot cfg, rowInv_boot cfg, flagInv_reset _, flagInv_reset _,
    ⟨hv, fun _ => ⟨lastWriteInv_boot cfg, queueInv_boot cfg⟩⟩, widthInv_boot hv, annotInv_boot cfg, haltedInv_boot cfg⟩

/-! ### The step of a reset -/

/-- Settles O45: the step is the reset with the bundle, which takes its configuration or records its error. -/
theorem resetTakesConfiguration : Obligations.ResetTakesConfiguration := by
  intro s b rest hp
  refine ⟨_, step_reset hp, ?_⟩
  rcases resetBundle_cases b (consume rest s) with ⟨cfg, hc, hv, e⟩ | ⟨err, hc, e⟩ <;> rw [e, hc]
  · refine ⟨rfl, rfl, rfl, rfl, ?_, fun e h => by cases h⟩
    rintro cfg' h
    cases h
    exact ⟨rfl, hv⟩
  · refine ⟨rfl, rfl, rfl, rfl, fun cfg h => (by cases h), ?_⟩
    rintro err' h
    cases h
    rfl

/-! ### The factory -/

/-- PROFILE_TABLE has a name that all its entries give the same latencies (00 R10). -/
theorem lookup_of_unique {table : List (String × Latencies)} {name : String} {l : Latencies} (hmem : (name, l) ∈ table)
    (huniq : ∀ entry ∈ table, entry.1 = name → entry.2 = l) : table.lookup name = some l := by
  cases h : table.lookup name with
  | none =>
    have hne := List.lookup_eq_none_iff.1 h _ hmem
    simp at hne
  | some l' =>
    obtain ⟨before, after, rfl, _⟩ := List.lookup_eq_some_iff.1 h
    exact congrArg some (huniq (name, l') (by simp) rfl)

section Configure

variable {b : Bundle} {l : Latencies}

theorem configure_unsupportedFamily (h : b.family ≠ .supported) : configure b = .error .unsupportedFamily :=
  if_pos h

theorem configure_unknownProfile (hf : b.family = .supported) (hp : profileLatencies b = none) :
    configure b = .error .unknownProfile := by
  simp [configure, hf, hp]

/-- Past the family and the profile, the bank count and then every range decides (60 R223, R236). -/
theorem configure_of_latencies (hf : b.family = .supported) (hp : profileLatencies b = some l) :
    configure b =
      if b.NB = 0 then .error .zeroBankCount
      else if cfgValid (cfgOf b l) && selectsPolicy b.schedKind then .ok (cfgOf b l)
      else .error .badParameter := by
  simp [configure, hf, hp]

/-- A bundle with a bank is legal when each of its parameters is in its range and its scheduler kind selects a policy
(00 R8, R9, 60 R236). -/
theorem bundleValid_iff (hb : b.NB ≠ 0) :
    (cfgValid (cfgOf b l) && selectsPolicy b.schedKind) = true ↔
      ¬ (b.NB > 65536 ∨ b.NR = 0 ∨ b.NR > 2 ^ 32 ∨ b.NC = 0 ∨ b.NC > 2 ^ 32 ∨ b.BL = 0 ∨ b.BL > 32 ∨ b.NC < b.BL ∨
        b.BPC = 0 ∨ b.BPC > 128 ∨ ¬ b.BPC ∣ 4 * b.BL ∨ selectsPolicy b.schedKind = false ∨
        2 ^ 32 ≤ l.tRRD ∨ 2 ^ 32 ≤ l.tRCD ∨ 2 ^ 32 ≤ l.tWTR ∨ 2 ^ 32 ≤ l.tRTW ∨ 2 ^ 32 ≤ l.tWR ∨ 2 ^ 32 ≤ l.tRP ∨
        2 ^ 32 ≤ l.CAS ∨ 2 ^ 32 ≤ l.WL) := by
  rw [Bool.and_eq_true, cfgValid_iff, Nat.dvd_iff_mod_eq_zero]
  simp only [cfgOf]
  generalize 4 * b.BL % b.BPC = m
  cases selectsPolicy b.schedKind with
  | false => simp
  | true => simp only [Bool.true_eq_false, and_true, false_or]; omega

end Configure

/-- Settles O46: the profile's latencies by its kind, and then the ranges of `bundleValid_iff`. -/
theorem configurationErrors : Obligations.ConfigurationErrors := by
  intro b
  refine ⟨configure_unsupportedFamily, fun name hf hp hnone => ?unknown, ?known⟩
  case unknown =>
    refine configure_unknownProfile hf ?_
    rw [profileLatencies, hp]
    exact List.lookup_eq_none_iff.2 fun entry he => bne_iff_ne.2 (hnone entry he).symm
  case known =>
    intro l hf hprofile bad
    have hl : profileLatencies b = some l := by
      rcases hprofile with hp | ⟨hp, rfl⟩ | ⟨name, hp, hmem, huniq⟩ <;> simp only [profileLatencies, hp]
      · rfl
      · exact lookup_of_unique hmem huniq
    rw [configure_of_latencies hf hl]
    refine ⟨fun hb => if_pos hb, fun hb hbad => ?_, fun hb hgood => ?_⟩
    · rw [if_neg hb, if_neg fun hv => (bundleValid_iff hb).1 hv hbad]
    · rw [if_neg hb, if_pos ((bundleValid_iff hb).2 hgood)]
      rfl

end Sys2Proof.Proofs.Reset

/-! Statements of 44_command_sequencer_scheduler.md R195 to R198, R201 and of 40_timing_constraint_checker.md R112: the
issue helpers, the query port and publishState. -/

namespace Sys2Proof.Proofs.Issuing

open Sys2Proof.Machine Sys2Proof.Proofs.Parts Sys2Proof.Proofs.Operations

/-! ### Operands that do not fit, and those that do -/

section Operands

variable {cfg : Cfg} {b : BitVec 16} {x : BitVec 32} {burst : Burst} {ap : Bool}

theorem bankFault_of_ge (h : cfg.NB ≤ b.toNat) : bankFault cfg b = some (.outOfRange, b.toNat) :=
  if_pos h

theorem bankFault_of_lt (h : b.toNat < cfg.NB) : bankFault cfg b = none :=
  if_neg (Nat.not_le.2 h)

/-- The bank is looked at first (60 R227). -/
theorem operandFault_bank {cmd : Command} (hc : hasCommit cmd = true) (h : cfg.NB ≤ (bankOf cmd).toNat) :
    operandFault cfg cmd = some (.outOfRange, (bankOf cmd).toNat) := by
  have hb := bankFault_of_ge h
  cases cmd with
  | active b r => simp only [operandFault, show bankFault cfg b = _ from hb]
  | read b c ap => simp only [operandFault, accessFault, show bankFault cfg b = _ from hb]
  | write b c u ap => simp only [operandFault, accessFault, show bankFault cfg b = _ from hb]
  | precharge b => exact hb
  | prechargeAll => cases hc
  | dummy k => cases hc
  | illegal k => cases hc

theorem operandFault_row (hb : b.toNat < cfg.NB) (h : cfg.NR ≤ x.toNat) :
    operandFault cfg (.active b x) = some (.outOfRange, x.toNat) := by
  simp only [operandFault, bankFault_of_lt hb, if_pos h]

theorem accessFault_column (hb : b.toNat < cfg.NB) (h : cfg.NC < x.toNat + cfg.BL) :
    accessFault cfg b x = some (.outOfRange, x.toNat) := by
  simp only [accessFault, bankFault_of_lt hb, if_pos h]

theorem operandFault_readColumn (hb : b.toNat < cfg.NB) (h : cfg.NC < x.toNat + cfg.BL) :
    operandFault cfg (.read b x ap) = some (.outOfRange, x.toNat) :=
  accessFault_column hb h

theorem operandFault_writeColumn (hb : b.toNat < cfg.NB) (h : cfg.NC < x.toNat + cfg.BL) :
    operandFault cfg (.write b x burst ap) = some (.outOfRange, x.toNat) := by
  simp only [operandFault, accessFault_column hb h]

/-- The burst length is looked at last (60 R229). -/
theorem operandFault_length (hb : b.toNat < cfg.NB) (hc : x.toNat + cfg.BL ≤ cfg.NC) (h : burst.len.toNat ≠ cfg.BL) :
    operandFault cfg (.write b x burst ap) = some (.burstLength, burst.len.toNat) := by
  have ha : accessFault cfg b x = none := (operandFault_read_none_iff cfg b x ap).2 ⟨hb, hc⟩
  simp only [operandFault, ha, if_pos h]

end Operands

/-! ### The ways an issue can go -/

/-- Every operation but PUBLISH_STATE is performed by a running engine. -/
theorem exec_of_running {s : State} (hr : running s = true) {i : Instr} (hi : ∀ x, i ≠ .publishState x) :
    exec i s = .next (action i s) :=
  exec_running hr fun x h => absurd h (hi x)

section Ways

variable {s : State} {cmd : Command}

/-- One command a tick (60 R238). -/
theorem useSlot_used (hr : running s = true) (hi : s.sched.issued = true) (f : State → State) :
    useSlot f s = withFatal .scheduler .issue .secondCommandInTick 0 s :=
  (if_pos hi).trans (raiseFatal_live ((running_iff s).1 hr).1 ..)

theorem issueUnchecked_free (hi : s.sched.issued = false) : issueUnchecked cmd s = withCommand cmd s :=
  if_neg (Bool.eq_false_iff.1 hi)

/-- Step 2 of the helpers (44 R195). -/
theorem issue_of_operandFault (hr : running s = true) (hi : s.sched.issued = false) {v : Violation}
    (ho : operandFault s.cfg cmd = some v) : issue cmd s = withFatal .scheduler .issue v.1 v.2 s := by
  simp only [issue, useSlot, hi, Bool.false_eq_true, if_false, checkAndPost, ho]
  exact raiseFatal_live ((running_iff s).1 hr).1 ..

/-- Step 3 of the helpers (41 R123, 60 R225). -/
theorem issue_of_constraint (hr : running s = true) (hi : s.sched.issued = false) {k : Constraint}
    (hb : (bankOf cmd).toNat < s.cfg.NB) (ho : operandFault s.cfg cmd = none)
    (hk : constraint s.cfg s.P s.cycle (bankOf cmd).toNat (kindOf cmd) = k) (hne : k ≠ .none) :
    issue cmd s = withFatal .predictive (postOperation (kindOf cmd)) .constraintViolated k.code.toNat s := by
  have hfault : commitFault s.cfg s.P s.cycle cmd = some (.constraintViolated, k.code.toNat) := by
    simp only [commitFault, bankFault_of_lt hb, hk, if_neg hne]
  simp only [issue, useSlot, hi, Bool.false_eq_true, if_false, checkAndPost, ho, postAndSend, hfault]
  exact raiseFatal_live ((running_iff s).1 hr).1 ..

/-- The state after an issue whose checks passed (44 R195, steps 3 to 6). -/
def issuedState (cmd : Command) (s : State) : State :=
  sendCommand cmd (noteCommand cmd (s.setP (commit s.cfg s.cycle cmd s.P)))

theorem issue_of_passes (hi : s.sched.issued = false) (hb : (bankOf cmd).toNat < s.cfg.NB)
    (ho : operandFault s.cfg cmd = none)
    (hk : constraint s.cfg s.P s.cycle (bankOf cmd).toNat (kindOf cmd) = .none) : issue cmd s = issuedState cmd s :=
  issue_passes hi ho hb hk

end Ways

/-! ### An issue whose checks passed -/

theorem isRowHit_iff (last : LastCmd) : isRowHit last = true ↔ last = .read ∨ last = .write := by
  cases last <;> simp [isRowHit]

/-- A Read or Write counts as a hit or as a miss (44 R197). -/
theorem countRow_access {kind : CmdKind} (hk : kind = .read ∨ kind = .write) (last : LastCmd) (x : SchedState) :
    if last = .read ∨ last = .write then
      (countRow kind last x).rowHits = x.rowHits + 1 ∧ (countRow kind last x).rowMisses = x.rowMisses
    else (countRow kind last x).rowHits = x.rowHits ∧ (countRow kind last x).rowMisses = x.rowMisses + 1 := by
  simp only [← isRowHit_iff]
  rcases hk with rfl | rfl <;> simp only [countRow] <;> split <;> exact ⟨rfl, rfl⟩

section Issued

variable {s : State} {cmd : Command}

theorem issuedState_lastCmdKind :
    (issuedState cmd s).sched.lastCmdKind =
      s.sched.lastCmdKind.set (bankOf cmd).toNat (lastCmdOf (kindOf cmd)) :=
  congrArg (fun l => l.set (bankOf cmd).toNat (lastCmdOf (kindOf cmd))) (countRow_lastCmdKind ..)

/-- The issue changes `P`, the statistics, the last command of its bank and the slot of the tick (44 R195). -/
theorem issueFrame_issuedState : issueFrame cmd s (issuedState cmd s) := by
  refine ⟨?_, fun b' hne => ?_, fun _ => rfl⟩
  · simp [issuedState, sendCommand, noteCommand, State.setSched, State.setP]
  · rw [lastCmdAt, issuedState_lastCmdKind, List.getD_eq_getElem?_getD, List.getElem?_set_ne hne.symm]
    rfl

/-- The bank's last command is the one issued (44 R195, step 5). -/
theorem lastCmdAt_issuedState (hs : shapeInv s) (hb : (bankOf cmd).toNat < s.cfg.NB) :
    lastCmdAt (issuedState cmd s) (bankOf cmd).toNat = lastCmdOf (kindOf cmd) := by
  obtain ⟨_, _, _, _, hlen, _⟩ := hs
  rw [lastCmdAt, issuedState_lastCmdKind, List.getD_eq_getElem?_getD, List.getElem?_set_self (by omega)]
  rfl

end Issued

/-! ### A bank record updated -/

theorem otherBanksKept_of_update {T T' : Timing} {b : Nat} {f : BankRec → BankRec}
    (h : T'.banks = (updateBank T b f).banks) : otherBanksKept b T T' := by
  refine ⟨by rw [h, updateBank_length], fun b' hne => ?_⟩
  have hbank : bankAt T' b' = bankAt (updateBank T b f) b' := by rw [bankAt, h, bankAt]
  rw [hbank, bankAt_updateBank, if_neg fun hb => hne hb.1.symm]

theorem bankAt_of_update {T T' : Timing} {b : Nat} {f : BankRec → BankRec}
    (h : T'.banks = (updateBank T b f).banks) (hb : b < T.banks.length) : bankAt T' b = f (bankAt T b) := by
  have hbank : bankAt T' b = bankAt (updateBank T b f) b := by rw [bankAt, h, bankAt]
  rw [hbank, bankAt_updateBank, if_pos ⟨rfl, hb⟩]

/-! ### The statements -/

/-- An issue whose operands fit and whose constraint is `None` completes. -/
theorem exec_issues {i : Instr} {cmd : Command} {s : State} (hr : running s = true) (hi : ∀ x, i ≠ .publishState x)
    (ha : action i s = issue cmd s) (hfree : s.sched.issued = false) (hb : (bankOf cmd).toNat < s.cfg.NB)
    (ho : operandFault s.cfg cmd = none)
    (hk : constraint s.cfg s.P s.cycle (bankOf cmd).toNat (kindOf cmd) = .none) :
    exec i s = .next (issuedState cmd s) := by
  rw [exec_of_running hr hi, ha, issue_of_passes hfree hb ho hk]

/-- Settles O14: the checks pass by R101, and the state after them is `issuedState`. -/
theorem activeIssues : Obligations.ActiveIssues := by
  intro s b row hs hr hfree hb hrow hidle hearly
  obtain ⟨⟨_, _, _, hnone⟩, _⟩ := Constraints.constraintTables s.cfg s.P s.cycle b.toNat
  have ho := (operandFault_active_none_iff s.cfg b row).2 ⟨hb, hrow⟩
  have hlen : b.toNat < s.P.banks.length := hs.2.1 ▸ hb
  exact ⟨issuedState (.active b row) s,
    exec_issues hr (by simp) rfl hfree hb ho (hnone (Nat.not_lt.2 hearly) hidle), issueFrame_issuedState,
    otherBanksKept_of_update rfl, bankAt_of_update rfl hlen, rfl, rfl, rfl, lastCmdAt_issuedState hs hb, rfl, rfl⟩

/-- Settles O15: the checks pass by R103, and the state after them is `issuedState`. -/
theorem readIssues : Obligations.ReadIssues := by
  intro s b col ap hs hr hfree hb hcol hopen hflag hwriting hbus hturn
  have hlen : b.toNat < s.P.banks.length := hs.2.1 ▸ hb
  have hk : constraint s.cfg s.P s.cycle b.toNat .read = .none := by
    obtain ⟨_, ⟨_, _, _, hpast⟩, _⟩ := Constraints.constraintTables s.cfg s.P s.cycle b.toNat
    obtain ⟨_, _, hnone⟩ := hpast (by
      rintro (h | ⟨b', hb', hw⟩)
      · exact Nat.not_lt.2 hbus h
      · exact hwriting b' (hs.2.1 ▸ hb') hw) hopen
    exact hnone hflag hturn
  have ho := (operandFault_read_none_iff s.cfg b col ap).2 ⟨hb, hcol⟩
  exact ⟨issuedState (.read b col ap) s, exec_issues hr (by simp) rfl hfree hb ho hk, issueFrame_issuedState,
    otherBanksKept_of_update rfl, bankAt_of_update rfl hlen, rfl, rfl, rfl, lastCmdAt_issuedState hs hb,
    countRow_access (.inl rfl) _ _⟩

/-- Settles O16: the checks pass by R105, and the state after them is `issuedState`. -/
theorem writeIssues : Obligations.WriteIssues := by
  intro s b col burst ap hs hr hfree hb hcol hburst hopen hflag hbus hturn
  have hlen : b.toNat < s.P.banks.length := hs.2.1 ▸ hb
  have hk : constraint s.cfg s.P s.cycle b.toNat .write = .none := by
    obtain ⟨_, _, ⟨_, _, _, _, hpast⟩, _⟩ := Constraints.constraintTables s.cfg s.P s.cycle b.toNat
    obtain ⟨_, hnone⟩ := hpast (by omega) (by omega) hopen
    exact hnone hflag
  have ho := (operandFault_write_none_iff s.cfg b col burst ap).2 ⟨hb, hcol, hburst⟩
  exact ⟨issuedState (.write b col burst ap) s, exec_issues hr (by simp) rfl hfree hb ho hk, issueFrame_issuedState,
    otherBanksKept_of_update rfl, bankAt_of_update rfl hlen, rfl, rfl, rfl, lastCmdAt_issuedState hs hb,
    countRow_access (.inr rfl) _ _⟩

/-- Commit Precharge on a bank with no row to close (41 R127). -/
theorem commitPrecharge_of_closed {cfg : Cfg} {c : Nat} {b : BitVec 16} {T : Timing}
    (h : (bankAt T b.toNat).status = .idle ∨ (bankAt T b.toNat).status = .precharging) :
    commitPrecharge cfg c b T = T :=
  if_pos h

/-- Commit Precharge on any other bank (41 R127). -/
theorem commitPrecharge_of_open {cfg : Cfg} {c : Nat} {b : BitVec 16} {T : Timing}
    (h : (bankAt T b.toNat).status = .active ∨ (bankAt T b.toNat).status = .reading) :
    commitPrecharge cfg c b T =
      updateBank T b.toNat fun r =>
        { r with status := .precharging, endCycle := c + cfg.lat.tRP, autoprecharge := false } :=
  if_neg (by rcases h with h | h <;> simp [h])

/-- Settles O17: the checks pass by R107; on a bank with no row the commit is the identity. -/
theorem prechargeIssues : Obligations.PrechargeIssues := by
  intro s b hs hr hfree hb hrecovered hactivating hreading
  have hlen : b.toNat < s.P.banks.length := hs.2.1 ▸ hb
  obtain ⟨_, _, _, _, _, _, hnone⟩ := Constraints.constraintTables s.cfg s.P s.cycle b.toNat
  have ho := (operandFault_precharge_none_iff s.cfg b).2 hb
  refine ⟨issuedState (.precharge b) s,
    exec_issues hr (by simp) rfl hfree hb ho (hnone (Nat.not_lt.2 hrecovered) hactivating hreading),
    issueFrame_issuedState, lastCmdAt_issuedState hs hb, rfl, rfl, fun hclosed => commitPrecharge_of_closed hclosed,
    fun hopen => ?_⟩
  have hP : (issuedState (.precharge b) s).P = _ := commitPrecharge_of_open hopen
  rw [hP]
  exact ⟨otherBanksKept_of_update rfl, rfl, rfl, rfl, bankAt_of_update rfl hlen⟩

/-- Settles O18: with the slot free the command goes to the module unchecked. -/
theorem dummyIssues : Obligations.DummyIssues := by
  intro s k hr hfree
  refine ⟨_, exec_of_running hr (by simp), issueUnchecked_free hfree, fun a => ?_⟩
  rw [action, issueUnchecked_free hfree]
  rfl

/-- Settles O21: all nine operations ask for the slot of the tick first. -/
theorem secondCommandIsFatal : Obligations.SecondCommandIsFatal := by
  intro s i hr hused hcmd
  have hslot (f : State → State) := useSlot_used hr hused f
  rcases hcmd with
    ⟨b, r, rfl⟩ | ⟨b, c, ap, rfl⟩ | ⟨b, c, u, ap, rfl⟩ | ⟨b, rfl⟩ | rfl | ⟨k, rfl⟩ | rfl | rfl | rfl
  all_goals exact (exec_of_running hr (by simp)).trans (congrArg _ (hslot _))

/-- Settles O22: the four places of `operandFault`, bank first and burst length last. -/
theorem operandOutOfRangeIsFatal : Obligations.OperandOutOfRangeIsFatal := by
  intro s b x burst ap hr hfree
  have fatal {i : Instr} {cmd : Command} {v : Violation} (ho : operandFault s.cfg cmd = some v)
      (ha : action i s = issue cmd s) (hi : ∀ x, i ≠ .publishState x) :
      exec i s = .next (withFatal .scheduler .issue v.1 v.2 s) := by
    rw [exec_of_running hr hi, ha, issue_of_operandFault hr hfree ho]
  refine ⟨fun hb => ⟨?_, ?_, ?_, ?_⟩, fun hb hrow => ?_, fun hb hcol => ⟨?_, ?_⟩, fun hb hcol hlen => ?_⟩
  · exact fatal (operandFault_bank (cmd := .active b x) rfl hb) rfl (by simp)
  · exact fatal (operandFault_bank (cmd := .read b x ap) rfl hb) rfl (by simp)
  · exact fatal (operandFault_bank (cmd := .write b x burst ap) rfl hb) rfl (by simp)
  · exact fatal (operandFault_bank (cmd := .precharge b) rfl hb) rfl (by simp)
  · exact fatal (operandFault_row hb hrow) rfl (by simp)
  · exact fatal (operandFault_readColumn (ap := ap) hb hcol) rfl (by simp)
  · exact fatal (operandFault_writeColumn (burst := burst) (ap := ap) hb hcol) rfl (by simp)
  · exact fatal (operandFault_length (ap := ap) hb hcol hlen) rfl (by simp)

/-- Settles O23: with its operands in range each of the four is stopped by its constraint on `P`. -/
theorem violatedConstraintIsFatal : Obligations.ViolatedConstraintIsFatal := by
  intro s b x burst ap hr hfree hb
  have fatal {i : Instr} {cmd : Command} {k : Constraint} (hbank : (bankOf cmd).toNat < s.cfg.NB)
      (ho : operandFault s.cfg cmd = none)
      (hk : constraint s.cfg s.P s.cycle (bankOf cmd).toNat (kindOf cmd) = k) (hne : k ≠ .none)
      (ha : action i s = issue cmd s) (hi : ∀ x, i ≠ .publishState x) :
      exec i s =
        .next (withFatal .predictive (postOperation (kindOf cmd)) .constraintViolated k.code.toNat s) := by
    rw [exec_of_running hr hi, ha, issue_of_constraint hr hfree hbank ho hk hne]
  refine ⟨fun k hk hne hrow => ?_, fun k hk hne hcol => ?_, fun k hk hne hcol hlen => ?_, fun k hk hne => ?_⟩
  · exact fatal (cmd := .active b x) hb ((operandFault_active_none_iff ..).2 ⟨hb, hrow⟩) hk hne rfl (by simp)
  · exact fatal (cmd := .read b x ap) hb ((operandFault_read_none_iff ..).2 ⟨hb, hcol⟩) hk hne rfl (by simp)
  · exact fatal (cmd := .write b x burst ap) hb ((operandFault_write_none_iff ..).2 ⟨hb, hcol, hlen⟩) hk hne rfl
      (by simp)
  · exact fatal (cmd := .precharge b) hb ((operandFault_precharge_none_iff ..).2 hb) hk hne rfl (by simp)

/-- Settles O9: in range the answer goes to the query port and to the tick's answers, and nowhere else. -/
theorem queryCompletes : Obligations.QueryCompletes := by
  intro s kind bank hr hb
  have hq : query kind bank s =
      let code := (constraint s.cfg s.P s.cycle bank.toNat (CmdKind.ofCode kind)).code
      (s.setSched { s.sched with answers := s.sched.answers ++ [code] }).setEnv { s.env with qryOut := some code } := by
    simp only [query, bankFault_of_lt hb]
  refine ⟨query kind bank s, exec_of_running hr (by simp), ?_⟩
  rw [hq]
  exact ⟨rfl, rfl, fun _ => rfl⟩

/-- Settles O32: a first publishState of the fixed shape is noted for S4. -/
theorem publishCompletes : Obligations.PublishCompletes := by
  intro s state hr hpub hlen
  have hp : publish state s = s.setSched { s.sched with published := true, pendingState := state } :=
    if_neg (Bool.eq_false_iff.1 hpub)
  refine ⟨publish state s, exec_running hr (by rintro x h; cases h; exact hlen), hp, ?_⟩
  rw [hp]
  exact fun _ => rfl

end Sys2Proof.Proofs.Issuing

/-! Statements of 42_physical_module.md sections 1 and 2: the module's acceptance of the issued command. -/

namespace Sys2Proof.Proofs.Acceptance

open Sys2Proof.Machine Sys2Proof.Proofs.Parts Sys2Proof.Proofs.Issuing

/-! ### The ways an acceptance can go -/

section Ways

variable {s : State} {cmd : Command}

theorem acceptBus_of_command (h : s.sched.cmdBus = some cmd) : acceptBus s = accept cmd s := by
  simp only [acceptBus, h]

/-- Acceptance of a command with a commit is its effect behind the checks of R141. -/
theorem acceptChecked_of_passes (ho : operandFault s.cfg cmd = none)
    (hk : constraint s.cfg s.M s.cycle (bankOf cmd).toNat (kindOf cmd) = .none) (effect : State → State) :
    acceptChecked cmd effect s = effect s := by
  simp only [acceptChecked, ho, hk, if_true]

/-- Steps 5 to 7 of R141. -/
theorem accept_of_operandFault (hf : s.fatal.flag = false) (hc : hasCommit cmd = true) {v : Violation}
    (ho : operandFault s.cfg cmd = some v) : accept cmd s = withFatal .physical .accept v.1 v.2 s := by
  have hchecked (effect : State → State) :
      acceptChecked cmd effect s = withFatal .physical .accept v.1 v.2 s := by
    simp only [acceptChecked, ho]
    exact raiseFatal_live hf ..
  cases cmd with
  | active b r => exact hchecked _
  | read b c ap => exact hchecked _
  | write b c u ap => exact hchecked _
  | precharge b => exact hchecked _
  | prechargeAll => cases hc
  | dummy k => cases hc
  | illegal k => cases hc

/-- Step 8 of R141. -/
theorem accept_of_constraint (hf : s.fatal.flag = false) (hc : hasCommit cmd = true)
    (ho : operandFault s.cfg cmd = none) {k : Constraint}
    (hk : constraint s.cfg s.M s.cycle (bankOf cmd).toNat (kindOf cmd) = k) (hne : k ≠ .none) :
    accept cmd s = withFatal .physical .accept .constraintViolated k.code.toNat s := by
  have hchecked (effect : State → State) :
      acceptChecked cmd effect s = withFatal .physical .accept .constraintViolated k.code.toNat s := by
    simp only [acceptChecked, ho, hk, if_neg hne]
    exact raiseFatal_live hf ..
  cases cmd with
  | active b r => exact hchecked _
  | read b c ap => exact hchecked _
  | write b c u ap => exact hchecked _
  | precharge b => exact hchecked _
  | prechargeAll => cases hc
  | dummy k => cases hc
  | illegal k => cases hc

end Ways

/-! ### Accepted commands -/

/-- Settles O24: the commit of 41 R124 on `M` and the row marker of its bank. -/
theorem moduleAcceptsActive : Obligations.ModuleAcceptsActive := by
  intro s b row hs hbus hb hrow hk
  obtain ⟨_, _, hM, hO, _⟩ := hs
  have ho := (operandFault_active_none_iff s.cfg b row).2 ⟨hb, hrow⟩
  have ha : acceptBus s = acceptActive b row s :=
    (acceptBus_of_command hbus).trans (acceptChecked_of_passes (cmd := .active b row) ho hk _)
  rw [ha]
  refine ⟨rfl, otherBanksKept_of_update rfl, bankAt_of_update rfl (hM ▸ hb), rfl, rfl, rfl, ?_, fun b' hne => ?_⟩
  · simp [openRowAt, acceptActive, List.getD_eq_getElem?_getD, hO, hb]
  · simp [openRowAt, acceptActive, List.getD_eq_getElem?_getD, hne.symm]

theorem memRead_eq_map_range (mi : MemInit) (m : Memory) (b r c n : Nat) :
    memRead mi m b r c n = (List.range n).map fun i => readWord mi m (wordAddr b r (c + i)) := by
  refine List.ext_getElem? fun i => ?_
  by_cases hi : i < n
  · rw [memRead_getElem mi m b r c n i hi]
    simp [hi]
  · simp [hi]

/-- The burst an accepted Read samples (43 R175). -/
theorem readBurst_eq (s : State) (b : BitVec 16) (row : BitVec 32) (c : Nat) :
    readBurst s b row c =
      { len := BitVec.ofNat 6 s.cfg.BL
        slots := (List.range s.cfg.BL).map fun i => { word := s.wordAt b.toNat row.toNat (c + i), mask := 0xF } } := by
  rw [readBurst, memRead_eq_map_range, List.map_map]
  rfl

theorem acceptRead_of_open {s : State} {b : BitVec 16} {row : BitVec 32} (h : openRowAt s b.toNat = some row)
    (col : BitVec 32) (ap : Bool) :
    acceptRead b col ap s =
      (s.setM (commitRead s.cfg s.cycle b ap s.M)).setPhys
        { s.phys with
          dataPins := s.phys.dataPins ++ pinItems (s.cycle + s.cfg.lat.CAS) (btt s.cfg) .read
          readout :=
            s.phys.readout ++
              [{ ts := s.cycle + s.cfg.lat.CAS + btt s.cfg, burst := readBurst s b row col.toNat }] } := by
  simp only [acceptRead, h]

theorem acceptWrite_of_open {s : State} {b : BitVec 16} {row : BitVec 32} (h : openRowAt s b.toNat = some row)
    (col : BitVec 32) (burst : Burst) (ap : Bool) :
    acceptWrite b col burst ap s =
      (s.setM (commitWrite s.cfg s.cycle b ap s.M)).setPhys
        { s.phys with
          mem := memWrite s.cfg.memInit s.phys.mem b.toNat row.toNat col.toNat (burst.slots.take s.cfg.BL)
          dataPins := s.phys.dataPins ++ pinItems (s.cycle + s.cfg.lat.WL) (btt s.cfg) .write
          readin := s.phys.readin ++ [{ ts := s.cycle + s.cfg.lat.WL + btt s.cfg, burst := burst }] } := by
  simp only [acceptWrite, h]

/-- Settles O25: the commit of 41 R125 on `M`, the beats, and the burst of `readBurst_eq`. -/
theorem moduleAcceptsRead : Obligations.ModuleAcceptsRead := by
  intro s b col row ap hs hbus hb hcol hk hrow
  have ho := (operandFault_read_none_iff s.cfg b col ap).2 ⟨hb, hcol⟩
  have hM : b.toNat < s.M.banks.length := hs.2.2.1 ▸ hb
  have ha : acceptBus s = acceptRead b col ap s :=
    (acceptBus_of_command hbus).trans (acceptChecked_of_passes (cmd := .read b col ap) ho hk _)
  rw [ha, acceptRead_of_open hrow, readBurst_eq]
  exact ⟨rfl, otherBanksKept_of_update rfl, bankAt_of_update rfl hM, rfl, rfl, rfl, fun _ => rfl⟩

/-- A well-formed burst of `BL` words is stored whole. -/
theorem take_slots {cfg : Cfg} (hv : cfgValid cfg = true) {burst : Burst} (hw : burst.wellFormed = true)
    (hlen : burst.len.toNat = cfg.BL) : burst.slots.length = cfg.BL ∧ burst.slots.take cfg.BL = burst.slots := by
  obtain ⟨_, _, _, _, _, _, _, hBL, _⟩ := (cfgValid_iff cfg).1 hv
  have hslots : burst.slots.length = min burst.len.toNat 32 := beq_iff_eq.1 hw
  have hl : burst.slots.length = cfg.BL := by omega
  exact ⟨hl, List.take_of_length_le hl.le⟩

/-- Settles O26: the commit of 41 R126 on `M`, the beats, the hand-back, and the bytes of the masked write. -/
theorem moduleAcceptsWrite : Obligations.ModuleAcceptsWrite := by
  intro s b col row burst ap hs hm hbus hb hcol hw hlen hk hrow
  have ho := (operandFault_write_none_iff s.cfg b col burst ap).2 ⟨hb, hcol, hlen⟩
  have hM : b.toNat < s.M.banks.length := hs.2.2.1 ▸ hb
  obtain ⟨hslots, htake⟩ := take_slots hs.1 hw hlen
  have ha : acceptBus s = acceptWrite b col burst ap s :=
    (acceptBus_of_command hbus).trans (acceptChecked_of_passes (cmd := .write b col burst ap) ho hk _)
  rw [ha, acceptWrite_of_open hrow, htake]
  refine ⟨rfl, otherBanksKept_of_update rfl, bankAt_of_update rfl hM, rfl, rfl, rfl, fun a hout => ?_,
    fun i slot hi j hj => ?_⟩
  · exact readByte_memWrite_outside hm _ _ _ _ (hslots ▸ hout)
  · exact readByte_memWrite_inside hm _ _ _ _ i slot hi j hj

/-- Settles O27: the commit of 41 R127 on `M`, the identity on a bank with no row to close. -/
theorem moduleAcceptsPrecharge : Obligations.ModuleAcceptsPrecharge := by
  intro s b hs hbus hb hk
  have hM : b.toNat < s.M.banks.length := hs.2.2.1 ▸ hb
  have ha : acceptBus s = acceptPrecharge b s :=
    (acceptBus_of_command hbus).trans
      (acceptChecked_of_passes (cmd := .precharge b) ((operandFault_precharge_none_iff s.cfg b).2 hb) hk _)
  rw [ha, acceptPrecharge]
  refine ⟨rfl, fun hclosed => by rw [commitPrecharge_of_closed hclosed]; rfl, fun hopen => ?_⟩
  rw [commitPrecharge_of_open hopen]
  exact ⟨otherBanksKept_of_update rfl, rfl, rfl, rfl, bankAt_of_update rfl hM⟩

/-! ### Refused commands -/

section NoRow

variable {s : State} {b : BitVec 16} {x : BitVec 32} {burst : Burst} {ap : Bool}

theorem acceptRead_of_closed (hf : s.fatal.flag = false) (h : openRowAt s b.toNat = none) :
    acceptRead b x ap s = withFatal .bank .access .noActiveRow b.toNat s := by
  simp only [acceptRead, h]
  exact raiseFatal_live hf ..

theorem acceptWrite_of_closed (hf : s.fatal.flag = false) (h : openRowAt s b.toNat = none) :
    acceptWrite b x burst ap s = withFatal .bank .access .noActiveRow b.toNat s := by
  simp only [acceptWrite, h]
  exact raiseFatal_live hf ..

end NoRow

/-- Settles O29: the places of `operandFault` in their order, then the constraint, then the row. -/
theorem moduleRefusesAViolation : Obligations.ModuleRefusesAViolation := by
  refine ⟨fun s b x burst ap hf => ?operands, fun s cmd k hf hbus hc ho hk hne => ?constraint⟩
  case constraint => rw [acceptBus_of_command hbus, accept_of_constraint hf hc ho hk hne]
  case operands =>
    have fatal {cmd : Command} {v : Violation} (hbus : s.sched.cmdBus = some cmd) (hc : hasCommit cmd = true)
        (ho : operandFault s.cfg cmd = some v) : acceptBus s = withFatal .physical .accept v.1 v.2 s := by
      rw [acceptBus_of_command hbus, accept_of_operandFault hf hc ho]
    refine ⟨fun hbus hb => ?bank, fun hbus hb hrow => fatal hbus rfl (operandFault_row hb hrow),
      fun hbus hb hcol => ?column, fun hbus hb hcol hlen => fatal hbus rfl (operandFault_length hb hcol hlen),
      fun hbus hb hcol hk hrow => ?read, fun hbus hb hcol hlen hk hrow => ?write⟩
    case bank =>
      rcases hbus with h | h | h | h <;> exact fatal h rfl (operandFault_bank rfl hb)
    case column =>
      rcases hbus with h | h
      · exact fatal h rfl (operandFault_readColumn hb hcol)
      · exact fatal h rfl (operandFault_writeColumn hb hcol)
    case read =>
      have ho := (operandFault_read_none_iff s.cfg b x ap).2 ⟨hb, hcol⟩
      rw [acceptBus_of_command hbus]
      exact (acceptChecked_of_passes (cmd := .read b x ap) ho hk _).trans (acceptRead_of_closed hf hrow)
    case write =>
      have ho := (operandFault_write_none_iff s.cfg b x burst ap).2 ⟨hb, hcol, hlen⟩
      rw [acceptBus_of_command hbus]
      exact (acceptChecked_of_passes (cmd := .write b x burst ap) ho hk _).trans (acceptWrite_of_closed hf hrow)

end Sys2Proof.Proofs.Acceptance

/-! Statements of 00_scope.md R12: a tick opened by S1 and S2, and closed by the rest of S3 and by S4, with the fatals
of its end (42_physical_module.md R150 to R152, 60_exceptions.md R226, R228, R230, R232, R239). -/

namespace Sys2Proof.Proofs.Ticks

open Sys2Proof.Machine Sys2Proof.Proofs.Parts Sys2Proof.Proofs.Operations Sys2Proof.Proofs.Issuing
open Sys2Proof.Proofs.Acceptance Sys2Proof.Proofs.QueueInvariants

/-! ### S2 -/

/-- The policy's state after the transaction hook of S2, if a transaction is presented (44 R191). -/
def toldOf (s : State) : PolicyState :=
  match s.env.txnPort.head?.join with
  | none => s.sched.policyState
  | some txn => Config.onRequestReceived s.cfg s.sched.policyState txn

/-- S2 takes one entry of the transaction port and tells the policy of the transaction in it. -/
theorem takeTxn_eq (s : State) :
    takeTxn s =
      (s.setEnv { s.env with txnPort := s.env.txnPort.tail }).setSched
        { s.sched with policyState := toldOf s } := by
  unfold takeTxn toldOf
  match h : s.env.txnPort with
  | [] =>
    have htail : ([] : List (Option Txn)).tail = s.env.txnPort := h.symm
    rw [htail]
    rfl
  | none :: rest => simp [State.setEnv, State.setSched]
  | some txn :: rest => simp [State.setEnv, State.setSched]

theorem takeReply_of_none {s : State} (h : s.out.replyOut = none) : takeReply s = s := by
  simp only [takeReply, h]

theorem takeReply_of_some {s : State} {reply : Reply} (h : s.out.replyOut = some reply) :
    takeReply s =
      s.setSched
        { s.sched with
          policyState := (Config.onReplyReceived s.cfg s.sched.policyState reply).1
          pendingCompletion := (Config.onReplyReceived s.cfg s.sched.policyState reply).2 } := by
  simp only [takeReply, h]

/-- The reply hook writes the scheduler's state alone. -/
theorem takeReply_frame (s : State) : ∃ x, takeReply s = s.setSched x := by
  cases h : s.out.replyOut with
  | none => exact ⟨s.sched, takeReply_of_none h⟩
  | some reply => exact ⟨_, takeReply_of_some h⟩

/-- A tick's start with the scheduler's state `x` after it: S1 on both copies, one transaction taken. -/
def openedWith (s : State) (x : SchedState) : State :=
  { s with
    phase := .policyRunning
    P := (phaseS1 s).P
    M := (phaseS1 s).M
    phys := { s.phys with openRow := (phaseS1 s).phys.openRow, annot := none }
    sched := x
    env := { s.env with txnPort := s.env.txnPort.tail } }

theorem startTick_eq (s : State) : startTick s = openedWith s (startTick s).sched := by
  obtain ⟨x, hx⟩ := takeReply_frame (takeTxn (phaseS1 (clearTick s)))
  have h : startTick s = openedWith s x := by
    rw [startTick, phaseS2, hx, takeTxn_eq]
    simp only [openedWith, State.setPhase, State.setSched, State.setEnv, phaseS1, clearTick, State.setPhys, State.setM,
      State.setP]
  rw [h]
  rfl

/-- S1 touches nothing the transaction hook reads. -/
theorem toldOf_phaseS1 (s : State) : toldOf (phaseS1 (clearTick s)) = toldOf s := by
  simp only [toldOf, phaseS1_env, clearTick_env, phaseS1_cfg, clearTick_cfg, phaseS1_sched]
  rfl

/-- The transaction hook leaves the reply hook what it told the policy. -/
theorem takeTxn_policyState (s : State) : (takeTxn s).sched.policyState = toldOf s := by
  rw [takeTxn_eq]
  rfl

theorem startTick_of_no_reply {s : State} (h : s.out.replyOut = none) :
    (startTick s).sched.policyState = toldOf s ∧ (startTick s).sched.pendingCompletion = none := by
  have hout : (takeTxn (phaseS1 (clearTick s))).out.replyOut = none := by simpa using h
  rw [startTick, phaseS2, takeReply_of_none hout, State.setPhase_sched, takeTxn_policyState, toldOf_phaseS1, takeTxn_eq]
  exact ⟨rfl, rfl⟩

/-- The reply hook runs on what the transaction hook left (44 R191). -/
theorem startTick_of_reply {s : State} {reply : Reply} (h : s.out.replyOut = some reply) :
    (startTick s).sched.policyState = (Config.onReplyReceived s.cfg (toldOf s) reply).1 ∧
      (startTick s).sched.pendingCompletion = (Config.onReplyReceived s.cfg (toldOf s) reply).2 := by
  have hout : (takeTxn (phaseS1 (clearTick s))).out.replyOut = some reply := by simpa using h
  simp only [startTick, phaseS2, takeReply_of_some hout, State.setPhase_sched, State.setSched_sched,
    takeTxn_policyState, toldOf_phaseS1, takeTxn_cfg, phaseS1_cfg, clearTick_cfg, and_self]

/-- Settles O30: the tick is opened by `startTick`, and the policy is told by whether a reply was drained before. -/
theorem tickOpens : Obligations.TickOpens := by
  intro s hr hp
  rw [openTick_starts hp hr]
  refine ⟨(startTick_eq s).trans (congrArg (openedWith s) (startTick_sched s)), fun h => startTick_of_no_reply h,
    fun reply h => startTick_of_reply h, fun a => ?_⟩
  rw [State.byteAt, startTick_phys, startTick_cfg]
  rfl

/-! ### The end of a tick in which nothing is late -/

theorem drainPins_frame {s : State} (h : ∀ e ∈ s.phys.dataPins, s.cycle ≤ e.ts) :
    drainPins s = (s.setPhys (drainPins s).phys).setOut (drainPins s).out := by
  unfold drainPins
  cases hq : s.phys.dataPins with
  | nil => rfl
  | cons e rest =>
    have he : ¬ e.ts < s.cycle := Nat.not_lt.2 (h e (by simp [hq]))
    simp only [if_neg he]
    split <;> rfl

theorem drainReadout_frame {s : State} (h : ∀ e ∈ s.phys.readout, s.cycle ≤ e.ts) :
    drainReadout s = (s.setPhys (drainReadout s).phys).setOut (drainReadout s).out := by
  unfold drainReadout
  cases hq : s.phys.readout with
  | nil => rfl
  | cons e rest =>
    have he : ¬ e.ts < s.cycle := Nat.not_lt.2 (h e (by simp [hq]))
    simp only [if_neg he]
    split <;> rfl

theorem drainReadin_frame {s : State} (h : ∀ e ∈ s.phys.readin, s.cycle ≤ e.ts) :
    drainReadin s = (s.setPhys (drainReadin s).phys).setOut (drainReadin s).out := by
  unfold drainReadin
  cases hq : s.phys.readin with
  | nil => rfl
  | cons e rest =>
    have he : ¬ e.ts < s.cycle := Nat.not_lt.2 (h e (by simp [hq]))
    simp only [if_neg he]
    split <;> rfl

/-- Acceptance that raises no fatal writes `M` and the module's state, and nothing else. -/
theorem acceptBus_frame {s : State} (hf : s.fatal.flag = false) (ha : (acceptBus s).fatal.flag = false) :
    acceptBus s = (s.setM (acceptBus s).M).setPhys (acceptBus s).phys := by
  refine acceptBus_keeps (I := fun a => a.fatal.flag = false → a = (s.setM a.M).setPhys a.phys) (fun _ => rfl)
    (fun cmd _ ha => ?_) ha
  rcases accept_cases hf cmd with
    ⟨v, d, e, _⟩ | ⟨k, rfl, e⟩ |
      ⟨_, _, _, ⟨e, _⟩ | ⟨b, r, rfl, e⟩ | ⟨b, c, ap, row, rfl, _, e⟩ | ⟨b, c, u, ap, row, rfl, _, e⟩ |
        ⟨b, rfl, e⟩⟩ <;> rw [e] at ha ⊢
  case inl => cases ha
  case inr.inr.inl => cases ha
  case inr.inl =>
    unfold acceptDummy
    split <;> rfl
  all_goals rfl

/-- Where no entry is late before acceptance, none is after it (42 R148). -/
theorem acceptBus_onTime {s : State} :
    ((∀ e ∈ s.phys.dataPins, s.cycle ≤ e.ts) → ∀ e ∈ (acceptBus s).phys.dataPins, s.cycle ≤ e.ts) ∧
      ((∀ e ∈ s.phys.readout, s.cycle ≤ e.ts) → ∀ e ∈ (acceptBus s).phys.readout, s.cycle ≤ e.ts) ∧
      ((∀ e ∈ s.phys.readin, s.cycle ≤ e.ts) → ∀ e ∈ (acceptBus s).phys.readin, s.cycle ≤ e.ts) := by
  obtain ⟨pins, reads, writes, ep, eo, ei, hp, ho, hi⟩ := acceptBus_queues s
  rw [ep, eo, ei]
  exact ⟨fun h => List.forall_mem_append.2 ⟨h, hp⟩, fun h => List.forall_mem_append.2 ⟨h, ho⟩,
    fun h => List.forall_mem_append.2 ⟨h, hi⟩⟩

/-- The three drains of a state. -/
def drains (s : State) : State :=
  drainReadin (drainReadout (drainPins s))

/-- The state S4 starts from: the command accepted, runPolicy's state returned. -/
def accepted (s : State) : State :=
  acceptBus (policyReturns s)

theorem accepted_eq (s : State) : accepted s = (acceptBus s).setSched (policyReturns s).sched :=
  acceptBus_policyReturns s

theorem closeTick_eq {s : State} (hr : running s = true) (hp : s.phase = .policyRunning) :
    closeTick s = phaseS4 (accepted s) :=
  closeTick_completes hp hr

theorem drains_frame {s : State} (hp : ∀ e ∈ s.phys.dataPins, s.cycle ≤ e.ts)
    (ho : ∀ e ∈ s.phys.readout, s.cycle ≤ e.ts) (hi : ∀ e ∈ s.phys.readin, s.cycle ≤ e.ts) :
    drains s = (s.setPhys (drains s).phys).setOut (drains s).out := by
  have h1 := drainPins_frame hp
  have h2 := drainReadout_frame (s := drainPins s) (by simpa using ho)
  have h3 := drainReadin_frame (s := drainReadout (drainPins s)) (by simpa using hi)
  rw [drains, h3, h2, h1]
  rfl

theorem drains_phys (s : State) :
    (drains s).phys =
      { s.phys with
        dataPins := drained PinItem.ts s.cycle s.phys.dataPins
        readout := drained BurstItem.ts s.cycle s.phys.readout
        readin := drained BurstItem.ts s.cycle s.phys.readin } := by
  simp [drains]

/-- S4 of a tick in which nothing raises: the drains, the scheduler's outputs, and the next cycle (00 R12). -/
theorem phaseS4_closes {s : State} (hf : s.fatal.flag = false) (hp : ∀ e ∈ s.phys.dataPins, s.cycle ≤ e.ts)
    (ho : ∀ e ∈ s.phys.readout, s.cycle ≤ e.ts) (hi : ∀ e ∈ s.phys.readin, s.cycle ≤ e.ts)
    (hpub : s.sched.published = true) (hc : s.cycle ≠ maxCycle) :
    phaseS4 s =
      (((schedulerOutputs (drains s)).setCycle (s.cycle + 1)).setPhase .betweenTicks).setPhys
        { (drains s).phys with annot := none } := by
  obtain ⟨hfatal, e⟩ := phaseS4_onTime hf hp ho hi
  have hlive : (schedulerOutputs (drains s)).fatal.flag = false := by
    rw [schedulerOutputs_fatal, drains, hfatal, hf]
  have hpub' : (schedulerOutputs (drains s)).sched.published = true := by simpa [schedulerOutputs, drains] using hpub
  have hcycle : (schedulerOutputs (drains s)).cycle = s.cycle := by simp [drains]
  rw [e, ← drains, checkPublished_of_published hpub', whileLive_live hlive, advanceCycle_of_ne (hcycle ▸ hc), hcycle,
    schedulerOutputs_phys]

/-- The state at the end of a tick in which nothing stands in the way. -/
theorem closeTick_ready {s : State} (h : tickReady s) (ha : (acceptBus s).fatal.flag = false) :
    closeTick s =
      { s with
        cycle := s.cycle + 1
        phase := .betweenTicks
        M := (acceptBus s).M
        phys :=
          { (acceptBus s).phys with
            dataPins := drained PinItem.ts s.cycle (acceptBus s).phys.dataPins
            readout := drained BurstItem.ts s.cycle (acceptBus s).phys.readout
            readin := drained BurstItem.ts s.cycle (acceptBus s).phys.readin
            annot := none }
        sched :=
          { s.sched with
            schedStateOut := s.sched.pendingState
            policyState := Config.runPolicy s.sched.policyState (policyView s) }
        out := { (drains (accepted s)).out with completionOut := s.sched.pendingCompletion } } := by
  obtain ⟨hr, hphase, hpub, hc, hp, ho, hi⟩ := h
  obtain ⟨op, oo, oi⟩ := acceptBus_onTime (s := s)
  have hframe := acceptBus_frame ((running_iff s).1 hr).1 ha
  have hx := accepted_eq s
  have hphys : (accepted s).phys = (acceptBus s).phys := by rw [hx, State.setSched_phys]
  have hcycle : (accepted s).cycle = s.cycle := by rw [hx, State.setSched_cycle, acceptBus_cycle]
  have hp' : ∀ e ∈ (accepted s).phys.dataPins, (accepted s).cycle ≤ e.ts := by rw [hphys, hcycle]; exact op hp
  have ho' : ∀ e ∈ (accepted s).phys.readout, (accepted s).cycle ≤ e.ts := by rw [hphys, hcycle]; exact oo ho
  have hi' : ∀ e ∈ (accepted s).phys.readin, (accepted s).cycle ≤ e.ts := by rw [hphys, hcycle]; exact oi hi
  have hf' : (accepted s).fatal.flag = false := by rw [hx]; exact ha
  have hpub' : (accepted s).sched.published = true := by rw [hx]; exact hpub
  rw [closeTick_eq hr hphase, phaseS4_closes hf' hp' ho' hi' hpub' (hcycle ▸ hc), drains_phys, hphys, hcycle,
    drains_frame hp' ho' hi', hx, hframe]
  simp only [schedulerOutputs, State.setCycle, State.setPhase, State.setPhys, State.setOut, State.setSched, State.setM,
    policyReturns, hpub, if_true]

/-- The outputs of three drains in which no entry is late (42 R151, R152). -/
theorem drains_out {s : State} (hp : ∀ e ∈ s.phys.dataPins, s.cycle ≤ e.ts)
    (ho : ∀ e ∈ s.phys.readout, s.cycle ≤ e.ts) (hi : ∀ e ∈ s.phys.readin, s.cycle ≤ e.ts) :
    (drains s).out.annotOut = s.phys.annot.map (fun k => { tag := .protocolConstraint, kind := k }) ∧
      (∀ e rest, s.phys.dataPins = e :: rest → e.ts = s.cycle → (drains s).out.pinsOut = some e.dpi) ∧
      ((∀ e rest, s.phys.dataPins = e :: rest → e.ts ≠ s.cycle) → (drains s).out.pinsOut = none) ∧
      (∀ e rest, s.phys.readin = e :: rest → e.ts = s.cycle →
        (drains s).out.replyOut = some { isWrite := true, burst := e.burst }) ∧
      ((∀ e rest, s.phys.readin = e :: rest → e.ts ≠ s.cycle) →
        (∀ e rest, s.phys.readout = e :: rest → e.ts = s.cycle →
          (drains s).out.replyOut = some { isWrite := false, burst := e.burst }) ∧
        ((∀ e rest, s.phys.readout = e :: rest → e.ts ≠ s.cycle) → (drains s).out.replyOut = none)) := by
  obtain ⟨_, _, _, pannot, pdue, pnot⟩ := drainPins_onTime hp
  obtain ⟨_, _, oout, odue, onot⟩ := drainReadout_onTime (s := drainPins s) (by simpa using ho)
  obtain ⟨_, _, iout, idue, inot⟩ := drainReadin_onTime (s := drainReadout (drainPins s)) (by simpa using hi)
  simp only [drainPins_phys, drainPins_cycle, drainReadout_phys, drainReadout_cycle] at odue onot idue inot
  have hpins : (drains s).out.pinsOut = (drainPins s).out.pinsOut := by rw [drains, iout, oout]
  have hannot : (drains s).out.annotOut = (drainPins s).out.annotOut := by rw [drains, iout, oout]
  rw [hpins, hannot, drains]
  refine ⟨pannot, fun e rest hq h => (pdue e rest hq h).2, fun h => (pnot h).2, fun e rest hq h => (idue e rest hq h).2,
    fun h => ⟨fun e rest hq hts => ?_, fun hn => ?_⟩⟩
  · rw [(inot h).2, (odue e rest hq hts).2]
  · rw [(inot h).2, (onot hn).2]

/-- Settles O31: the state of `closeTick_ready`, with what `drains_out` says of the outputs. -/
theorem tickCloses : Obligations.TickCloses := by
  intro s h ha
  have ht := closeTick_ready h ha
  obtain ⟨hr, hphase, hpub, hc, hp, ho, hi⟩ := h
  obtain ⟨op, oo, oi⟩ := acceptBus_onTime (s := s)
  have hphys : (accepted s).phys = (acceptBus s).phys := by rw [accepted_eq, State.setSched_phys]
  have hcycle : (accepted s).cycle = s.cycle := by rw [accepted_eq, State.setSched_cycle, acceptBus_cycle]
  have hout := drains_out (s := accepted s)
  rw [hphys, hcycle] at hout
  obtain ⟨hannot, pdue, pnot, idue, inot⟩ := hout (op hp) (oo ho) (oi hi)
  dsimp only
  rw [ht]
  refine ⟨rfl, fun a => ?memory, rfl, hannot, fun e rest hq hts => ⟨drained_of_due hq hts, pdue e rest hq hts⟩,
    fun hn => ⟨drained_of_not_due hn, pnot hn⟩, fun e rest hq hts => drained_of_due hq hts,
    fun hn => drained_of_not_due hn, fun e rest hq hts => drained_of_due hq hts, fun hn => drained_of_not_due hn,
    fun hne => ⟨fun e rest hq hts => ?read, idue, fun hno hni => (inot hni).2 hno⟩⟩
  case memory => rw [State.byteAt, State.byteAt, acceptBus_cfg]
  case read =>
    refine (inot fun e' rest' hq' hts' => ?_).1 e rest hq hts
    exact hne e (by simp [hq]) e' (by simp [hq']) (hts.trans hts'.symm)

/-- Settles O28: a Dummy's acceptance is `acceptDummy`, and its tick closes as `tickCloses` says. -/
theorem dummyAnnotatesABusyBus : Obligations.DummyAnnotatesABusyBus := by
  intro s k h hnone hbus
  have ha : acceptBus s = acceptDummy k s := acceptBus_of_command hbus
  have hf : s.fatal.flag = false := ((running_iff s).1 h.1).1
  have hfree : (acceptBus s).fatal.flag = false := by rw [ha, acceptDummy_fatal, hf]
  obtain ⟨_, _, _, hannot, _⟩ := tickCloses s h hfree
  have ht := closeTick_ready h hfree
  dsimp only
  refine ⟨?_, ?_, ?_, fun a => ?_, ?_, fun hbusy => ?_, fun hidle => ?_⟩
  · rw [ht]
    exact (congrArg State.M ha).trans (acceptDummy_M k s)
  · rw [ht]
  · rw [ht]
    exact (congrArg (fun a => a.phys.openRow) ha).trans (acceptDummy_openRow k s)
  · rw [ht]
    exact congrArg (fun m => readByte s.cfg.memInit m a)
      ((congrArg (fun a => a.phys.mem) ha).trans (acceptDummy_mem k s))
  · rw [ht]
  · rw [hannot, ha, acceptDummy, if_pos ((busBusy_iff s).2 hbusy)]
    rfl
  · have hfree : ¬ busBusy s = true := fun hb => by
      obtain ⟨e, rest, hq, hts⟩ := (busBusy_iff s).1 hb
      exact hidle e rest hq hts
    rw [hannot, ha, acceptDummy, if_neg hfree, hnone]
    rfl

/-! ### The fatals of a tick's end -/

/-- The five numbers of a record just written (60 R222). -/
theorem fatalCodes_withFatal (c : Component) (o : Operation) (v : Invariant) {d : Nat} (hd : d < 2 ^ 64) (s : State) :
    fatalCodes (withFatal c o v d s).fatal = (1, componentCode c, operationCode o, invariantCode v, d) := by
  simp only [withFatal, fatalCodes, if_true, BitVec.toNat_ofNat, Nat.mod_eq_of_lt hd]

section Fatals

variable {s : State}

theorem phaseS4_of_latePins (hf : s.fatal.flag = false) {e : PinItem} {rest : List PinItem}
    (hq : s.phys.dataPins = e :: rest) (hlate : e.ts < s.cycle) :
    phaseS4 s = withFatal .physical .drain .queueLate e.ts s := by
  have hpins : drainPins s = withFatal .physical .drain .queueLate e.ts s := by
    simp only [drainPins, hq, if_pos hlate]
    exact raiseFatal_live hf ..
  have hstop : (drainPins s).fatal.flag = true := by rw [hpins]; rfl
  rw [← hpins]
  simp only [phaseS4, whileLive_live hf, whileLive_halted hstop]

theorem phaseS4_of_lateReadout (hf : s.fatal.flag = false) (hp : ∀ e ∈ s.phys.dataPins, s.cycle ≤ e.ts)
    {e : BurstItem} {rest : List BurstItem} (hq : s.phys.readout = e :: rest) (hlate : e.ts < s.cycle) :
    phaseS4 s = withFatal .physical .drain .queueLate e.ts (drainPins s) := by
  obtain ⟨hfatal, _⟩ := drainPins_onTime hp
  have hlive : (drainPins s).fatal.flag = false := by rw [hfatal, hf]
  have hreadout : drainReadout (drainPins s) = withFatal .physical .drain .queueLate e.ts (drainPins s) := by
    simp only [drainReadout, drainPins_phys, drainPins_cycle, hq, if_pos hlate]
    exact raiseFatal_live hlive ..
  have hstop : (drainReadout (drainPins s)).fatal.flag = true := by rw [hreadout]; rfl
  rw [← hreadout]
  simp only [phaseS4, whileLive_live hf, whileLive_live hlive, whileLive_halted hstop]

theorem phaseS4_of_lateReadin (hf : s.fatal.flag = false) (hp : ∀ e ∈ s.phys.dataPins, s.cycle ≤ e.ts)
    (ho : ∀ e ∈ s.phys.readout, s.cycle ≤ e.ts) {e : BurstItem} {rest : List BurstItem}
    (hq : s.phys.readin = e :: rest) (hlate : e.ts < s.cycle) :
    phaseS4 s = withFatal .physical .drain .queueLate e.ts (drainReadout (drainPins s)) := by
  obtain ⟨hfatal, _⟩ := drainPins_onTime hp
  obtain ⟨hfatal', _⟩ := drainReadout_onTime (s := drainPins s) (by simpa using ho)
  have hlive : (drainPins s).fatal.flag = false := by rw [hfatal, hf]
  have hlive' : (drainReadout (drainPins s)).fatal.flag = false := by rw [hfatal', hlive]
  have hreadin :
      drainReadin (drainReadout (drainPins s)) =
        withFatal .physical .drain .queueLate e.ts (drainReadout (drainPins s)) := by
    simp only [drainReadin, drainReadout_phys, drainReadout_cycle, drainPins_phys, drainPins_cycle, hq, if_pos hlate]
    exact raiseFatal_live hlive' ..
  have hstop : (drainReadin (drainReadout (drainPins s))).fatal.flag = true := by rw [hreadin]; rfl
  rw [← hreadin]
  simp only [phaseS4, whileLive_live hf, whileLive_live hlive, whileLive_live hlive', whileLive_halted hstop]

section OnTime

variable (hf : s.fatal.flag = false) (hp : ∀ e ∈ s.phys.dataPins, s.cycle ≤ e.ts)
  (ho : ∀ e ∈ s.phys.readout, s.cycle ≤ e.ts) (hi : ∀ e ∈ s.phys.readin, s.cycle ≤ e.ts)

include hf hp ho hi

/-- A tick that ends without a published state (60 R239). -/
theorem phaseS4_of_unpublished (hpub : s.sched.published = false) :
    phaseS4 s = withFatal .scheduler .endOfTick .publishMissing 0 (schedulerOutputs (drains s)) := by
  obtain ⟨hfatal, e⟩ := phaseS4_onTime hf hp ho hi
  have hlive : (schedulerOutputs (drains s)).fatal.flag = false := by rw [schedulerOutputs_fatal, drains, hfatal, hf]
  have hpub' : (schedulerOutputs (drains s)).sched.published = false := by simpa [schedulerOutputs, drains] using hpub
  rw [e, ← drains, checkPublished_of_unpublished hpub', raiseFatal_live hlive]
  exact whileLive_halted rfl _

/-- The last cycle number (60 R232). -/
theorem phaseS4_of_lastCycle (hpub : s.sched.published = true) (hc : s.cycle = maxCycle) :
    phaseS4 s = withFatal .engine .endOfTick .cycleOverflow 0 (schedulerOutputs (drains s)) := by
  obtain ⟨hfatal, e⟩ := phaseS4_onTime hf hp ho hi
  have hlive : (schedulerOutputs (drains s)).fatal.flag = false := by rw [schedulerOutputs_fatal, drains, hfatal, hf]
  have hpub' : (schedulerOutputs (drains s)).sched.published = true := by simpa [schedulerOutputs, drains] using hpub
  have hcycle : (schedulerOutputs (drains s)).cycle = maxCycle := by simpa [drains] using hc
  rw [e, ← drains, checkPublished_of_published hpub', whileLive_live hlive, advanceCycle_of_eq hcycle,
    raiseFatal_live hlive]

end OnTime

end Fatals

/-- Settles O33: publishState asks for `published` first, and S4 for it last. -/
theorem publishExactlyOnce : Obligations.PublishExactlyOnce := by
  refine ⟨fun s state hr hpub hlen => ?second, fun s hr hphase hpub ha hp ho hi => ?missing⟩
  case second =>
    have htwice : publish state s = withFatal .scheduler .publish .publishTwice 0 s :=
      (if_pos hpub).trans (raiseFatal_live ((running_iff s).1 hr).1 ..)
    exact (exec_running hr (by rintro x h; cases h; exact hlen)).trans (congrArg _ htwice)
  case missing =>
    obtain ⟨op, oo, oi⟩ := acceptBus_onTime (s := s)
    have hx := accepted_eq s
    rw [closeTick_eq hr hphase,
      phaseS4_of_unpublished (by rw [hx]; exact ha) (by rw [hx]; simpa using op hp) (by rw [hx]; simpa using oo ho)
        (by rw [hx]; simpa using oi hi) (by rw [hx]; exact hpub)]
    refine ⟨fatalCodes_withFatal _ _ _ (by decide) _, ?_, rfl⟩
    simp [withFatal, drains, hx]

/-- Settles O34: S4 stops at the first late head in the order of the drains, or at the last cycle number. -/
theorem lateHeadOrLastCycleIsFatal : Obligations.LateHeadOrLastCycleIsFatal := by
  intro s hr hphase ha
  obtain ⟨op, oo, oi⟩ := acceptBus_onTime (s := s)
  have hx := accepted_eq s
  have hphys : (accepted s).phys = (acceptBus s).phys := by rw [hx, State.setSched_phys]
  have hcycle : (accepted s).cycle = s.cycle := by rw [hx, State.setSched_cycle, acceptBus_cycle]
  have hf : (accepted s).fatal.flag = false := by rw [hx]; exact ha
  dsimp only
  rw [closeTick_eq hr hphase]
  simp only [← hphys, ← hcycle] at op oo oi ⊢
  refine ⟨fun e rest hq hlate hfits => ?pins, fun hp => ⟨fun e rest hq hlate hfits => ?readout, fun ho =>
    ⟨fun e rest hq hlate hfits => ?readin, fun hi hpub hc => ?last⟩⟩⟩
  case pins =>
    rw [phaseS4_of_latePins hf hq hlate]
    exact ⟨fatalCodes_withFatal _ _ _ hfits _, rfl⟩
  case readout =>
    rw [phaseS4_of_lateReadout hf (op hp) hq hlate]
    exact ⟨fatalCodes_withFatal _ _ _ hfits _, drainPins_cycle _⟩
  case readin =>
    rw [phaseS4_of_lateReadin hf (op hp) (oo ho) hq hlate]
    exact ⟨fatalCodes_withFatal _ _ _ hfits _, by simp [withFatal]⟩
  case last =>
    rw [phaseS4_of_lastCycle hf (op hp) (oo ho) (oi hi) (by rw [hx]; exact hpub) hc]
    exact ⟨fatalCodes_withFatal _ _ _ (by decide) _, by simp [withFatal, drains]⟩

/-- A tick whose command the module refuses stops there, before S4. -/
theorem closeTick_of_refused {s : State} {cmd : Command} (hr : running s = true) (hphase : s.phase = .policyRunning)
    (hbus : s.sched.cmdBus = some cmd) {v : Invariant} {d : Nat}
    (ha : ∀ x, x.fatal.flag = false → accept cmd x = withFatal .physical .accept v d x) :
    closeTick s = withFatal .physical .accept v d (policyReturns s) := by
  have hx : accepted s = withFatal .physical .accept v d (policyReturns s) :=
    (acceptBus_of_command (s := policyReturns s) hbus).trans (ha (policyReturns s) ((running_iff s).1 hr).1)
  rw [closeTick_eq hr hphase, hx]
  exact phaseS4_halted rfl

/-- An unchecked command that every acceptance refuses is issued, and ends the tick with its fatal. -/
theorem unchecked_refused {s : State} {i : Instr} {cmd : Command} {v : Invariant} {d : Nat} (hd : d < 2 ^ 64)
    (hr : running s = true) (hfree : s.sched.issued = false) (hphase : s.phase = .policyRunning)
    (hi : ∀ x, i ≠ .publishState x) (hact : action i s = issueUnchecked cmd s)
    (ha : ∀ x, x.fatal.flag = false → accept cmd x = withFatal .physical .accept v d x) :
    ∃ t, exec i s = .next t ∧ t = withCommand cmd s ∧
      fatalCodes (closeTick t).fatal = (1, 1, 5, invariantCode v, d) ∧ (closeTick t).P = s.P ∧ (closeTick t).M = s.M ∧
      (closeTick t).phys = s.phys ∧ (closeTick t).cycle = s.cycle ∧ (closeTick t).out = OutRegs.invalid := by
  have ht : closeTick (withCommand cmd s) = withFatal .physical .accept v d (policyReturns (withCommand cmd s)) :=
    closeTick_of_refused (s := withCommand cmd s) hr hphase rfl ha
  refine ⟨withCommand cmd s, ?_, rfl, ?_⟩
  · rw [exec_of_running hr hi, hact, issueUnchecked_free hfree]
  · rw [ht]
    exact ⟨fatalCodes_withFatal _ _ _ hd _, rfl, rfl, rfl, rfl, rfl⟩

/-- Settles O19: the module refuses Precharge(ALL) whatever its state (60 R228). -/
theorem prechargeAllIsFatal : Obligations.PrechargeAllIsFatal := fun _ hr hfree hphase =>
  unchecked_refused (i := .prechargeAll) (cmd := .prechargeAll) (v := .prechargeAllUnsupported) (d := 0)
    (by decide) hr hfree hphase (by simp) rfl fun _ hf => raiseFatal_live hf ..

/-- Settles O20: the module refuses the reserved kinds whatever its state (60 R230). -/
theorem reservedKindsAreFatal : Obligations.ReservedKindsAreFatal := by
  intro s i k hr hfree hphase hkind
  have refused (hi : ∀ x, i ≠ .publishState x) (hact : action i s = issueUnchecked (.illegal k) s) :=
    unchecked_refused (cmd := .illegal k) (v := .unknownCommand) (d := k.toNat) (lt_trans k.isLt (by decide))
      hr hfree hphase hi hact fun _ hf => raiseFatal_live hf ..
  rcases hkind with ⟨rfl, rfl⟩ | ⟨rfl, rfl⟩ | ⟨rfl, rfl⟩
  · exact refused (by simp) rfl
  · exact refused (by simp) rfl
  · exact refused (by simp) rfl

end Sys2Proof.Proofs.Ticks

/-! Statements of 43_burst_buffer.md: the masked merge (R171) and the raw operations (R181, R182, R184). -/

namespace Sys2Proof.Proofs.RawAccess

open Sys2Proof.Machine Sys2Proof.Proofs.Parts Sys2Proof.Proofs.Operations Sys2Proof.Proofs.Issuing
open Sys2Proof.Proofs.Acceptance Sys2Proof.Proofs.Raw

/-! ### The masked merge -/

/-- Bit `k` of byte `j` of a word. -/
theorem getLsbD_byteOf (w : Word) {j k : Nat} (hk : k < 8) : (byteOf w j).getLsbD k = w.getLsbD (8 * j + k) := by
  simp [byteOf, hk]

/-- Each bit of a merge is the new bit where the mask bit of its byte is 1. -/
theorem getLsbD_merge (old new : Word) (m : BitVec 4) {i : Nat} (hi : i < 32) :
    (merge old new m).getLsbD i = if m.getLsbD (i / 8) then new.getLsbD i else old.getLsbD i := by
  have hk : i % 8 < 8 := Nat.mod_lt _ (by decide)
  have hbit (w : Word) : (byteOf w (i / 8)).getLsbD (i % 8) = w.getLsbD i := by
    rw [getLsbD_byteOf w hk, Nat.div_add_mod]
  rw [← hbit (merge old new m), byteOf_merge old new m (i / 8) (by omega),
    apply_ite (fun b => BitVec.getLsbD b (i % 8)), hbit, hbit]

/-- Settles O39: the bytes are `byteOf_merge`; the formula agrees with it bit by bit. -/
theorem mergeFormula : Obligations.MergeFormula := by
  intro old new m
  refine ⟨fun j hj => byteOf_merge old new m j hj, fun e he => BitVec.eq_of_getLsbD_eq fun i hi => ?_⟩
  rw [getLsbD_merge old new m hi]
  simp only [BitVec.getLsbD_or, BitVec.getLsbD_and, BitVec.getLsbD_not, he i hi, hi, decide_true, Bool.true_and]
  cases m.getLsbD (i / 8) <;> simp

/-! ### The bytes a raw read answers -/

theorem bytesOfWords_length (ws : List Word) : (bytesOfWords ws).length = 4 * ws.length := by
  induction ws with
  | nil => rfl
  | cons w rest ih => simp only [bytesOfWords, List.length_cons, ih]; omega

theorem bytesOfWords_getElem? (ws : List Word) (k : Nat) :
    (bytesOfWords ws)[k]? = ws[k / 4]?.map fun w => byteOf w (k % 4) := by
  induction ws generalizing k with
  | nil => rfl
  | cons w rest ih =>
    rcases Nat.lt_or_ge k 4 with hlt | hge
    · rw [bytesOfWords_cons_getElem_lt w rest hlt, Nat.div_eq_of_lt hlt, Nat.mod_eq_of_lt hlt]
      rfl
    · obtain ⟨j, rfl⟩ := Nat.exists_eq_add_of_le' hge
      rw [bytesOfWords_cons_getElem_add, ih, Nat.add_div_right j (by decide), Nat.add_mod_right]
      rfl

/-- Settles O35: the checks pass, and the answer is the bytes of the words of the range. -/
theorem readRawCompletes : Obligations.ReadRawCompletes := by
  intro s b r c n hc hb hr hn hcol
  let words := memRead s.cfg.memInit s.phys.mem b.toNat r.toNat c.toNat (n.toNat / 4)
  have hread : rawRead b r c n s = s.setEnv { s.env with rawOut := some (bytesOfWords words) } := by
    simp only [rawRead, (rawFault_none_iff s.cfg b r c n).2 ⟨hb, hr, hn, hcol⟩, words]
  have hexec : exec (.readRaw b r c n) s = .next (rawRead b r c n s) :=
    congrArg Host.Outcome.next (if_pos (by rw [hc]; rfl))
  have hwords : words = (List.range (n.toNat / 4)).map fun i => s.wordAt b.toNat r.toNat (c.toNat + i) :=
    memRead_eq_map_range ..
  refine ⟨_, bytesOfWords words, hexec, hread, ?_, fun k hk => ?_, fun a => ?_⟩
  · rw [bytesOfWords_length, hwords, List.length_map, List.length_range]
    omega
  · have hi : k / 4 < n.toNat / 4 := by omega
    rw [bytesOfWords_getElem?, hwords, List.getElem?_map, List.getElem?_range hi]
    rfl
  · rw [hread]
    rfl

/-- Settles O36: it is PRELOAD, which does all that (O37). -/
theorem writeRawCompletes : Obligations.WriteRawCompletes := by
  intro s b r c n data hm hrun hb hr hn hc hd
  obtain ⟨hsame, hpreload⟩ := preloadIsWriteRaw s b r c n data
  rw [← hsame]
  exact hpreload hm hrun hb hr hn hc hd

/-! ### The fatals -/

section Faults

variable {cfg : Cfg} {b : BitVec 16} {r c n : BitVec 32}

theorem rawFault_bank (hb : cfg.NB ≤ b.toNat) : rawFault cfg b r c n = some (.outOfRange, b.toNat) :=
  if_pos hb

theorem rawFault_row (hb : b.toNat < cfg.NB) (hr : cfg.NR ≤ r.toNat) :
    rawFault cfg b r c n = some (.outOfRange, r.toNat) := by
  rw [rawFault, if_neg (by omega), if_pos hr]

theorem rawFault_length (hb : b.toNat < cfg.NB) (hr : r.toNat < cfg.NR) (hn : n.toNat % 4 ≠ 0) :
    rawFault cfg b r c n = some (.rawLength, n.toNat) := by
  rw [rawFault, if_neg (by omega), if_neg (by omega), if_pos hn]

theorem rawFault_column (hb : b.toNat < cfg.NB) (hr : r.toNat < cfg.NR) (hn : n.toNat % 4 = 0)
    (hc : cfg.NC < c.toNat + n.toNat / 4) : rawFault cfg b r c n = some (.outOfRange, c.toNat) := by
  rw [rawFault, if_neg (by omega), if_neg (by omega), if_neg (not_not.2 hn), if_pos hc]

end Faults

/-- A raw access that fails a check takes its fatal, whichever of the three operations it is (43 R184). -/
theorem exec_of_rawFault {s : State} {i : Instr} {b : BitVec 16} {r c n : BitVec 32} {data : List Byte} {v : Violation}
    (hrun : running s = true) (hi : i = .readRaw b r c n ∨ i = .writeRaw b r c n data ∨ i = .preload b r c n data)
    (hf : rawFault s.cfg b r c n = some v) : exec i s = .next (withFatal .bank .raw v.1 v.2 s) := by
  have hread : rawRead b r c n s = withFatal .bank .raw v.1 v.2 s := by
    rw [rawRead, hf]
    exact raiseFatal_live ((running_iff s).1 hrun).1 ..
  have hwrite : rawWrite b r c n data s = withFatal .bank .raw v.1 v.2 s := by
    rw [rawWrite, hf]
    exact raiseFatal_live ((running_iff s).1 hrun).1 ..
  rcases hi with rfl | rfl | rfl
  · rw [exec_of_running hrun (by simp), action, hread]
  · rw [exec_of_running hrun (by simp), action, hwrite]
  · rw [exec_of_running hrun (by simp), action, hwrite]

/-- Settles O38: the four places of `rawFault`, and the reserved op before them. -/
theorem rawFatals : Obligations.RawFatals := by
  refine ⟨fun s hrun => ?_, fun s b r c n data i hrun hi => ⟨fun hb => ?_, fun hb hr => ?_, fun hb hr hn => ?_,
    fun hb hr hn hc => ?_⟩⟩
  · rw [exec_of_running hrun (by simp), action, raiseFatal_live ((running_iff s).1 hrun).1]
  · exact exec_of_rawFault hrun hi (rawFault_bank hb)
  · exact exec_of_rawFault hrun hi (rawFault_row hb hr)
  · exact exec_of_rawFault hrun hi (rawFault_length hb hr hn)
  · exact exec_of_rawFault hrun hi (rawFault_column hb hr hn hc)

end Sys2Proof.Proofs.RawAccess

/-! Statements of 44_command_sequencer_scheduler.md R199 and of 40_timing_constraint_checker.md R112: the transaction
splitter, and the range checks of the splitter and of the query port. -/

namespace Sys2Proof.Proofs.Splitting

open Sys2Proof.Machine Sys2Proof.Proofs.Parts Sys2Proof.Proofs.Operations Sys2Proof.Proofs.Issuing

/-! ### The number of commands and their columns -/

section Range

variable {cfg : Cfg} {h : TxnHeader} {n : Nat}

/-- `n` is the least number of bursts that cover the bytes of the transaction. -/
theorem splitCount_eq (hv : cfgValid cfg = true) (hcover : h.bytes.toNat ≤ n * (4 * cfg.BL))
    (hleast : n * (4 * cfg.BL) < h.bytes.toNat + 4 * cfg.BL) : splitCount cfg h = n := by
  obtain ⟨_, _, _, _, _, _, hBL, _⟩ := (cfgValid_iff cfg).1 hv
  have hstep : (n + 1) * (4 * cfg.BL) = n * (4 * cfg.BL) + 4 * cfg.BL := Nat.succ_mul ..
  exact Nat.div_eq_of_lt_le (by omega) (hstep ▸ by omega)

theorem splitFault_none (hb : h.bank.toNat < cfg.NB) (hr : h.row.toNat < cfg.NR)
    (hc : h.col.toNat + splitCount cfg h * cfg.BL ≤ cfg.NC) : splitFault cfg h = none := by
  rw [splitFault, if_neg (by omega), if_neg (by omega), if_neg (by omega)]

theorem splitFault_bank (hb : cfg.NB ≤ h.bank.toNat) : splitFault cfg h = some (.outOfRange, h.bank.toNat) :=
  if_pos hb

theorem splitFault_row (hb : h.bank.toNat < cfg.NB) (hr : cfg.NR ≤ h.row.toNat) :
    splitFault cfg h = some (.outOfRange, h.row.toNat) := by
  rw [splitFault, if_neg (by omega), if_pos hr]

theorem splitFault_column (hb : h.bank.toNat < cfg.NB) (hr : h.row.toNat < cfg.NR)
    (hc : cfg.NC < h.col.toNat + splitCount cfg h * cfg.BL) : splitFault cfg h = some (.outOfRange, h.col.toNat) := by
  rw [splitFault, if_neg (by omega), if_neg (by omega), if_pos hc]

/-- The columns of a split inside the row fit their 32 bits. -/
theorem splitCol_toNat (hv : cfgValid cfg = true) (hc : h.col.toNat + n * cfg.BL ≤ cfg.NC) {k : Nat} (hk : k < n) :
    (splitCol cfg h k).toNat = h.col.toNat + k * cfg.BL := by
  obtain ⟨_, _, _, _, _, hNC, hBL, _⟩ := (cfgValid_iff cfg).1 hv
  have hlt : k * cfg.BL < n * cfg.BL := Nat.mul_lt_mul_of_pos_right hk hBL
  exact Nat.mod_eq_of_lt (by omega)

end Range

/-! ### The bursts of a write transaction -/

section Slots

variable (h : TxnHeader) (hasMask : Bool) (data : List Byte) (bmask : List Bool) (p : Nat) {j : Nat}

theorem byteEnabled_iff :
    byteEnabled h hasMask bmask p = true ↔ p < h.bytes.toNat ∧ (hasMask = true → bmask.getD p false = true) := by
  cases hasMask <;> simp [byteEnabled]

theorem splitSlot_mask (hj : j < 4) :
    (splitSlot h hasMask data bmask p).mask.getLsbD j = byteEnabled h hasMask bmask (p + j) := by
  match j, hj with
  | 0, _ | 1, _ | 2, _ | 3, _ => simp only [splitSlot, BitVec.getLsbD_append, BitVec.getLsbD_ofBool]; simp

theorem splitSlot_word (hj : j < 4) :
    byteOf (splitSlot h hasMask data bmask p).word j = byteCarried h data (p + j) := by
  match j, hj with
  | 0, _ | 1, _ | 2, _ | 3, _ => simp [splitSlot]

end Slots

theorem splitBurst_len {cfg : Cfg} (hv : cfgValid cfg = true) (h : TxnHeader) (hasMask : Bool) (data : List Byte)
    (bmask : List Bool) (k : Nat) : (splitBurst cfg h hasMask data bmask k).len.toNat = cfg.BL := by
  obtain ⟨_, _, _, _, _, _, _, hBL, _⟩ := (cfgValid_iff cfg).1 hv
  exact Nat.mod_eq_of_lt (by omega)

theorem splitBurst_slots_length (cfg : Cfg) (h : TxnHeader) (hasMask : Bool) (data : List Byte) (bmask : List Bool)
    (k : Nat) : (splitBurst cfg h hasMask data bmask k).slots.length = cfg.BL := by
  simp [splitBurst]

theorem splitBurst_getElem? {cfg : Cfg} (h : TxnHeader) (hasMask : Bool) (data : List Byte) (bmask : List Bool)
    (k : Nat) {i : Nat} (hi : i < cfg.BL) :
    (splitBurst cfg h hasMask data bmask k).slots[i]? =
      some (splitSlot h hasMask data bmask (k * (4 * cfg.BL) + 4 * i)) := by
  simp [splitBurst, hi]

/-! ### The statements -/

/-- A transaction in range is answered, and nothing else happens (44 R199). -/
theorem answerSplit_of_none {s : State} {h : TxnHeader} (hf : splitFault s.cfg h = none) (commands : List Command) :
    answerSplit h commands s = s.setEnv { s.env with splitOut := some commands } := by
  rw [answerSplit, hf]

/-- Settles O41: the answer is `splitReads`, and `n` is its length. -/
theorem txnReadSplits : Obligations.TxnReadSplits := by
  intro s h n hs hrun hb hr hcover hleast hc
  have hv : cfgValid s.cfg = true := hs.1
  have hn : splitCount s.cfg h = n := splitCount_eq hv hcover hleast
  have hanswer := answerSplit_of_none (splitFault_none hb hr (hn ▸ hc)) (splitReads s.cfg h)
  refine ⟨_, splitReads s.cfg h, exec_of_running hrun (by simp), hanswer, fun a => ?_, ?_, fun k hk => ?_⟩
  · rw [action, hanswer]
    rfl
  · rw [splitReads, List.length_map, List.length_range, hn]
  · refine ⟨splitCol s.cfg h k, splitCol_toNat hv hc hk, ?_⟩
    rw [splitReads, List.getElem?_map, List.getElem?_range (hn ▸ hk)]
    rfl

/-- Settles O42: the answer is `splitWrites`; byte and mask bit `p` stand in slot `p / 4` of the bursts in a row. -/
theorem txnWriteSplits : Obligations.TxnWriteSplits := by
  intro s h hasMask data bmask n hs hrun hb hr hcover hleast hc
  have hv : cfgValid s.cfg = true := hs.1
  have hn : splitCount s.cfg h = n := splitCount_eq hv hcover hleast
  have hanswer := answerSplit_of_none (splitFault_none hb hr (hn ▸ hc)) (splitWrites s.cfg h hasMask data bmask)
  refine ⟨_, splitWrites s.cfg h hasMask data bmask, exec_of_running hrun (by simp), hanswer, fun a => ?_, ?_,
    fun k hk => ?_⟩
  · rw [action, hanswer]
    rfl
  · rw [splitWrites, List.length_map, List.length_range, hn]
  · refine ⟨splitCol s.cfg h k, splitBurst s.cfg h hasMask data bmask k, splitCol_toNat hv hc hk, ?_,
      splitBurst_len hv .., splitBurst_slots_length .., fun i hi => ⟨_, splitBurst_getElem? _ _ _ _ _ hi,
        fun j hj => ⟨?_, splitSlot_word _ _ _ _ _ hj⟩⟩⟩
    · rw [splitWrites, List.getElem?_map, List.getElem?_range (hn ▸ hk)]
      rfl
    · rw [splitSlot_mask _ _ _ _ _ hj, byteEnabled_iff]

/-- A transaction out of range takes its fatal, a read or a write (44 R199). -/
theorem exec_of_splitFault {s : State} {i : Instr} {h : TxnHeader} {hasMask : Bool} {data : List Byte}
    {bmask : List Bool} {v : Violation} (hrun : running s = true)
    (hi : i = .txnRead h ∨ i = .txnWrite h hasMask data bmask) (hf : splitFault s.cfg h = some v) :
    exec i s = .next (withFatal .scheduler .split v.1 v.2 s) := by
  have hfatal (commands : List Command) : answerSplit h commands s = withFatal .scheduler .split v.1 v.2 s := by
    rw [answerSplit, hf]
    exact raiseFatal_live ((running_iff s).1 hrun).1 ..
  rcases hi with rfl | rfl
  · rw [exec_of_running hrun (by simp), action, hfatal]
  · rw [exec_of_running hrun (by simp), action, hfatal]

/-- Settles O43: the bank check of the query port, and the three places of `splitFault`. -/
theorem queryOrSplitOutOfRangeIsFatal : Obligations.QueryOrSplitOutOfRangeIsFatal := by
  refine ⟨fun s kind bank hrun hb => ?_, fun s h hasMask data bmask n i hs hrun hi hcover hleast =>
    ⟨fun hb => ?_, fun hb hr => ?_, fun hb hr hc => ?_⟩⟩
  · rw [exec_of_running hrun (by simp), action, query, bankFault_of_ge hb]
    exact congrArg Host.Outcome.next (raiseFatal_live ((running_iff s).1 hrun).1 ..)
  · exact exec_of_splitFault hrun hi (splitFault_bank hb)
  · exact exec_of_splitFault hrun hi (splitFault_row hb hr)
  · have hn : splitCount s.cfg h = n := splitCount_eq hs.1 hcover hleast
    exact exec_of_splitFault hrun hi (splitFault_column hb hr (hn ▸ hc))

end Sys2Proof.Proofs.Splitting
